-- ==== Sys2Proof/Word.lean ====
section
/-! DEFINITION. The two word types of the core (00_scope.md R9): every datum in memory is one byte, and the
wire's command byte holds two nibbles. Counts and lengths are naturals (30_encoding.md R86). -/

namespace Sys2Proof

/-- An 8-bit unsigned value (R9). -/
abbrev Byte := BitVec 8

/-- A 4-bit unsigned value: a port or a command code (R30, R31). -/
abbrev Nibble := BitVec 4

end Sys2Proof
end

