-- ==== Sys2Proof/Syntax.lean ====
section
/-! DEFINITION. The instructions: the eight operations of 30_encoding.md R82, one constructor per row of
spec/opcode_table.json. No operation has an operand field: every operand is a register (R77, R80). -/

namespace Sys2Proof

/-- An operation of the core (R82). -/
inductive Instr where
  /-- `ENCODE_DATA`, OP 0x0 -/
  | encodeData
  /-- `DECODE_DATA`, OP 0x1 -/
  | decodeData
  /-- `PACK`, OP 0x2 -/
  | pack
  /-- `UNPACK`, OP 0x3 -/
  | unpack
  /-- `ENCODE_PACKET`, OP 0x4 -/
  | encodePacket
  /-- `DECODE_PACKET`, OP 0x5 -/
  | decodePacket
  /-- `PKT_INIT`, OP 0x6 -/
  | pktInit
  /-- `PKT_RESET`, OP 0x7 -/
  | pktReset
  deriving DecidableEq, Repr

end Sys2Proof
end

