-- ==== Sys2Proof/Config.lean ====
section
/-! DEFINITION. What an implementation fixes: the parameters of 00_scope.md R8, as one record that State carries,
so that a statement over all states is a statement over all their values; and the free values. -/

namespace Sys2Proof

/-- An address space (20_memory.md R50). -/
inductive Machine.Space where
  /-- `IN` -/
  | inp
  /-- `OUT` -/
  | out
  /-- `PKT` -/
  | pkt
  deriving DecidableEq, Repr

/-- `ENC_TRUNC` (R8, decision D7): what the escape encoder does when a two-byte escape sequence does not fit. -/
inductive EncTrunc where
  | split
  | atomic
  deriving DecidableEq, Repr, Inhabited

/-- `SEEK_MODE` (R8, R172, decision D9): whether the scanner takes a command byte at the front of the buffer with no
delimiter before it. -/
inductive SeekMode where
  | streamBoundary
  | bufferDelimiter
  deriving DecidableEq, Repr

/-- The parameters of R8. -/
structure Config where
  /-- `IN_SIZE` -/
  inSize : Nat
  /-- `OUT_SIZE` -/
  outSize : Nat
  /-- `PKT_SIZE` -/
  pktSize : Nat
  /-- `CNT_W` -/
  cntW : Nat
  /-- `ENC_TRUNC` -/
  encTrunc : EncTrunc
  /-- `SEEK_MODE` -/
  seekMode : SeekMode
  deriving DecidableEq, Repr

/-- FREE VALUE (log 2): the truncation policy of the chip that `State.reset` describes. R8 leaves it OPEN. -/
opaque Config.chipEncTrunc : EncTrunc

/-- FREE VALUE (log 7): the byte the host reads at an offset of a space that nothing has written since power-on. It is one
value for each offset, the same at every read (20_memory.md R54); the first argument tells one power-on from another. -/
opaque Config.freeByte : Nat → Machine.Space → Nat → Byte

/-- The parameters `State.reset` is built with. DESIGN CHOICE (log 1): the sizes are those of the spec's own programs
(95_test_vectors.md section 8), and the count width is 16. `SEEK_MODE` is the spec's decided value (D9, log 3). No
statement rests on these values: those about reset are over every `Config`. -/
def Config.chip : Config where
  inSize := 32
  outSize := 32
  pktSize := 32
  cntW := 16
  encTrunc := Config.chipEncTrunc
  seekMode := .streamBoundary

end Sys2Proof
end

