-- ==== Sys2Proof/WellFormed.lean ====
section
/-! DEFINITION. Well-formed terms. An instruction of this core has no operand (30_encoding.md R77), so every
instruction is well-formed; what can be ill-formed is a choice of parameters. -/

namespace Sys2Proof

/-- Every instruction is well-formed: there is no field to check (R77, R80). -/
def Instr.wellFormed : Instr → Bool
  | .encodeData => true
  | .decodeData => true
  | .pack => true
  | .unpack => true
  | .encodePacket => true
  | .decodePacket => true
  | .pktInit => true
  | .pktReset => true

/-- The constraint R8 puts on `CNT_W`: 2^CNT_W > max(IN_SIZE, OUT_SIZE, PKT_SIZE) + 3. -/
def Config.wellFormed (c : Config) : Bool :=
  decide (max c.inSize (max c.outSize c.pktSize) + 3 < 2 ^ c.cntW)

end Sys2Proof
end

