-- ==== Sys2Proof/Decode.lean ====
section
/-! DEFINITION. The OPSEL decoder, total on every byte and rejecting by name (30_encoding.md R80, R81, R82), and the
encoder written from the same table. -/

namespace Sys2Proof

/-- Why a byte is no operation (R81). -/
inductive Reject where
  /-- OPSEL[7:4] ≠ 0. -/
  | reservedOpsel
  /-- OPSEL[3:0] in 0x8..0xF. -/
  | reservedOp
  deriving DecidableEq, Repr

/-- The field RSV, OPSEL[7:4] (R80). -/
def opselRsv (b : Byte) : Nibble := b.extractLsb' 4 4

/-- The field OP, OPSEL[3:0] (R80). -/
def opselOp (b : Byte) : Nibble := b.extractLsb' 0 4

/-- The operation map (R82): OP 0x0 to 0x7. -/
def opOf (op : Nibble) : Option Instr :=
  match op.toNat with
  | 0 => some .encodeData
  | 1 => some .decodeData
  | 2 => some .pack
  | 3 => some .unpack
  | 4 => some .encodePacket
  | 5 => some .decodePacket
  | 6 => some .pktInit
  | 7 => some .pktReset
  | _ => none

/-- Decode an OPSEL byte (R80 to R82). The check of RSV comes first (60_exceptions.md R223). -/
def decode (b : Byte) : Except Reject Instr :=
  if opselRsv b ≠ 0#4 then .error .reservedOpsel
  else
    match opOf (opselOp b) with
    | some i => .ok i
    | none => .error .reservedOp

/-- The field OP of an operation, from the table of R82. -/
def Instr.op : Instr → Nibble
  | .encodeData => 0x0#4
  | .decodeData => 0x1#4
  | .pack => 0x2#4
  | .unpack => 0x3#4
  | .encodePacket => 0x4#4
  | .decodePacket => 0x5#4
  | .pktInit => 0x6#4
  | .pktReset => 0x7#4

/-- The OPSEL byte of an operation: RSV = 0 above OP (R80, R82). -/
def encode (i : Instr) : Byte := (0#4 : Nibble) ++ i.op

/-- The instruction the decoder reads from the table's bits: an OPSEL word is the one byte of R80, and bits at or above
`nbits` are 0. -/
def decodeTableWord (nbits w : Nat) : Option Instr :=
  match decode (BitVec.ofNat 8 (w % 2 ^ nbits)) with
  | .ok i => some i
  | .error _ => none

end Sys2Proof
end

