-- ==== Sys2Proof/Machine/State.lean ====
section
/-! DEFINITION. The state of the machine: the interface registers, the packet register set and the three byte memories
(10_state.md R20, R21, R28; 20_memory.md R50), the parameters (00_scope.md R8), and the host's pending actions
(30_encoding.md R83). What stops a run. -/

namespace Sys2Proof.Machine

/-- An interface register (10_state.md R21), in the order of its index. -/
inductive Reg where
  | opsel | inLen | outCap | argCmd | argPort | argByte | argCap | result
  | resByte | resCmd | resPort | pktCmd | pktPort | pktLen | pktCap | pktComplete
  deriving DecidableEq, Repr

/-- How many bytes a `shift` drops (30_encoding.md R83, R84): a number, or what RESULT holds (`consume`). -/
inductive ShiftCount where
  | lit (k : Nat)
  | result
  deriving DecidableEq, Repr

/-- What the host does between operations: the statements of 30_encoding.md R83 (`op M` is a `writeReg` of OPSEL), and
the reads 10_state.md R21 and 20_memory.md R50 allow it. -/
inductive HostAction where
  /-- `wreg REG, v`, by the register's index -/
  | writeReg (idx v : Nat)
  /-- the host reads an interface register -/
  | readReg (idx : Nat)
  /-- `wmem S, off, [..]` -/
  | writeMem (sp : Space) (off : Nat) (bytes : List Byte)
  /-- the host reads a byte of memory -/
  | readMem (sp : Space) (off : Nat)
  /-- `shift IN, k` -/
  | shift (k : ShiftCount)
  /-- `append IN, [..]` -/
  | append (bytes : List Byte)
  deriving DecidableEq, Repr

/-- The core raises no exception (60_exceptions.md R220), so no step from a state that keeps the packet invariant ends in
a fault. -/
inductive Fault where
  /-- The core's access to an offset at or above the size of its space, which does not exist (R50, R58). Raised by
  `memRead` and `memWrite`, and only in a state that breaks the packet invariant (10_state.md R29). Safe (log 9). -/
  | absentByte
  deriving DecidableEq, Repr

/-- The refusals of 60_exceptions.md R223 and R224, under the spec's names, and two of the model's own (log 9, 10). A
refusal is the model's outcome for a broken caller contract (R222). All are safe: no run goes through a refused action
(log 8). -/
inductive Refusal where
  /-- An instruction the model has no meaning for. Raised by no arm of this model. Safe. -/
  | notModelled (mnemonic : String)
  /-- IN_LEN > IN_SIZE. Raised by ENCODE_DATA, DECODE_DATA, DECODE_PACKET. Safe. -/
  | inputOverrun
  /-- OUT_CAP > OUT_SIZE. Raised by ENCODE_DATA, DECODE_DATA, ENCODE_PACKET. Safe. -/
  | outputOverrun
  /-- ARG_CAP > PKT_SIZE. Raised by PKT_INIT. Safe. -/
  | storageOverrun
  /-- A host write of PKT_LEN above PKT_CAP. Safe. -/
  | packetOverrun
  /-- A host write of RESULT, RES_BYTE, RES_CMD, RES_PORT, PKT_CAP or PKT_COMPLETE. Safe. -/
  | readOnlyRegister
  /-- A host write or read of a register index above 15. Safe. -/
  | unknownRegister
  /-- An OPSEL write with OP in 0x8..0xF. Safe. -/
  | reservedOp
  /-- An OPSEL write with OPSEL[7:4] ≠ 0. Safe. -/
  | reservedOpsel
  /-- The core reads a byte that neither the host nor an earlier operation has written (R224). Raised by `memRead`.
  Safe. -/
  | unwrittenByte
  /-- The model's own (log 9): the host reads or writes an offset at or above the size of its space (20_memory.md R50).
  Raised by `hostReadByte` and `hostWriteBytes`. Safe. -/
  | absentOffset
  /-- The model's own (log 10): the host shifts out more bytes than IN_LEN says the buffer holds (30_encoding.md R83).
  Raised by `hostShift`. Safe. -/
  | shiftPastLength
  deriving DecidableEq, Repr

/-- A byte memory: the written bytes, offsets strictly rising. An unlisted offset is unwritten (10_state.md R38,
log 19). -/
abbrev Memory := List Host.Cell

/-- The canonical form: offsets strictly rising. An unlisted offset has no value, so no entry can repeat it. -/
abbrev Memory.wf (m : Memory) : Prop := m.Pairwise fun x y => x.1 < y.1

/-- The whole state between two host actions: the persistent state of 10_state.md R20, the parameters, and the model's
own fields. The transient state of an operation (R34) lives inside the operation (log 4). -/
structure State where
  /-- the parameters of 00_scope.md R8, fixed for one machine -/
  cfg : Config
  /-- OPSEL -/
  opsel : Byte
  /-- IN_LEN -/
  inLen : Nat
  /-- OUT_CAP -/
  outCap : Nat
  /-- ARG_CMD -/
  argCmd : Byte
  /-- ARG_PORT -/
  argPort : Byte
  /-- ARG_BYTE -/
  argByte : Byte
  /-- ARG_CAP -/
  argCap : Nat
  /-- RESULT -/
  result : Nat
  /-- RES_BYTE -/
  resByte : Byte
  /-- RES_CMD -/
  resCmd : Nibble
  /-- RES_PORT -/
  resPort : Nibble
  /-- PKT_CMD -/
  pktCmd : Nibble
  /-- PKT_PORT -/
  pktPort : Nibble
  /-- PKT_LEN -/
  pktLen : Nat
  /-- PKT_CAP -/
  pktCap : Nat
  /-- PKT_COMPLETE -/
  pktComplete : Bool
  /-- IN_MEM -/
  inMem : Memory
  /-- OUT_MEM -/
  outMem : Memory
  /-- PKT_MEM -/
  pktMem : Memory
  /-- the host's next actions, first to be done first (the model's own field, log 5) -/
  pending : List HostAction
  /-- what the host's last read returned (the model's own field, log 6) -/
  readData : Nat
  /-- which power-on this is, for what the host reads in unwritten memory (the model's own field, log 7) -/
  powerOn : Nat
  deriving DecidableEq, Repr

/-- Power-on of a machine with the parameters `c` (10_state.md R37, R38; 70_reset_and_hazards.md R250): every register
0, every byte unwritten, and nothing pending. -/
def State.resetWith (c : Config) : State where
  cfg := c
  opsel := 0x00#8
  inLen := 0
  outCap := 0
  argCmd := 0x00#8
  argPort := 0x00#8
  argByte := 0x00#8
  argCap := 0
  result := 0
  resByte := 0x00#8
  resCmd := 0x0#4
  resPort := 0x0#4
  pktCmd := 0x0#4
  pktPort := 0x0#4
  pktLen := 0
  pktCap := 0
  pktComplete := false
  inMem := []
  outMem := []
  pktMem := []
  pending := []
  readData := 0
  powerOn := 0

/-- The machine right after reset, with the parameters of `Config.chip` (log 1, 2, 3). -/
def State.reset : State := State.resetWith Config.chip

end Sys2Proof.Machine
end

