-- ==== Sys2Proof/Machine/Ops.lean ====
section
/-! DEFINITION. The operations the meanings are built from: sequencing that stops at the first stop, refusing, the byte
accesses MemRead and MemWrite (00_scope.md R11; 20_memory.md), and the registers behind one read and one write
(10_state.md R21). There is no exception to take and none to return from (60_exceptions.md R220, R228). -/

namespace Sys2Proof.Machine

/-- What a part of an operation answers. -/
abbrev Res (α : Type) := Host.Outcome α Fault Refusal

/-- Go on with the answer, or stop as it stopped. -/
def andThen {α β : Type} (r : Res α) (f : α → Res β) : Res β :=
  match r with
  | .next a => f a
  | .fault e => .fault e
  | .refused e => .refused e

/-- `refuse <Reason>` (60_exceptions.md R222). -/
def refuse {α : Type} (r : Refusal) : Res α := .refused r

/-! ### Memory -/

/-- The byte at an offset, if it has been written. -/
def Memory.read : Memory → Nat → Option Byte
  | [], _ => none
  | (k, v) :: m, a => if k = a then some v else Memory.read m a

/-- Put a byte at an offset, keeping the canonical form. -/
def Memory.write : Memory → Nat → Byte → Memory
  | [], a, v => [(a, v)]
  | (k, w) :: m, a, v =>
    if a < k then (a, v) :: (k, w) :: m
    else if a = k then (a, v) :: m
    else (k, w) :: Memory.write m a v

/-- The size of a space (20_memory.md R50). -/
def spaceSize (c : Config) : Space → Nat
  | .inp => c.inSize
  | .out => c.outSize
  | .pkt => c.pktSize

/-- The memory of a space. -/
def memOf (s : State) : Space → Memory
  | .inp => s.inMem
  | .out => s.outMem
  | .pkt => s.pktMem

/-- Replace the memory of a space. -/
def setMem (s : State) (sp : Space) (m : Memory) : State :=
  match sp with
  | .inp => { s with inMem := m }
  | .out => { s with outMem := m }
  | .pkt => { s with pktMem := m }

/-- The byte at an offset of a space, if it has been written: how statements look at memory. -/
def byteAt (s : State) (sp : Space) (a : Nat) : Option Byte := Memory.read (memOf s sp) a

/-- Put a byte at an offset of a space, with no check. -/
def putByte (s : State) (sp : Space) (a : Nat) (v : Byte) : State :=
  setMem s sp (Memory.write (memOf s sp) a v)

/-- Put bytes at consecutive offsets, in index order (20_memory.md R51), with no check. -/
def putBytes (s : State) (sp : Space) : Nat → List Byte → State
  | _, [] => s
  | a, v :: vs => putBytes (putByte s sp a v) sp (a + 1) vs

/-- `MemRead(S, a, 1)` by the core: an unwritten byte refuses (60_exceptions.md R224). -/
def memRead (s : State) (sp : Space) (a : Nat) : Res Byte :=
  if a < spaceSize s.cfg sp then
    match byteAt s sp a with
    | some v => .next v
    | none => refuse .unwrittenByte
  else .fault .absentByte

/-- `MemWrite(S, a, 1, v)`. -/
def memWrite (s : State) (sp : Space) (a : Nat) (v : Byte) : Res State :=
  if a < spaceSize s.cfg sp then .next (putByte s sp a v) else .fault .absentByte

/-- MemWrite at consecutive offsets, in index order (20_memory.md R51). -/
def memWriteList (s : State) (sp : Space) : Nat → List Byte → Res State
  | _, [] => .next s
  | a, v :: vs => andThen (memWrite s sp a v) fun s' => memWriteList s' sp (a + 1) vs

/-- The byte the host reads at an offset: the written one, or a free value that is the offset's own (log 7). -/
def hostByte (s : State) (sp : Space) (a : Nat) : Byte := (byteAt s sp a).getD (Config.freeByte s.powerOn sp a)

/-- A byte as the host reads it: unwritten bytes are not checked (10_state.md R38), and nothing changes (20_memory.md
R54). An offset that does not exist is refused (log 9). -/
def hostReadByte (s : State) (sp : Space) (a : Nat) : Res Byte :=
  if a < spaceSize s.cfg sp then .next (hostByte s sp a) else refuse .absentOffset

/-- Bytes as the host writes them, at consecutive offsets. A range that does not exist is refused whole (log 9). -/
def hostWriteBytes (s : State) (sp : Space) (a : Nat) (vs : List Byte) : Res State :=
  if vs = [] ∨ a + vs.length ≤ spaceSize s.cfg sp then .next (putBytes s sp a vs) else refuse .absentOffset

/-! ### Registers -/

/-- `v mod 2^CNT_W`: what a count register keeps of a value (00_scope.md R11). -/
def toCount (c : Config) (v : Nat) : Nat := v % 2 ^ c.cntW

/-- What a register holds, as a number (10_state.md R21). -/
def regRead (s : State) : Reg → Nat
  | .opsel => s.opsel.toNat
  | .inLen => s.inLen
  | .outCap => s.outCap
  | .argCmd => s.argCmd.toNat
  | .argPort => s.argPort.toNat
  | .argByte => s.argByte.toNat
  | .argCap => s.argCap
  | .result => s.result
  | .resByte => s.resByte.toNat
  | .resCmd => s.resCmd.toNat
  | .resPort => s.resPort.toNat
  | .pktCmd => s.pktCmd.toNat
  | .pktPort => s.pktPort.toNat
  | .pktLen => s.pktLen
  | .pktCap => s.pktCap
  | .pktComplete => s.pktComplete.toNat

/-- `REG <- v`, truncating `v` to the register's width (00_scope.md R11). -/
def regSet (s : State) (r : Reg) (v : Nat) : State :=
  match r with
  | .opsel => { s with opsel := BitVec.ofNat 8 v }
  | .inLen => { s with inLen := toCount s.cfg v }
  | .outCap => { s with outCap := toCount s.cfg v }
  | .argCmd => { s with argCmd := BitVec.ofNat 8 v }
  | .argPort => { s with argPort := BitVec.ofNat 8 v }
  | .argByte => { s with argByte := BitVec.ofNat 8 v }
  | .argCap => { s with argCap := toCount s.cfg v }
  | .result => { s with result := toCount s.cfg v }
  | .resByte => { s with resByte := BitVec.ofNat 8 v }
  | .resCmd => { s with resCmd := BitVec.ofNat 4 v }
  | .resPort => { s with resPort := BitVec.ofNat 4 v }
  | .pktCmd => { s with pktCmd := BitVec.ofNat 4 v }
  | .pktPort => { s with pktPort := BitVec.ofNat 4 v }
  | .pktLen => { s with pktLen := toCount s.cfg v }
  | .pktCap => { s with pktCap := toCount s.cfg v }
  | .pktComplete => { s with pktComplete := v % 2 == 1 }

/-- The width of a register in bits (10_state.md R21). -/
def regWidth (c : Config) : Reg → Nat
  | .opsel => 8
  | .inLen => c.cntW
  | .outCap => c.cntW
  | .argCmd => 8
  | .argPort => 8
  | .argByte => 8
  | .argCap => c.cntW
  | .result => c.cntW
  | .resByte => 8
  | .resCmd => 4
  | .resPort => 4
  | .pktCmd => 4
  | .pktPort => 4
  | .pktLen => c.cntW
  | .pktCap => c.cntW
  | .pktComplete => 1

/-- The register at an index of the map (10_state.md R21). -/
def regOfIndex : Nat → Option Reg
  | 0 => some .opsel
  | 1 => some .inLen
  | 2 => some .outCap
  | 3 => some .argCmd
  | 4 => some .argPort
  | 5 => some .argByte
  | 6 => some .argCap
  | 7 => some .result
  | 8 => some .resByte
  | 9 => some .resCmd
  | 10 => some .resPort
  | 11 => some .pktCmd
  | 12 => some .pktPort
  | 13 => some .pktLen
  | 14 => some .pktCap
  | 15 => some .pktComplete
  | _ => none

/-- The index of a register in the map (10_state.md R21). -/
def regIndex : Reg → Nat
  | .opsel => 0
  | .inLen => 1
  | .outCap => 2
  | .argCmd => 3
  | .argPort => 4
  | .argByte => 5
  | .argCap => 6
  | .result => 7
  | .resByte => 8
  | .resCmd => 9
  | .resPort => 10
  | .pktCmd => 11
  | .pktPort => 12
  | .pktLen => 13
  | .pktCap => 14
  | .pktComplete => 15

/-- The registers the host may only read (10_state.md R39). -/
def regReadOnly : Reg → Bool
  | .opsel => false
  | .inLen => false
  | .outCap => false
  | .argCmd => false
  | .argPort => false
  | .argByte => false
  | .argCap => false
  | .result => true
  | .resByte => true
  | .resCmd => true
  | .resPort => true
  | .pktCmd => false
  | .pktPort => false
  | .pktLen => false
  | .pktCap => true
  | .pktComplete => true

end Sys2Proof.Machine
end

