-- ==== Sys2Proof/Machine/Operands.lean ====
section
/-! DEFINITION. The byte values and the pure functions of 00_scope.md R13, R14: what the units compute from a byte, a
nibble pair or a payload. -/

namespace Sys2Proof.Machine

/-- "frame delimiter" (R13, R71). -/
abbrev FEND : Byte := 0xC0#8

/-- "escape byte" (R13, R71). -/
abbrev ESC : Byte := 0xDB#8

/-- "frame-delimiter-escape marker" (R13, R71). -/
abbrev TFEND : Byte := 0xDC#8

/-- "escape-escape marker" (R13, R71). -/
abbrev TFESC : Byte := 0xDD#8

/-- esc: the expansion of one payload byte (40_escape_codec.md R100). -/
def esc (b : Byte) : List Byte :=
  if b = FEND then [ESC, TFEND]
  else if b = ESC then [ESC, TFESC]
  else [b]

/-- Esc: the expansion of a payload (R14). -/
def escAll : List Byte → List Byte
  | [] => []
  | b :: x => esc b ++ escAll x

/-- pack: the port's low nibble above the command's low nibble (41_command_codec.md R130). -/
def packByte (c p : Byte) : Byte := ((p &&& 0x0F#8) <<< 4) ||| (c &&& 0x0F#8)

/-- unpack: (command, port) (41_command_codec.md R133). -/
def unpackByte (b : Byte) : Nibble × Nibble := (b.extractLsb' 0 4, b.extractLsb' 4 4)

/-- A nibble as a byte: `zext_8` (R10). -/
def zext8 (n : Nibble) : Byte := n.setWidth 8

/-- Frame: a frame on the wire (30_encoding.md R70). -/
def frame (c p : Nibble) (x : List Byte) : List Byte :=
  [FEND] ++ [packByte (zext8 c) (zext8 p)] ++ escAll x ++ [FEND]

/-- The named command codes (30_encoding.md R73). The core carries every code and acts on none. -/
inductive Command where
  | dataFrame
  | txDelay
  | persistence
  | slotTime
  | txTail
  | fullDuplex
  | setHardware
  | ret
  deriving DecidableEq, Repr

/-- The code of a named command (R73). -/
def commandCode : Command → Nibble
  | .dataFrame => 0x0#4
  | .txDelay => 0x1#4
  | .persistence => 0x2#4
  | .slotTime => 0x3#4
  | .txTail => 0x4#4
  | .fullDuplex => 0x5#4
  | .setHardware => 0x6#4
  | .ret => 0xF#4

/-- The name of a code, if it has one: 0x7 to 0xE have none (R73, decision D27). -/
def commandOf (c : Nibble) : Option Command :=
  match c.toNat with
  | 0 => some .dataFrame
  | 1 => some .txDelay
  | 2 => some .persistence
  | 3 => some .slotTime
  | 4 => some .txTail
  | 5 => some .fullDuplex
  | 6 => some .setHardware
  | 15 => some .ret
  | _ => none

end Sys2Proof.Machine
end

