-- ==== Sys2Proof/Machine/CommandCodec.lean ====
section
/-! DEFINITION. The command/port bit-packer: PACK and UNPACK (41_command_codec.md). -/

namespace Sys2Proof.Machine

/-- PACK (41_command_codec.md R131): RES_BYTE <- pack(ARG_CMD, ARG_PORT). -/
def execPack (s : State) : Res State :=
  .next (regSet s .resByte (packByte s.argCmd s.argPort).toNat)

/-- UNPACK (41_command_codec.md R134): RES_CMD and RES_PORT take ARG_BYTE's low and high nibble. -/
def execUnpack (s : State) : Res State :=
  .next (regSet (regSet s .resCmd (unpackByte s.argByte).1.toNat) .resPort (unpackByte s.argByte).2.toNat)

end Sys2Proof.Machine
end

