-- ==== Sys2Proof/Machine/Flags.lean ====
section
/-! DEFINITION. The core's two flags (10_state.md R32, R35): PEND, the decoder's pending-escape bit with its byte step,
and PKT_COMPLETE. There are no condition codes (R33). -/

namespace Sys2Proof.Machine

/-- decStep(PEND, b) = (emit, PEND'): the decoder's byte step (40_escape_codec.md R104, R105). -/
def decStep (pend : Bool) (b : Byte) : Option Byte × Bool :=
  if b = ESC then (none, true)
  else if b = TFEND then (some (if pend then FEND else TFEND), false)
  else if b = TFESC then (some (if pend then ESC else TFESC), false)
  else (some b, false)

/-- What the decoder emits from PEND = `pend` on, with no capacity limit. -/
def decFrom (pend : Bool) : List Byte → List Byte
  | [] => []
  | b :: x => (decStep pend b).1.toList ++ decFrom (decStep pend b).2 x

/-- Dec: the decoder starts with PEND clear, and a PEND left at the end is dropped (R106). -/
def dec (x : List Byte) : List Byte := decFrom false x

/-- PKT_COMPLETE <- 0 (10_state.md R32). -/
def clearComplete (s : State) : State := regSet s .pktComplete 0

/-- PKT_COMPLETE <- 1 (10_state.md R32). -/
def setComplete (s : State) : State := regSet s .pktComplete 1

end Sys2Proof.Machine
end

