-- ==== Sys2Proof/Machine/EscapeCodec.lean ====
section
/-! DEFINITION. The escape encoder and decoder units and the operations ENCODE_DATA and DECODE_DATA
(40_escape_codec.md). -/

namespace Sys2Proof.Machine

/-- The encoder's transient state (10_state.md R34), and the reads and writes it has made (70_reset_and_hazards.md R262,
log 14). -/
structure Encoder where
  i : Nat
  j : Nat
  reads : Nat
  writes : Nat
  deriving DecidableEq, Repr

/-- The decoder's transient state (10_state.md R34, R35), and the reads and writes it has made. -/
structure Decoder where
  i : Nat
  j : Nat
  pend : Bool
  reads : Nat
  writes : Nat
  deriving DecidableEq, Repr

/-- The loop of EncodeInto (40_escape_codec.md R101) over the `k` input bytes still to come: full, stop; read a byte; an
expansion that fits is written whole, under either policy; one that does not fit ends the loop, ATOMIC writing none of
it and SPLIT the part there is room for (log 11). -/
def encodeLoop (src dst : Space) (a o cap : Nat) : Nat → Encoder → State → Res (State × Encoder)
  | 0, u, s => .next (s, u)
  | k + 1, u, s =>
    if u.j = cap then .next (s, u)
    else
      andThen (memRead s src (a + u.i)) fun b =>
        if u.j + (esc b).length ≤ cap then
          andThen (memWriteList s dst (o + u.j) (esc b)) fun s' =>
            encodeLoop src dst a o cap k
              { i := u.i + 1, j := u.j + (esc b).length,
                reads := u.reads + 1, writes := u.writes + (esc b).length } s'
        else
          match s.cfg.encTrunc with
          | .atomic => .next (s, { u with reads := u.reads + 1 })
          | .split =>
            andThen (memWriteList s dst (o + u.j) ((esc b).take (cap - u.j))) fun s' =>
              .next (s', { u with j := cap, reads := u.reads + 1, writes := u.writes + (cap - u.j) })

/-- EncodeInto(Si, a, n, So, o, cap) (R101). The count it returns is the unit's `j`. -/
def encodeInto (s : State) (src : Space) (a n : Nat) (dst : Space) (o cap : Nat) : Res (State × Encoder) :=
  encodeLoop src dst a o cap n { i := 0, j := 0, reads := 0, writes := 0 } s

/-- Write what a byte step emits, if anything, at `o + j` (R107). -/
def emit (s : State) (dst : Space) (a : Nat) : Option Byte → Res State
  | none => .next s
  | some e => memWrite s dst a e

/-- The loop of DecodeInto (40_escape_codec.md R107) over the `k` input bytes still to come. -/
def decodeLoop (src dst : Space) (a o cap : Nat) : Nat → Decoder → State → Res (State × Decoder)
  | 0, u, s => .next (s, u)
  | k + 1, u, s =>
    if u.j = cap then .next (s, u)
    else
      andThen (memRead s src (a + u.i)) fun b =>
        andThen (emit s dst (o + u.j) (decStep u.pend b).1) fun s' =>
          decodeLoop src dst a o cap k
            { i := u.i + 1, j := u.j + (decStep u.pend b).1.toList.length, pend := (decStep u.pend b).2,
              reads := u.reads + 1, writes := u.writes + (decStep u.pend b).1.toList.length } s'

/-- DecodeInto(Si, a, n, So, o, cap) (R107). The count it returns is the unit's `j`; a final PEND is dropped (R106). -/
def decodeInto (s : State) (src : Space) (a n : Nat) (dst : Space) (o cap : Nat) : Res (State × Decoder) :=
  decodeLoop src dst a o cap n { i := 0, j := 0, pend := false, reads := 0, writes := 0 } s

/-- How many byte steps an operation took: its MemReads and its MemWrites (70_reset_and_hazards.md R262, log 14). -/
structure Steps where
  reads : Nat
  writes : Nat
  deriving DecidableEq, Repr

/-- ENCODE_DATA (40_escape_codec.md R101), with the byte steps it took. -/
def runEncodeData (s : State) : Res (State × Steps) :=
  if s.inLen > s.cfg.inSize then refuse .inputOverrun
  else if s.outCap > s.cfg.outSize then refuse .outputOverrun
  else
    andThen (encodeInto s .inp 0 s.inLen .out 0 s.outCap) fun r =>
      .next (regSet r.1 .result r.2.j, { reads := r.2.reads, writes := r.2.writes })

/-- ENCODE_DATA (40_escape_codec.md R101). -/
def execEncodeData (s : State) : Res State := andThen (runEncodeData s) fun r => .next r.1

/-- DECODE_DATA (40_escape_codec.md R107), with the byte steps it took. -/
def runDecodeData (s : State) : Res (State × Steps) :=
  if s.inLen > s.cfg.inSize then refuse .inputOverrun
  else if s.outCap > s.cfg.outSize then refuse .outputOverrun
  else
    andThen (decodeInto s .inp 0 s.inLen .out 0 s.outCap) fun r =>
      .next (regSet r.1 .result r.2.j, { reads := r.2.reads, writes := r.2.writes })

/-- DECODE_DATA (40_escape_codec.md R107). -/
def execDecodeData (s : State) : Res State := andThen (runDecodeData s) fun r => .next r.1

end Sys2Proof.Machine
end

