-- ==== Sys2Proof/Machine/PacketControl.lean ====
section
/-! DEFINITION. Packet control: PKT_INIT and PKT_RESET (44_packet_control.md). -/

namespace Sys2Proof.Machine

/-- The effects of PKT_RESET (44_packet_control.md R204): PKT_LEN, PKT_CMD (DataFrame), PKT_PORT and PKT_COMPLETE
become 0. -/
def packetReset (s : State) : State :=
  clearComplete (regSet (regSet (regSet s .pktLen 0) .pktCmd 0) .pktPort 0)

/-- PKT_INIT (44_packet_control.md R201). -/
def execPktInit (s : State) : Res State :=
  if s.argCap > s.cfg.pktSize then refuse .storageOverrun
  else .next (packetReset (regSet s .pktCap s.argCap))

/-- PKT_RESET (44_packet_control.md R204). -/
def execPktReset (s : State) : Res State := .next (packetReset s)

end Sys2Proof.Machine
end

