-- ==== Sys2Proof/Machine/PacketFramer.lean ====
section
/-! DEFINITION. The packet framer: ENCODE_PACKET (42_packet_framer.md). -/

namespace Sys2Proof.Machine

/-- ENCODE_PACKET (42_packet_framer.md R151), with the byte steps it took. The embedded encoder gets OUT_CAP - 3 bytes
and the closing FEND is always written (decision D8). -/
def runEncodePacket (s : State) : Res (State × Steps) :=
  if s.outCap > s.cfg.outSize then refuse .outputOverrun
  else if s.outCap < s.pktLen + 3 then .next (regSet s .result 0, { reads := 0, writes := 0 })
  else
    andThen (memWrite s .out 0 FEND) fun s1 =>
      andThen (memWrite s1 .out 1 (packByte (zext8 s.pktCmd) (zext8 s.pktPort))) fun s2 =>
        andThen (encodeInto s2 .pkt 0 s.pktLen .out 2 (s.outCap - 3)) fun r =>
          andThen (memWrite r.1 .out (2 + r.2.j) FEND) fun s3 =>
            .next (regSet s3 .result (r.2.j + 3), { reads := r.2.reads, writes := r.2.writes + 3 })

/-- ENCODE_PACKET (42_packet_framer.md R151). -/
def execEncodePacket (s : State) : Res State := andThen (runEncodePacket s) fun r => .next r.1

end Sys2Proof.Machine
end

