-- ==== Sys2Proof/Machine/StreamDecoder.lean ====
section
/-! DEFINITION. The streaming frame scanner: DECODE_PACKET (43_stream_decoder.md). -/

namespace Sys2Proof.Machine

/-- The scanner state `st` (10_state.md R36). -/
inductive ScanSt where
  | hunt
  | seek
  | inframe
  | trail
  | done
  deriving DecidableEq, Repr

/-- The codes of R36 (decision D26). No host action can observe them. -/
def scanCode : ScanSt → BitVec 3
  | .hunt => 0#3
  | .seek => 1#3
  | .inframe => 2#3
  | .trail => 3#3
  | .done => 4#3

/-- The actions of 43_stream_decoder.md R174. -/
inductive ScanAct where
  /-- none: padding, a skipped byte, or trailing padding -/
  | skip
  /-- command byte found (R175) -/
  | command
  /-- plen <- plen + 1 -/
  | count
  /-- frame completes (R176) -/
  | complete
  /-- RESULT <- i; stop -/
  | stop
  deriving DecidableEq, Repr

/-- The scanner's byte step (43_stream_decoder.md R174): the action and the next state. It tests only b = FEND. DONE is
terminal: no byte step is taken in it (log 20). -/
def scanStep (st : ScanSt) (b : Byte) : ScanAct × ScanSt :=
  match st with
  | .hunt => if b = FEND then (.skip, .seek) else (.skip, .hunt)
  | .seek => if b = FEND then (.skip, .seek) else (.command, .inframe)
  | .inframe => if b = FEND then (.complete, .trail) else (.count, .inframe)
  | .trail => if b = FEND then (.skip, .trail) else (.stop, .done)
  | .done => (.stop, .done)

/-- The scanner's transient state (10_state.md R34), and the byte steps made (70_reset_and_hazards.md R262, log 14). -/
structure Scanner where
  st : ScanSt
  i : Nat
  start : Nat
  plen : Nat
  steps : Steps
  deriving DecidableEq, Repr

/-- The scanner at the start of a call (43_stream_decoder.md R173). -/
def scanStart (m : SeekMode) : Scanner where
  st := match m with
    | .streamBoundary => .seek
    | .bufferDelimiter => .hunt
  i := 0
  start := 0
  plen := 0
  steps := { reads := 0, writes := 0 }

/-- The command byte (43_stream_decoder.md R175): the packet registers take its fields at once (decision D10). -/
def takeCommand (s : State) (b : Byte) : State :=
  regSet (regSet s .pktCmd (unpackByte b).1.toNat) .pktPort (unpackByte b).2.toNat

/-- Frame completion (43_stream_decoder.md R176): the span is decoded into PKT_MEM, PKT_LEN takes the count, and
PKT_COMPLETE is set. -/
def completeFrame (s : State) (start plen : Nat) : Res (State × Decoder) :=
  andThen (decodeInto s .inp start plen .pkt 0 s.pktCap) fun r =>
    .next (setComplete (regSet r.1 .pktLen r.2.j), r.2)

/-- The end of the buffer (43_stream_decoder.md R177): RESULT is L in TRAIL, else 0. -/
def scanEnd (st : ScanSt) (s : State) : State :=
  match st with
  | .trail => regSet s .result s.inLen
  | .hunt => regSet s .result 0
  | .seek => regSet s .result 0
  | .inframe => regSet s .result 0
  | .done => regSet s .result 0

/-- The scan (43_stream_decoder.md R173) over the `k` bytes of the buffer still to come. -/
def scanLoop : Nat → Scanner → State → Res (State × Scanner)
  | 0, u, s => .next (scanEnd u.st s, u)
  | k + 1, u, s =>
    andThen (memRead s .inp u.i) fun b =>
      match scanStep u.st b with
      | (.skip, st) =>
        scanLoop k { u with st := st, i := u.i + 1, steps := { u.steps with reads := u.steps.reads + 1 } } s
      | (.command, st) =>
        scanLoop k
          { st := st, i := u.i + 1, start := u.i + 1, plen := 0, steps := { u.steps with reads := u.steps.reads + 1 } }
          (takeCommand s b)
      | (.count, st) =>
        scanLoop k
          { u with st := st, i := u.i + 1, plen := u.plen + 1, steps := { u.steps with reads := u.steps.reads + 1 } } s
      | (.complete, st) =>
        andThen (completeFrame s u.start u.plen) fun r =>
          scanLoop k
            { u with st := st, i := u.i + 1,
                     steps := { reads := u.steps.reads + 1 + r.2.reads, writes := u.steps.writes + r.2.writes } } r.1
      | (.stop, st) =>
        .next (regSet s .result u.i, { u with st := st, steps := { u.steps with reads := u.steps.reads + 1 } })

/-- DECODE_PACKET (43_stream_decoder.md R173), with the byte steps it took. PKT_COMPLETE is cleared on entry (D11). -/
def runDecodePacket (s : State) : Res (State × Steps) :=
  if s.inLen > s.cfg.inSize then refuse .inputOverrun
  else
    andThen (scanLoop s.inLen (scanStart s.cfg.seekMode) (clearComplete s)) fun r => .next (r.1, r.2.steps)

/-- DECODE_PACKET (43_stream_decoder.md R173). -/
def execDecodePacket (s : State) : Res State := andThen (runDecodePacket s) fun r => .next r.1

end Sys2Proof.Machine
end

