-- ==== Sys2Proof/Machine/Dispatch.lean ====
section
/-! DEFINITION. One arm per operation (30_encoding.md R82). -/

namespace Sys2Proof.Machine

def exec (i : Instr) (s : State) : Host.Outcome State Fault Refusal :=
  match i with
  | .encodeData => Sys2Proof.Machine.execEncodeData s
  | .decodeData => Sys2Proof.Machine.execDecodeData s
  | .pack => Sys2Proof.Machine.execPack s
  | .unpack => Sys2Proof.Machine.execUnpack s
  | .encodePacket => Sys2Proof.Machine.execEncodePacket s
  | .decodePacket => Sys2Proof.Machine.execDecodePacket s
  | .pktInit => Sys2Proof.Machine.execPktInit s
  | .pktReset => Sys2Proof.Machine.execPktReset s

end Sys2Proof.Machine
end

