-- ==== Sys2Proof/Machine/HostPort.lean ====
section
/-! DEFINITION. The host's side: register and memory accesses, starting an operation, and the buffer statements of
30_encoding.md R83. -/

namespace Sys2Proof.Machine

/-- An OPSEL write (10_state.md R22): OPSEL takes the value's low byte (log 17), and the operation it selects runs to
completion. A reserved value is refused by name (30_encoding.md R81). -/
def startOperation (s : State) (v : Nat) : Res State :=
  match decode (BitVec.ofNat 8 v) with
  | .ok i => exec i (regSet s .opsel v)
  | .error .reservedOpsel => refuse .reservedOpsel
  | .error .reservedOp => refuse .reservedOp

/-- `wreg REG, v` (10_state.md R39): an unknown or read-only register is refused; PKT_LEN is checked against PKT_CAP
(R29, log 16); OPSEL starts an operation; any other register keeps the value's low bits. -/
def hostWriteReg (s : State) (idx v : Nat) : Res State :=
  match regOfIndex idx with
  | none => refuse .unknownRegister
  | some r =>
    if regReadOnly r then refuse .readOnlyRegister
    else if r = .opsel then startOperation s v
    else if r = .pktLen ∧ v > s.pktCap then refuse .packetOverrun
    else .next (regSet s r v)

/-- The host reads a register (10_state.md R21): no side effect on the core. -/
def hostReadReg (s : State) (idx : Nat) : Res State :=
  match regOfIndex idx with
  | none => refuse .unknownRegister
  | some r => .next { s with readData := regRead s r }

/-- The host reads a byte of memory (20_memory.md R50): no side effect on the core. -/
def hostReadMem (s : State) (sp : Space) (a : Nat) : Res State :=
  andThen (hostReadByte s sp a) fun b => .next { s with readData := b.toNat }

/-- The host moves `c` bytes of IN_MEM down by `k`, the first to offset `d`, in index order (log 18). The target exists
where the source does. -/
def hostMoveDown (k : Nat) : Nat → Nat → State → Res State
  | 0, _, s => .next s
  | c + 1, d, s =>
    andThen (hostReadByte s .inp (d + k)) fun b => hostMoveDown k c (d + 1) (putByte s .inp d b)

/-- `shift IN, k` (30_encoding.md R83): IN_MEM[0..IN_LEN-k) <- IN_MEM[k..IN_LEN), then IN_LEN <- IN_LEN - k. -/
def hostShift (s : State) (k : Nat) : Res State :=
  if k ≤ s.inLen then
    andThen (hostMoveDown k (s.inLen - k) 0 s) fun s' => .next (regSet s' .inLen (s.inLen - k))
  else refuse .shiftPastLength

/-- The number a `shift` drops (30_encoding.md R84: `consume` is `shift IN, RESULT`). -/
def shiftCount (s : State) : ShiftCount → Nat
  | .lit k => k
  | .result => s.result

/-- `append IN, [..]` (30_encoding.md R83): the bytes go to IN_MEM[IN_LEN...], and IN_LEN grows by their count. -/
def hostAppend (s : State) (bytes : List Byte) : Res State :=
  andThen (hostWriteBytes s .inp s.inLen bytes) fun s' => .next (regSet s' .inLen (s.inLen + bytes.length))

/-- One host action (30_encoding.md R83). -/
def hostAct (s : State) : HostAction → Res State
  | .writeReg idx v => hostWriteReg s idx v
  | .readReg idx => hostReadReg s idx
  | .writeMem sp off bytes => hostWriteBytes s sp off bytes
  | .readMem sp off => hostReadMem s sp off
  | .shift k => hostShift s (shiftCount s k)
  | .append bytes => hostAppend s bytes

/-- The host's next turn: its first pending action, or, when it has none, the core stays idle and keeps its state
(60_exceptions.md R235; 70_reset_and_hazards.md R250). -/
def hostTurn (s : State) : Res State :=
  match s.pending with
  | [] => .next s
  | act :: rest => hostAct { s with pending := rest } act

/-- Put an OPSEL write first among the host's pending actions. -/
def pendOpsel (s : State) (v : Nat) : State :=
  { s with pending := .writeReg (regIndex .opsel) v :: s.pending }

end Sys2Proof.Machine
end

