-- ==== Sys2Proof/Machine/Step.lean ====
section
/-! DEFINITION. One step is the host's next action, an operation included: an operation runs to completion before the
host's next action (00_scope.md R17; 10_state.md R22). There is no fetch (20_memory.md R61). -/

namespace Sys2Proof.Machine

/-- One step of the machine. -/
def step (s : State) : Host.Outcome State Fault Refusal := hostTurn s

/-- `s` with an OPSEL write of the table's word as the host's next action: what this machine has in place of a fetch
(log 5). -/
def State.withFetchWord (s : State) (nbits w : Nat) : State := pendOpsel s (w % 2 ^ nbits)

end Sys2Proof.Machine
end

