-- ==== Sys2Proof/Machine/ByteSteps.lean ====
section
/-! DEFINITION. How many byte steps an operation takes (70_reset_and_hazards.md R262): read off the same runs the meanings
are made of. -/

namespace Sys2Proof.Machine

/-- The byte steps of a run that ended. -/
def stepsOf (r : Res (State × Steps)) : Option Steps :=
  match r with
  | .next p => some p.2
  | .fault _ => none
  | .refused _ => none

/-- The byte steps of an operation that ends in a next state (R262). PACK, UNPACK, PKT_INIT and PKT_RESET make none. -/
def byteSteps (i : Instr) (s : State) : Option Steps :=
  match i with
  | .encodeData => stepsOf (runEncodeData s)
  | .decodeData => stepsOf (runDecodeData s)
  | .pack => some { reads := 0, writes := 0 }
  | .unpack => some { reads := 0, writes := 0 }
  | .encodePacket => stepsOf (runEncodePacket s)
  | .decodePacket => stepsOf (runDecodePacket s)
  | .pktInit => some { reads := 0, writes := 0 }
  | .pktReset => some { reads := 0, writes := 0 }

end Sys2Proof.Machine
end

