-- ==== Sys2Proof/Machine/ClosedForms.lean ====
section
/-! DEFINITION. The closed forms the spec gives beside its pseudocode, as functions of bytes: what statements compare the
operations with. The machine does not run them. -/

namespace Sys2Proof.Machine

/-- The written bytes of a space from offset `a` on: at most `n`, and up to the first unwritten one. When all `n` are
written it is the byte sequence `S[a..a+n)`. -/
def writtenRun (s : State) (sp : Space) : Nat → Nat → List Byte
  | _, 0 => []
  | a, n + 1 =>
    match byteAt s sp a with
    | some b => b :: writtenRun s sp (a + 1) n
    | none => []

/-- The largest count up to `k` whose expansion fits in `cap` (40_escape_codec.md R102, ATOMIC). -/
def fitCount (cap : Nat) (x : List Byte) : Nat → Nat
  | 0 => 0
  | k + 1 => if (escAll (x.take (k + 1))).length ≤ cap then k + 1 else fitCount cap x k

/-- What the escape encoder writes of `x` with capacity `cap` (40_escape_codec.md R102). -/
def encOut (t : EncTrunc) (cap : Nat) (x : List Byte) : List Byte :=
  match t with
  | .split => (escAll x).take cap
  | .atomic => escAll (x.take (fitCount cap x x.length))

/-- The first index from `h` on whose byte satisfies `p`. -/
def firstFrom (p : Byte → Bool) (y : List Byte) (h : Nat) : Option Nat :=
  ((y.drop h).findIdx? p).map (h + ·)

/-- `h`, where Seeking begins (43_stream_decoder.md R184). -/
def seekFrom (m : SeekMode) (y : List Byte) : Option Nat :=
  match m with
  | .streamBoundary => some 0
  | .bufferDelimiter => (firstFrom (· == FEND) y 0).map (· + 1)

/-- `s`, the index of the command byte (R184). -/
def commandAt (m : SeekMode) (y : List Byte) : Option Nat :=
  (seekFrom m y).bind fun h => firstFrom (· != FEND) y h

/-- `e`, the index of the closing delimiter (R184). -/
def closeAt (m : SeekMode) (y : List Byte) : Option Nat :=
  (commandAt m y).bind fun c => firstFrom (· == FEND) y (c + 1)

/-- `t`, the index of the byte that follows the trailing padding, if there is one (R184). -/
def nextAt (m : SeekMode) (y : List Byte) : Option Nat :=
  (closeAt m y).bind fun e => firstFrom (· != FEND) y (e + 1)

/-- `y[a..b)` (00_scope.md R10). -/
def slice (y : List Byte) (a b : Nat) : List Byte := (y.drop a).take (b - a)

end Sys2Proof.Machine
end

