-- ==== Sys2Proof/Machine/HostLoop.lean ====
section
/-! DEFINITION. The host's streaming loop of 43_stream_decoder.md R186: append a chunk, call DECODE_PACKET, and consume
after each nonzero RESULT. The loop is the host's; the core does one operation at a time. -/

namespace Sys2Proof.Machine

/-- A packet as the host copies it out: command, port, payload. -/
structure Packet where
  cmd : Nibble
  port : Nibble
  payload : List Byte
  deriving DecidableEq, Repr

/-- The packet the packet register set holds (10_state.md R28). -/
def packetOf (s : State) : Packet where
  cmd := s.pktCmd
  port := s.pktPort
  payload := writtenRun s .pkt 0 s.pktLen

/-- DECODE_PACKET and `consume` until RESULT is 0, at most `k` times. -/
def drain : Nat → State → Res (State × List Packet)
  | 0, s => .next (s, [])
  | k + 1, s =>
    andThen (exec .decodePacket s) fun t =>
      if t.result = 0 then .next (t, [])
      else
        andThen (hostShift t t.result) fun u =>
          andThen (drain k u) fun r => .next (r.1, packetOf t :: r.2)

/-- Append a chunk and drain the buffer. -/
def feedChunk (s : State) (ch : List Byte) : Res (State × List Packet) :=
  andThen (hostAppend s ch) fun t => drain (t.inLen + 1) t

/-- Append each chunk in turn and drain the buffer after it. -/
def feed : List (List Byte) → State → Res (State × List Packet)
  | [], s => .next (s, [])
  | ch :: rest, s =>
    andThen (feedChunk s ch) fun r => andThen (feed rest r.1) fun q => .next (q.1, r.2 ++ q.2)

/-- Every chunk fits the buffer at the time it is appended. -/
def appendsFit : List (List Byte) → State → Bool
  | [], _ => true
  | ch :: rest, s =>
    decide (s.inLen + ch.length ≤ s.cfg.inSize) &&
      match feedChunk s ch with
      | .next r => appendsFit rest r.1
      | .fault _ => true
      | .refused _ => true

/-- The frames of some packets, one after the other. -/
def streamOf (fs : List Packet) : List Byte := (fs.map fun f => frame f.cmd f.port f.payload).flatten

/-- The packet with its payload cut to a capacity. -/
def Packet.cut (cap : Nat) (f : Packet) : Packet := { f with payload := f.payload.take cap }

/-- The first, third, fifth, ... packet. -/
def everySecond : List Packet → List Packet
  | [] => []
  | [f] => [f]
  | f :: _ :: fs => f :: everySecond fs

end Sys2Proof.Machine
end

