-- ==== Sys2Proof/Machine/HostProgram.lean ====
section
/-! DEFINITION. Host programs: the statements and pseudo-instructions of 30_encoding.md R83, R84 as lists of host
actions. -/

namespace Sys2Proof.Machine

/-- `wreg REG, v` (R83). -/
def wreg (r : Reg) (v : Nat) : HostAction := .writeReg (regIndex r) v

/-- `op MNEMONIC` (R83): an OPSEL write of the operation's code. -/
def opStmt (i : Instr) : HostAction := wreg .opsel (encode i).toNat

/-- `encode n, cap` (R84). -/
def pseudoEncode (n cap : Nat) : List HostAction := [wreg .inLen n, wreg .outCap cap, opStmt .encodeData]

/-- `decode n, cap` (R84). -/
def pseudoDecode (n cap : Nat) : List HostAction := [wreg .inLen n, wreg .outCap cap, opStmt .decodeData]

/-- `pack c, p` (R84). -/
def pseudoPack (c p : Nat) : List HostAction := [wreg .argCmd c, wreg .argPort p, opStmt .pack]

/-- `unpack b` (R84). -/
def pseudoUnpack (b : Nat) : List HostAction := [wreg .argByte b, opStmt .unpack]

/-- `frame cap` (R84). -/
def pseudoFrame (cap : Nat) : List HostAction := [wreg .outCap cap, opStmt .encodePacket]

/-- `scan n` (R84). -/
def pseudoScan (n : Nat) : List HostAction := [wreg .inLen n, opStmt .decodePacket]

/-- `newpkt cap` (R84). -/
def pseudoNewpkt (cap : Nat) : List HostAction := [wreg .argCap cap, opStmt .pktInit]

/-- `consume` (R84): drop the bytes the last DECODE_PACKET consumed. -/
def pseudoConsume : List HostAction := [.shift .result]

end Sys2Proof.Machine
end

