-- ==== Sys2Proof/Safety.lean ====
section
/-! DEFINITION. What holds of every state of a machine that works as the spec says: the invariant, and the packet
invariant of 10_state.md R29 by itself. -/

namespace Sys2Proof.Machine

/-- A memory in canonical form with nothing at or above its size (20_memory.md R50). -/
def Memory.within (m : Memory) (size : Nat) : Prop := m.wf ∧ ∀ c ∈ m, c.1 < size

/-- The packet invariant: PKT_LEN ≤ PKT_CAP ≤ PKT_SIZE (10_state.md R29). -/
def PacketInv (s : State) : Prop := s.pktLen ≤ s.pktCap ∧ s.pktCap ≤ s.cfg.pktSize

/-- The invariant of the machine. -/
structure StateInv (s : State) : Prop where
  /-- CNT_W is wide enough (00_scope.md R8) -/
  cfg : s.cfg.wellFormed = true
  /-- OPSEL holds the code of an operation: a reserved value is never kept by a run that goes on (30_encoding.md R81) -/
  opsel : ∃ i, decode s.opsel = .ok i
  /-- the count registers the host writes are CNT_W bits wide (10_state.md R21) -/
  inLen : s.inLen < 2 ^ s.cfg.cntW
  outCap : s.outCap < 2 ^ s.cfg.cntW
  argCap : s.argCap < 2 ^ s.cfg.cntW
  /-- RESULT never counts more than a buffer holds (20_memory.md R56) -/
  result : s.result ≤ max s.cfg.inSize s.cfg.outSize
  /-- 10_state.md R29 -/
  packet : PacketInv s
  /-- the memories -/
  inMem : s.inMem.within s.cfg.inSize
  outMem : s.outMem.within s.cfg.outSize
  pktMem : s.pktMem.within s.cfg.pktSize

/-- The registers an operation reads (the column "reads" of 30_encoding.md R82). -/
def readsOf : Instr → List Reg
  | .encodeData => [.inLen, .outCap]
  | .decodeData => [.inLen, .outCap]
  | .pack => [.argCmd, .argPort]
  | .unpack => [.argByte]
  | .encodePacket => [.pktCmd, .pktPort, .pktLen, .outCap]
  | .decodePacket => [.inLen, .pktCap]
  | .pktInit => [.argCap]
  | .pktReset => []

/-- The registers an operation may write (the column "writes" of 30_encoding.md R82). -/
def writesOf : Instr → List Reg
  | .encodeData => [.result]
  | .decodeData => [.result]
  | .pack => [.resByte]
  | .unpack => [.resCmd, .resPort]
  | .encodePacket => [.result]
  | .decodePacket => [.pktCmd, .pktPort, .pktLen, .pktComplete, .result]
  | .pktInit => [.pktCap, .pktCmd, .pktPort, .pktLen, .pktComplete]
  | .pktReset => [.pktCmd, .pktPort, .pktLen, .pktComplete]

/-- The memory an operation may write (the column "writes" of 30_encoding.md R82; 20_memory.md R50). -/
def writesSpace : Instr → Option Space
  | .encodeData => some .out
  | .decodeData => some .out
  | .pack => none
  | .unpack => none
  | .encodePacket => some .out
  | .decodePacket => some .pkt
  | .pktInit => none
  | .pktReset => none

end Sys2Proof.Machine
end

