-- ==== Sys2Proof/Certificates/Slice0/Obligations.lean ====
section
/-! DEFINITION. The statements for the provers. Each docstring names the rule of spec/ it formalises, and says where a
clause rests on a decision of the spec's own (D<n>) or of the model's (log n). -/

open Sys2Proof Sys2Proof.Machine

/-! ### Encoding -/

/-- The eight OPSEL bytes of 30_encoding.md section 2, and a reserved byte of each kind. The encoding is decision D3. -/
def Obligations.OpselBytesDecode : Prop :=
  decode 0x00#8 = .ok .encodeData ∧ decode 0x01#8 = .ok .decodeData ∧ decode 0x02#8 = .ok .pack ∧
  decode 0x03#8 = .ok .unpack ∧ decode 0x04#8 = .ok .encodePacket ∧ decode 0x05#8 = .ok .decodePacket ∧
  decode 0x06#8 = .ok .pktInit ∧ decode 0x07#8 = .ok .pktReset ∧
  decode 0x08#8 = .error .reservedOp ∧ decode 0x0F#8 = .error .reservedOp ∧
  decode 0x10#8 = .error .reservedOpsel ∧ decode 0x18#8 = .error .reservedOpsel

/-- Decoding and encoding agree in both directions: no bit of the byte is dropped. -/
def Obligations.DecodeEncodeAgree : Prop :=
  (∀ i, i.wellFormed = true ∧ decode (encode i) = .ok i) ∧ ∀ b i, decode b = .ok i → encode i = b

/-- A step runs the decoded operation (10_state.md section 2, decisions D1, D3): the host's OPSEL write of any value whose
low byte decodes sets OPSEL to that byte and is one run of `exec`. That a value above 0xFF counts by its low byte is the
model's reading of 10_state.md section 6 (log 17). `withFetchWord` puts such a write first (log 5). -/
def Obligations.OpselWriteRunsTheDecodedOperation : Prop :=
  (∀ s v rest i, s.pending = .writeReg 0 v :: rest → decode (BitVec.ofNat 8 v) = .ok i →
    step s = exec i { s with pending := rest, opsel := BitVec.ofNat 8 v }) ∧
  ∀ (s : State) w i, decodeTableWord 8 w = some i →
    step (s.withFetchWord 8 w) = exec i { s with opsel := encode i }

/-- A reserved OPSEL value is refused by name, RSV first (30_encoding.md section 2 and 60_exceptions.md section 2, decisions
D3, D18): every value of the host's write falls under exactly one of these two or runs an operation. That a value above
0xFF counts by its low byte is the model's reading of 10_state.md section 6 (log 17). -/
def Obligations.ReservedOpselWriteRefused : Prop :=
  ∀ s v rest, s.pending = .writeReg 0 v :: rest →
    (opselRsv (BitVec.ofNat 8 v) ≠ 0#4 → step s = .refused .reservedOpsel) ∧
    (opselRsv (BitVec.ofNat 8 v) = 0#4 → 8 ≤ (opselOp (BitVec.ofNat 8 v)).toNat → step s = .refused .reservedOp) ∧
    (opselRsv (BitVec.ofNat 8 v) = 0#4 → (opselOp (BitVec.ofNat 8 v)).toNat < 8 →
      ∃ i, decode (BitVec.ofNat 8 v) = .ok i)

/-! ### Reset and the idle core -/

/-- What power-on leaves, for every choice of parameters (10_state.md section 6, decision D15): every register 0, every
byte of every memory unwritten. The model's own fields start empty and 0 (log 5, 6, 7), and State.reset is this state for
the parameters of log 1, 2, 3. -/
def Obligations.PowerOnState : Prop :=
  (∀ c, (State.resetWith c).cfg = c ∧ (∀ r, regRead (State.resetWith c) r = 0) ∧
    (∀ sp a, byteAt (State.resetWith c) sp a = none) ∧ (State.resetWith c).pending = [] ∧
    (State.resetWith c).readData = 0 ∧ (State.resetWith c).powerOn = 0) ∧
  State.reset = State.resetWith Config.chip

/-- Between operations the core is idle and keeps all its state (60_exceptions.md section 4, decision D17; log 5). -/
def Obligations.IdleCoreKeepsItsState : Prop := ∀ s, s.pending = [] → step s = .next s

/-! ### The pure functions of the codec -/

/-- The escape encoder (40_escape_codec.md R100): the table, and each byte by itself with no state between bytes. -/
def Obligations.EscapeEncoderTable : Prop :=
  esc 0xC0#8 = [0xDB#8, 0xDC#8] ∧ esc 0xDB#8 = [0xDB#8, 0xDD#8] ∧
  (∀ b : Byte, b ≠ 0xC0#8 → b ≠ 0xDB#8 → esc b = [b]) ∧
  (∀ b : Byte, escAll [b] = esc b) ∧ ∀ x y, escAll (x ++ y) = escAll x ++ escAll y

/-- The expansion bound and the exact length of an encoding (40_escape_codec.md section 1; the exact length is the spec's
own inference). -/
def Obligations.ExpansionBound : Prop :=
  ∀ x : List Byte, x.length ≤ (escAll x).length ∧ (escAll x).length ≤ 2 * x.length ∧
    (escAll x).length = x.length + x.countP fun b => b == 0xC0#8 || b == 0xDB#8

/-- An encoded payload never contains the frame delimiter (30_encoding.md section 1; the spec's own inference). -/
def Obligations.EncodedPayloadHoldsNoDelimiter : Prop := ∀ x : List Byte, 0xC0#8 ∉ escAll x

/-- The decoder's byte step, the complete table (40_escape_codec.md R105). -/
def Obligations.DecoderByteStepTable : Prop :=
  decStep false 0xDB#8 = (none, true) ∧ decStep true 0xDB#8 = (none, true) ∧
  decStep true 0xDC#8 = (some 0xC0#8, false) ∧ decStep false 0xDC#8 = (some 0xDC#8, false) ∧
  decStep true 0xDD#8 = (some 0xDB#8, false) ∧ decStep false 0xDD#8 = (some 0xDD#8, false) ∧
  ∀ (pend : Bool) (b : Byte), b ≠ 0xDB#8 → b ≠ 0xDC#8 → b ≠ 0xDD#8 → decStep pend b = (some b, false)

/-- PEND (10_state.md R35): initially clear, set by ESC alone, cleared by every other byte, and dropped when it is still
set at the end of the input. -/
def Obligations.PendingEscapeBit : Prop :=
  (∀ x, dec x = decFrom false x) ∧ (∀ pend, (decStep pend 0xDB#8).2 = true) ∧
  (∀ (pend : Bool) (b : Byte), b ≠ 0xDB#8 → (decStep pend b).2 = false) ∧
  ∀ x : List Byte, dec (x ++ [0xDB#8]) = dec x

/-- Malformed and unusual sequences (30_encoding.md R75): each line of the table, wherever it stands at the start of what
is left to decode, and an ESC at the end of the span. -/
def Obligations.MalformedSequencesHaveAFixedMeaning : Prop :=
  (∀ (b : Byte) x, b ≠ 0xDC#8 → b ≠ 0xDD#8 → b ≠ 0xDB#8 → dec (0xDB#8 :: b :: x) = b :: dec x) ∧
  (∀ x, dec (0xDB#8 :: 0xDB#8 :: x) = dec (0xDB#8 :: x)) ∧
  (∀ x : List Byte, dec (x ++ [0xDB#8]) = dec x) ∧
  (∀ x, dec (0xDC#8 :: x) = 0xDC#8 :: dec x) ∧ (∀ x, dec (0xDD#8 :: x) = 0xDD#8 :: dec x) ∧
  ∀ x, dec (0xC0#8 :: x) = 0xC0#8 :: dec x

/-- The closed form of the encoder under both policies (40_escape_codec.md section 1, the spec's own inference): it never
exceeds the capacity; where the expansion fits, both policies write all of it; SPLIT writes a cut expansion and ATOMIC the
expansion of the longest part that fits. -/
def Obligations.EncoderTruncationPolicies : Prop :=
  ∀ (cap : Nat) (x : List Byte),
    (∀ t, (encOut t cap x).length ≤ cap) ∧
    ((escAll x).length ≤ cap → ∀ t, encOut t cap x = escAll x) ∧
    (encOut .split cap x = (escAll x).take cap ∧ (encOut .split cap x).length = min cap (escAll x).length) ∧
    ∃ k ≤ x.length, encOut .atomic cap x = escAll (x.take k) ∧ (escAll (x.take k)).length ≤ cap ∧
      ∀ m ≤ x.length, (escAll (x.take m)).length ≤ cap → m ≤ k

/-- Truncation loses a suffix and never corrupts what is kept (40_escape_codec.md section 3, the spec's own inference):
what the encoder writes under either policy decodes to a prefix of its input. -/
def Obligations.TruncatedEncodingDecodesToAPrefix : Prop :=
  ∀ t cap x, dec (encOut t cap x) <+: x

/-! ### ENCODE_DATA and DECODE_DATA -/

/-- ENCODE_DATA completes (40_escape_codec.md section 1, decisions D3, D7, D15), with `y` the written bytes of
IN_MEM[0..IN_LEN) up to the first unwritten one: when all are written, or when the output fills before an unwritten one is
reached, OUT_MEM takes the closed form of `y` from offset 0, RESULT its length, and nothing else changes. -/
def Obligations.EncodeDataResult : Prop :=
  encode .encodeData = 0x00#8 ∧
  ∀ s y, StateInv s → s.inLen ≤ s.cfg.inSize → s.outCap ≤ s.cfg.outSize → y = writtenRun s .inp 0 s.inLen →
    (y.length = s.inLen ∨ s.outCap ≤ (escAll y).length) →
    exec .encodeData s =
      .next { putBytes s .out 0 (encOut s.cfg.encTrunc s.outCap y) with
                result := (encOut s.cfg.encTrunc s.outCap y).length }

/-- When ENCODE_DATA is refused (60_exceptions.md section 2, decisions D15, D18), in the order of the checks. -/
def Obligations.EncodeDataRefusals : Prop :=
  ∀ s, (s.cfg.inSize < s.inLen → exec .encodeData s = .refused .inputOverrun) ∧
    (s.inLen ≤ s.cfg.inSize → s.cfg.outSize < s.outCap → exec .encodeData s = .refused .outputOverrun) ∧
    (s.inLen ≤ s.cfg.inSize → s.outCap ≤ s.cfg.outSize →
      (writtenRun s .inp 0 s.inLen).length < s.inLen →
      (escAll (writtenRun s .inp 0 s.inLen)).length < s.outCap →
      exec .encodeData s = .refused .unwrittenByte)

/-- With OUT_CAP ≥ 2·IN_LEN, ENCODE_DATA never truncates, under either policy (40_escape_codec.md section 1 and
70_reset_and_hazards.md section 3; the spec's own inference). -/
def Obligations.SizedEncodeNeverTruncates : Prop :=
  ∀ s x, StateInv s → s.inLen ≤ s.cfg.inSize → s.outCap ≤ s.cfg.outSize → 2 * s.inLen ≤ s.outCap →
    x = writtenRun s .inp 0 s.inLen → x.length = s.inLen →
    ∃ t, exec .encodeData s = .next t ∧ t.result = (escAll x).length ∧ writtenRun t .out 0 t.result = escAll x

/-- DECODE_DATA completes (40_escape_codec.md section 2, decisions D3, D15, D16): as for ENCODE_DATA, with the bytes
take(OUT_CAP, Dec(y)). -/
def Obligations.DecodeDataResult : Prop :=
  encode .decodeData = 0x01#8 ∧
  ∀ s y, StateInv s → s.inLen ≤ s.cfg.inSize → s.outCap ≤ s.cfg.outSize → y = writtenRun s .inp 0 s.inLen →
    (y.length = s.inLen ∨ s.outCap ≤ (dec y).length) →
    exec .decodeData s =
      .next { putBytes s .out 0 ((dec y).take s.outCap) with result := min s.outCap (dec y).length }

/-- When DECODE_DATA is refused (60_exceptions.md section 2, decisions D15, D18), in the order of the checks. -/
def Obligations.DecodeDataRefusals : Prop :=
  ∀ s, (s.cfg.inSize < s.inLen → exec .decodeData s = .refused .inputOverrun) ∧
    (s.inLen ≤ s.cfg.inSize → s.cfg.outSize < s.outCap → exec .decodeData s = .refused .outputOverrun) ∧
    (s.inLen ≤ s.cfg.inSize → s.outCap ≤ s.cfg.outSize →
      (writtenRun s .inp 0 s.inLen).length < s.inLen →
      (dec (writtenRun s .inp 0 s.inLen)).length < s.outCap →
      exec .decodeData s = .refused .unwrittenByte)

/-- The round trip (40_escape_codec.md R109): Dec(Esc(x)) = x; and run as operations with buffers large enough,
DECODE_DATA on a copy of what ENCODE_DATA wrote gives back the input and its length. -/
def Obligations.DecodeDataUndoesEncodeData : Prop :=
  (∀ x : List Byte, dec (escAll x) = x) ∧
  ∀ s x, StateInv s → s.inLen ≤ s.cfg.inSize → x = writtenRun s .inp 0 s.inLen → x.length = s.inLen →
    (escAll x).length ≤ s.outCap → s.outCap ≤ s.cfg.outSize →
    ∃ t, exec .encodeData s = .next t ∧ t.result = (escAll x).length ∧
      ∀ u, StateInv u → u.inLen = t.result → u.inLen ≤ u.cfg.inSize →
        (∀ k < t.result, byteAt u .inp k = byteAt t .out k) → x.length ≤ u.outCap → u.outCap ≤ u.cfg.outSize →
        ∃ v, exec .decodeData u = .next v ∧ v.result = x.length ∧ writtenRun v .out 0 v.result = x

/-! ### PACK and UNPACK -/

/-- pack (41_command_codec.md R130): both operands are masked to their low nibble; bit by bit, result[7:4] = p[3:0] and
result[3:0] = c[3:0]; and the conventional Return value 127 packs to 0x0F. -/
def Obligations.PackMasksBothOperands : Prop :=
  (∀ c p : Byte, (packByte c p).toNat = (p.toNat % 16) * 16 + c.toNat % 16 ∧
    (packByte c p).extractLsb' 4 4 = p.extractLsb' 0 4 ∧ (packByte c p).extractLsb' 0 4 = c.extractLsb' 0 4) ∧
  packByte 127#8 0#8 = 0x0F#8

/-- PACK (41_command_codec.md R131): RES_BYTE takes pack(ARG_CMD, ARG_PORT), only RES_BYTE is written, and there is no
refusal, in any state. The OPSEL code is the one the rule's Encoding line gives (decision D3). -/
def Obligations.PackResult : Prop :=
  encode .pack = 0x02#8 ∧
  ∀ s, exec .pack s =
    .next { s with resByte := ((s.argPort &&& 0x0F#8) <<< 4) ||| (s.argCmd &&& 0x0F#8) }

/-- UNPACK (41_command_codec.md R134): RES_CMD takes ARG_BYTE[3:0] and RES_PORT ARG_BYTE[7:4], only they are written, and
there is no refusal, in any state. The OPSEL code is the one the rule's Encoding line gives (decision D3). -/
def Obligations.UnpackResult : Prop :=
  encode .unpack = 0x03#8 ∧
  ∀ s, exec .unpack s =
    .next { s with resCmd := s.argByte.extractLsb' 0 4, resPort := s.argByte.extractLsb' 4 4 }

/-- pack and unpack undo each other (41_command_codec.md section 3, the spec's own inference). -/
def Obligations.PackUnpackInverse : Prop :=
  (∀ c p : Byte, ((unpackByte (packByte c p)).1.toNat, (unpackByte (packByte c p)).2.toNat) =
    (c.toNat % 16, p.toNat % 16)) ∧
  ∀ b : Byte, packByte (zext8 (unpackByte b).1) (zext8 (unpackByte b).2) = b

/-! ### ENCODE_PACKET -/

/-- ENCODE_PACKET completes (42_packet_framer.md section 1, decisions D3, D8): below PKT_LEN + 3 it writes nothing and
RESULT is 0; otherwise, with `y` the written bytes of PKT_MEM[0..PKT_LEN) up to the first unwritten one, the delimiter, the
packed byte, what the encoder writes of `y` with capacity OUT_CAP - 3, and the delimiter go to OUT_MEM from offset 0. -/
def Obligations.EncodePacketResult : Prop :=
  encode .encodePacket = 0x04#8 ∧
  ∀ s, StateInv s → s.outCap ≤ s.cfg.outSize →
    (s.outCap < s.pktLen + 3 → exec .encodePacket s = .next { s with result := 0 }) ∧
    (s.pktLen + 3 ≤ s.outCap → ∀ y f, y = writtenRun s .pkt 0 s.pktLen →
      (y.length = s.pktLen ∨ s.outCap - 3 ≤ (escAll y).length) →
      f = [0xC0#8, packByte (zext8 s.pktCmd) (zext8 s.pktPort)] ++ encOut s.cfg.encTrunc (s.outCap - 3) y ++ [0xC0#8] →
      exec .encodePacket s = .next { putBytes s .out 0 f with result := f.length })

/-- When ENCODE_PACKET is refused (60_exceptions.md section 2, decisions D15, D18). -/
def Obligations.EncodePacketRefusals : Prop :=
  ∀ s, (s.cfg.outSize < s.outCap → exec .encodePacket s = .refused .outputOverrun) ∧
    (StateInv s → s.outCap ≤ s.cfg.outSize → s.pktLen + 3 ≤ s.outCap →
      (writtenRun s .pkt 0 s.pktLen).length < s.pktLen →
      (escAll (writtenRun s .pkt 0 s.pktLen)).length < s.outCap - 3 →
      exec .encodePacket s = .refused .unwrittenByte)

/-- With OUT_CAP ≥ 2·PKT_LEN + 3, ENCODE_PACKET writes exactly Frame(PKT_CMD, PKT_PORT, payload) (30_encoding.md section 1,
42_packet_framer.md section 1; the spec's own inference), 3 bytes more than the encoded payload. -/
def Obligations.SizedFrameIsExact : Prop :=
  ∀ s x, StateInv s → s.outCap ≤ s.cfg.outSize → 2 * s.pktLen + 3 ≤ s.outCap → x = writtenRun s .pkt 0 s.pktLen →
    x.length = s.pktLen →
    ∃ t, exec .encodePacket s = .next t ∧ t.result = 3 + (escAll x).length ∧
      writtenRun t .out 0 t.result = frame s.pktCmd s.pktPort x

/-- ENCODE_PACKET reads the packet register set but writes no part of it, and does not need PKT_COMPLETE = 1
(42_packet_framer.md R154): whatever PKT_COMPLETE holds, it ends the same way. -/
def Obligations.FramerWritesNoPacketState : Prop :=
  ∀ s t, exec .encodePacket s = .next t →
    (t.pktCmd = s.pktCmd ∧ t.pktPort = s.pktPort ∧ t.pktLen = s.pktLen ∧ t.pktCap = s.pktCap ∧
      t.pktComplete = s.pktComplete ∧ t.pktMem = s.pktMem) ∧
    ∀ b, exec .encodePacket { s with pktComplete := b } = .next { t with pktComplete := b }

/-- The FEND command byte (70_reset_and_hazards.md section 3, the spec's own inference): the frame of DataFrame on port 12
does not decode to the packet it was made from. From a buffer that holds it, DECODE_PACKET takes the first byte of the
encoded payload for the command byte, or, when the payload is empty, finds no frame at all. -/
def Obligations.DelimiterCommandByteBreaksTheFrame : Prop :=
  ∀ u x, StateInv u → u.inLen ≤ u.cfg.inSize → writtenRun u .inp 0 u.inLen = frame 0#4 12#4 x →
    (frame 0#4 12#4 x).length = u.inLen →
    (x = [] → ∃ v, exec .decodePacket u = .next v ∧ v.result = 0) ∧
    ∀ b rest, escAll x = b :: rest →
      ∃ v, exec .decodePacket u = .next v ∧ v.result = u.inLen ∧ (v.pktCmd, v.pktPort) = unpackByte b ∧
        v.pktLen = min v.pktCap (dec rest).length

/-! ### DECODE_PACKET -/

/-- The scanner's byte step, complete: every (state, byte class) pair of 43_stream_decoder.md section 2, with its action and its
next state; the test is for 0xC0 only. What each action does is in the statements on DECODE_PACKET. -/
def Obligations.ScannerByteStepTable : Prop :=
  scanStep .hunt 0xC0#8 = (.skip, .seek) ∧ scanStep .seek 0xC0#8 = (.skip, .seek) ∧
  scanStep .inframe 0xC0#8 = (.complete, .trail) ∧ scanStep .trail 0xC0#8 = (.skip, .trail) ∧
  ∀ b : Byte, b ≠ 0xC0#8 →
    scanStep .hunt b = (.skip, .hunt) ∧ scanStep .seek b = (.command, .inframe) ∧
    scanStep .inframe b = (.count, .inframe) ∧ scanStep .trail b = (.stop, .done)

/-- DECODE_PACKET completes with a frame (43_stream_decoder.md sections 2 and 4, decisions D3, D9, D10, D11; the closed
form is the spec's own inference), with `y` the written bytes of IN_MEM[0..IN_LEN) up to the first unwritten one: command
byte at `c`, closing delimiter at `e`, and either all of the buffer is written or the scan stops inside `y`. -/
def Obligations.DecodePacketFindsTheFrame : Prop :=
  encode .decodePacket = 0x05#8 ∧
  ∀ s y c e p, StateInv s → s.inLen ≤ s.cfg.inSize → y = writtenRun s .inp 0 s.inLen →
    commandAt s.cfg.seekMode y = some c → closeAt s.cfg.seekMode y = some e →
    (y.length = s.inLen ∨ (nextAt s.cfg.seekMode y).isSome) →
    p = (dec (slice y (c + 1) e)).take s.pktCap →
    exec .decodePacket s =
      .next { putBytes s .pkt 0 p with
                pktCmd := (y.getD c 0#8).extractLsb' 0 4
                pktPort := (y.getD c 0#8).extractLsb' 4 4
                pktLen := p.length
                pktComplete := true
                result := (nextAt s.cfg.seekMode y).getD s.inLen }

/-- DECODE_PACKET completes with no frame (43_stream_decoder.md sections 2 and 3, decisions D9, D10, D11): RESULT is 0,
PKT_COMPLETE is clear, and nothing else changes but PKT_CMD and PKT_PORT, which a command byte at `c` sets. -/
def Obligations.DecodePacketFindsNoFrame : Prop :=
  ∀ s y, StateInv s → s.inLen ≤ s.cfg.inSize → y = writtenRun s .inp 0 s.inLen → y.length = s.inLen →
    closeAt s.cfg.seekMode y = none →
    (commandAt s.cfg.seekMode y = none →
      exec .decodePacket s = .next { s with pktComplete := false, result := 0 }) ∧
    ∀ c, commandAt s.cfg.seekMode y = some c →
      exec .decodePacket s =
        .next { s with
                  pktCmd := (y.getD c 0#8).extractLsb' 0 4
                  pktPort := (y.getD c 0#8).extractLsb' 4 4
                  pktComplete := false
                  result := 0 }

/-- When DECODE_PACKET is refused (60_exceptions.md section 2, decisions D15, D18): only the bytes it reads count. -/
def Obligations.DecodePacketRefusals : Prop :=
  ∀ s, (s.cfg.inSize < s.inLen → exec .decodePacket s = .refused .inputOverrun) ∧
    (StateInv s → s.inLen ≤ s.cfg.inSize → (writtenRun s .inp 0 s.inLen).length < s.inLen →
      nextAt s.cfg.seekMode (writtenRun s .inp 0 s.inLen) = none →
      exec .decodePacket s = .refused .unwrittenByte)

/-- The postconditions of every DECODE_PACKET (43_stream_decoder.md section 4, the spec's own inference). -/
def Obligations.DecodePacketPostconditions : Prop :=
  ∀ s t, StateInv s → exec .decodePacket s = .next t →
    (t.result ≠ 0 ↔ t.pktComplete = true) ∧ t.result ≤ s.inLen ∧
    (0 < t.result → byteAt s .inp (t.result - 1) = some 0xC0#8) ∧
    (0 < t.result → t.result < s.inLen → ∃ b, byteAt s .inp t.result = some b ∧ b ≠ 0xC0#8) ∧
    t.pktLen ≤ t.pktCap ∧
    (0 < t.result → s.cfg.seekMode = .streamBoundary → 2 ≤ t.result) ∧
    (0 < t.result → s.cfg.seekMode = .bufferDelimiter → 3 ≤ t.result)

/-- The frame round trip (43_stream_decoder.md section 4, the spec's own inference), under both seek modes: from padding, a
frame, padding, and then nothing or a byte that is no delimiter, DECODE_PACKET takes the frame's packet and consumes up to
that byte. -/
def Obligations.FrameRoundTrip : Prop :=
  ∀ s c p x P1 P2 z, StateInv s → s.inLen ≤ s.cfg.inSize → packByte (zext8 c) (zext8 p) ≠ 0xC0#8 →
    (∀ b ∈ P1, b = 0xC0#8) → (∀ b ∈ P2, b = 0xC0#8) → (∀ b, z.head? = some b → b ≠ 0xC0#8) →
    writtenRun s .inp 0 s.inLen = P1 ++ frame c p x ++ P2 ++ z →
    (P1 ++ frame c p x ++ P2 ++ z).length = s.inLen →
    ∃ t, exec .decodePacket s = .next t ∧ t.result = P1.length + (frame c p x).length + P2.length ∧
      t.pktCmd = c ∧ t.pktPort = p ∧ t.pktComplete = true ∧ t.pktLen = (x.take s.pktCap).length ∧
      writtenRun t .pkt 0 t.pktLen = x.take s.pktCap

/-- Partial-data safety (43_stream_decoder.md section 4, the spec's own inference): a call that found a frame finds the same
frame in any longer buffer, consuming more only as trailing padding; a call that found none leaves the buffer as it was. -/
def Obligations.PartialDataSafety : Prop :=
  ∀ s t, StateInv s → exec .decodePacket s = .next t → (writtenRun s .inp 0 s.inLen).length = s.inLen →
    (t.result = 0 → t.inMem = s.inMem ∧ t.inLen = s.inLen) ∧
    (0 < t.result → ∀ s', StateInv s' → s'.cfg = s.cfg → s'.pktCap = s.pktCap → s.inLen ≤ s'.inLen →
      s'.inLen ≤ s'.cfg.inSize → (writtenRun s' .inp 0 s'.inLen).length = s'.inLen →
      (∀ k < s.inLen, byteAt s' .inp k = byteAt s .inp k) →
      ∃ t', exec .decodePacket s' = .next t' ∧ packetOf t' = packetOf t ∧ t'.pktLen = t.pktLen ∧
        t'.pktComplete = true ∧ t.result ≤ t'.result ∧
        (t.result < t'.result → t.result = s.inLen ∧
          ∀ k, t.result ≤ k → k < t'.result → byteAt s' .inp k = some 0xC0#8))

/-- Streams of frames (43_stream_decoder.md section 4, the spec's own inference, decision D9): under STREAM_BOUNDARY, a
stream of frames of any length, cut into chunks anywhere, each of which fits the buffer when it is appended, is decoded by
the host's loop frame by frame, once and in order, and nothing is left over. The chunks fit, for instance, when the whole
stream does, or when a chunk and a frame always fit together. -/
def Obligations.StreamOfFramesIsDecodedInOrder : Prop :=
  ∀ s (fs : List Packet) (chunks : List (List Byte)), StateInv s → s.cfg.seekMode = .streamBoundary → s.inLen = 0 →
    (∀ f ∈ fs, packByte (zext8 f.cmd) (zext8 f.port) ≠ 0xC0#8) → chunks.flatten = streamOf fs →
    (appendsFit chunks s = true → ∃ t, feed chunks s = .next (t, fs.map (Packet.cut s.pktCap)) ∧ t.inLen = 0) ∧
    ((chunks.flatten.length ≤ s.cfg.inSize ∨
      ∀ f ∈ fs, ∀ ch ∈ chunks, (frame f.cmd f.port f.payload).length + ch.length ≤ s.cfg.inSize) →
      appendsFit chunks s = true)

/-! ### PKT_INIT and PKT_RESET -/

/-- PKT_INIT (44_packet_control.md, decisions D3, D4, D28): the capacity is ARG_CAP and the packet is as after PKT_RESET;
PKT_MEM and all else are untouched. A capacity above PKT_SIZE is refused. -/
def Obligations.PktInitResult : Prop :=
  encode .pktInit = 0x06#8 ∧
  ∀ s, (StateInv s → s.argCap ≤ s.cfg.pktSize →
      exec .pktInit s =
        .next { s with pktCap := s.argCap, pktLen := 0, pktCmd := 0#4, pktPort := 0#4, pktComplete := false }) ∧
    (s.cfg.pktSize < s.argCap → exec .pktInit s = .refused .storageOverrun)

/-- PKT_RESET (44_packet_control.md, decisions D3, D12): four packet registers become 0, PKT_CAP, PKT_MEM and all else are
unchanged, and there is no refusal, in any state. -/
def Obligations.PktResetResult : Prop :=
  encode .pktReset = 0x07#8 ∧
  ∀ s, exec .pktReset s = .next { s with pktLen := 0, pktCmd := 0#4, pktPort := 0#4, pktComplete := false }

/-! ### What every operation leaves alone -/

/-- The frame of every operation (30_encoding.md section 2, the column "writes", decisions D3, D22): registers it does not
name keep their values (OPSEL, IN_LEN, OUT_CAP and the ARG_ registers always), memories it does not write keep every byte,
and so do the parameters and the model's own fields. -/
def Obligations.OperationsWriteOnlyWhatTheyName : Prop :=
  ∀ i s t, exec i s = .next t →
    (∀ r, r ∉ writesOf i → regRead t r = regRead s r) ∧
    (∀ sp a, writesSpace i ≠ some sp → byteAt t sp a = byteAt s sp a) ∧
    t.cfg = s.cfg ∧ t.pending = s.pending ∧ t.readData = s.readData ∧ t.powerOn = s.powerOn

/-- Bytes an operation does not write keep their values (20_memory.md section 3, decision D4): OUT_MEM from RESULT on after
the three that fill it, and PKT_MEM from PKT_LEN on after DECODE_PACKET, all of PKT_MEM when no frame completed. -/
def Obligations.BytesBeyondTheCountAreUnchanged : Prop :=
  ∀ s t, StateInv s →
    (∀ i, i = .encodeData ∨ i = .decodeData ∨ i = .encodePacket → exec i s = .next t →
      ∀ sp a, (sp = .out → t.result ≤ a) → byteAt t sp a = byteAt s sp a) ∧
    (exec .decodePacket s = .next t →
      ∀ sp a, (sp = .pkt → t.pktComplete = true → t.pktLen ≤ a) → byteAt t sp a = byteAt s sp a)

/-- Write bounds (20_memory.md R56): OUT_MEM only below OUT_CAP, PKT_MEM only below PKT_CAP, IN_MEM never; and when the
capacity is insufficient the operation returns a partial result rather than failing: with all its input written it ends in
a next state at every capacity its memory can hold. -/
def Obligations.WritesStayBelowTheCapacity : Prop :=
  (∀ i s t, exec i s = .next t → ∀ sp a, byteAt t sp a ≠ byteAt s sp a →
    (sp = .out ∧ a < s.outCap) ∨ (sp = .pkt ∧ a < s.pktCap)) ∧
  ∀ s, StateInv s →
    (s.inLen ≤ s.cfg.inSize → (writtenRun s .inp 0 s.inLen).length = s.inLen →
      (s.outCap ≤ s.cfg.outSize → (∃ t, exec .encodeData s = .next t) ∧ ∃ t, exec .decodeData s = .next t) ∧
      ∃ t, exec .decodePacket s = .next t) ∧
    (s.outCap ≤ s.cfg.outSize → (writtenRun s .pkt 0 s.pktLen).length = s.pktLen →
      ∃ t, exec .encodePacket s = .next t)

/-- An operation depends on no register it does not name (30_encoding.md section 2, the columns "reads" and "writes";
decision D3): with such a register changed it ends the same way, in the same next state but for that register. -/
def Obligations.OperationsIgnoreOtherRegisters : Prop :=
  ∀ i s r v, r ∉ readsOf i → r ∉ writesOf i →
    (∀ t, exec i s = .next t → exec i (regSet s r v) = .next (regSet t r v)) ∧
    (∀ e, exec i s = .refused e → exec i (regSet s r v) = .refused e)

/-- Step bounds (70_reset_and_hazards.md section 3, the spec's own inference; the counting is log 14). -/
def Obligations.ByteStepBounds : Prop :=
  ∀ s k,
    (byteSteps .encodeData s = some k → k.reads ≤ s.inLen ∧ k.writes ≤ min s.outCap (2 * s.inLen)) ∧
    (byteSteps .decodeData s = some k → k.reads ≤ s.inLen ∧ k.writes ≤ min s.outCap s.inLen) ∧
    (∀ i, i = .pack ∨ i = .unpack ∨ i = .pktInit ∨ i = .pktReset → byteSteps i s = some { reads := 0, writes := 0 }) ∧
    (byteSteps .encodePacket s = some k → k.reads ≤ s.pktLen ∧ k.writes ≤ min s.outCap (2 * s.pktLen + 3)) ∧
    (byteSteps .decodePacket s = some k →
      k.reads ≤ s.inLen + (s.inLen - 2) ∧ k.writes ≤ min s.pktCap (s.inLen - 2))

/-- What the host can tell from the results (60_exceptions.md section 2, the spec's own inference): for ENCODE_DATA and
DECODE_DATA whether all of the output is there; for ENCODE_PACKET when no frame was written and when the payload of one was
cut; for DECODE_PACKET when no frame completed and when the payload of one is whole, its span standing at `c + 1` to
`e`. -/
def Obligations.ResultsShowTruncation : Prop :=
  ∀ s t, StateInv s →
    (exec .encodeData s = .next t → (writtenRun s .inp 0 s.inLen).length = s.inLen →
      (t.result < (escAll (writtenRun s .inp 0 s.inLen)).length ↔
        writtenRun t .out 0 t.result ≠ escAll (writtenRun s .inp 0 s.inLen))) ∧
    (exec .decodeData s = .next t → t.result < s.outCap →
      writtenRun t .out 0 t.result = dec (writtenRun s .inp 0 s.inLen)) ∧
    (exec .encodePacket s = .next t →
      (t.result = 0 ↔ s.outCap < s.pktLen + 3) ∧ (t.result = 0 → t.outMem = s.outMem) ∧
      ∀ x, x = writtenRun s .pkt 0 s.pktLen → x.length = s.pktLen → t.result ≠ 0 →
        (t.result < (escAll x).length + 3 ↔ writtenRun t .out 0 t.result ≠ frame s.pktCmd s.pktPort x)) ∧
    (exec .decodePacket s = .next t →
      (t.result = 0 ↔ t.pktComplete = false) ∧
      ∀ y, y = writtenRun s .inp 0 s.inLen → t.pktComplete = true →
        ∃ c e, commandAt s.cfg.seekMode y = some c ∧ closeAt s.cfg.seekMode y = some e ∧
          writtenRun t .pkt 0 t.pktLen = (dec (slice y (c + 1) e)).take s.pktCap ∧
          (t.pktLen < t.pktCap → writtenRun t .pkt 0 t.pktLen = dec (slice y (c + 1) e)))

/-! ### The host's side -/

/-- A host write of a writable register (10_state.md sections 2 and 6, decisions D2, D14, D23): each register but OPSEL,
which starts an operation, and the six read-only ones takes the value's low bits, PKT_LEN only a value up to PKT_CAP and
then all of it, and nothing else changes. -/
def Obligations.HostRegisterWrite : Prop :=
  ∀ s idx r v rest, StateInv s → s.pending = .writeReg idx v :: rest → regOfIndex idx = some r → r ≠ .opsel →
    r ∉ [Reg.result, .resByte, .resCmd, .resPort, .pktCap, .pktComplete] → (r = .pktLen → v ≤ s.pktCap) →
    ∃ t, step s = .next t ∧ regRead t r = v % 2 ^ regWidth s.cfg r ∧ (r = .pktLen → t.pktLen = v) ∧
      (∀ r', r' ≠ r → regRead t r' = regRead s r') ∧ (∀ sp, memOf t sp = memOf s sp) ∧
      t.cfg = s.cfg ∧ t.pending = rest ∧ t.readData = s.readData ∧ t.powerOn = s.powerOn

/-- The host accesses that are refused (60_exceptions.md section 2, decisions D2, D18, D23). -/
def Obligations.HostRegisterRefusals : Prop :=
  (∀ s idx v rest, s.pending = .writeReg idx v :: rest → 15 < idx → step s = .refused .unknownRegister) ∧
  (∀ s idx rest, s.pending = .readReg idx :: rest → 15 < idx → step s = .refused .unknownRegister) ∧
  (∀ s r v rest, s.pending = .writeReg (regIndex r) v :: rest →
    r ∈ [Reg.result, .resByte, .resCmd, .resPort, .pktCap, .pktComplete] → step s = .refused .readOnlyRegister) ∧
  ∀ s v rest, s.pending = .writeReg 13 v :: rest → s.pktCap < v → step s = .refused .packetOverrun

/-- A host read of a register returns what it holds and changes nothing in the core (10_state.md section 2, decision D2;
where the value goes is log 6). -/
def Obligations.HostRegisterRead : Prop :=
  ∀ s idx r rest, s.pending = .readReg idx :: rest → regOfIndex idx = some r →
    step s = .next { s with pending := rest, readData := regRead s r }

/-- The register map (10_state.md section 2, decision D2), line by line: which register stands at each of the sixteen
indices and none above; which part of the state it is; how wide it is, and that it keeps within its width in a state that
satisfies the invariant. The width of ARG_CAP is the model's reading (log 12). -/
def Obligations.RegisterMap : Prop :=
  (regOfIndex 0 = some .opsel ∧ regOfIndex 1 = some .inLen ∧ regOfIndex 2 = some .outCap ∧
    regOfIndex 3 = some .argCmd ∧ regOfIndex 4 = some .argPort ∧ regOfIndex 5 = some .argByte ∧
    regOfIndex 6 = some .argCap ∧ regOfIndex 7 = some .result ∧ regOfIndex 8 = some .resByte ∧
    regOfIndex 9 = some .resCmd ∧ regOfIndex 10 = some .resPort ∧ regOfIndex 11 = some .pktCmd ∧
    regOfIndex 12 = some .pktPort ∧ regOfIndex 13 = some .pktLen ∧ regOfIndex 14 = some .pktCap ∧
    regOfIndex 15 = some .pktComplete) ∧
  (∀ n, 15 < n → regOfIndex n = none) ∧ (∀ r, regOfIndex (regIndex r) = some r) ∧
  (∀ s, regRead s .opsel = s.opsel.toNat ∧ regRead s .inLen = s.inLen ∧ regRead s .outCap = s.outCap ∧
    regRead s .argCmd = s.argCmd.toNat ∧ regRead s .argPort = s.argPort.toNat ∧ regRead s .argByte = s.argByte.toNat ∧
    regRead s .argCap = s.argCap ∧ regRead s .result = s.result ∧ regRead s .resByte = s.resByte.toNat ∧
    regRead s .resCmd = s.resCmd.toNat ∧ regRead s .resPort = s.resPort.toNat ∧ regRead s .pktCmd = s.pktCmd.toNat ∧
    regRead s .pktPort = s.pktPort.toNat ∧ regRead s .pktLen = s.pktLen ∧ regRead s .pktCap = s.pktCap ∧
    regRead s .pktComplete = s.pktComplete.toNat) ∧
  (∀ c, regWidth c .opsel = 8 ∧ regWidth c .inLen = c.cntW ∧ regWidth c .outCap = c.cntW ∧
    regWidth c .argCmd = 8 ∧ regWidth c .argPort = 8 ∧ regWidth c .argByte = 8 ∧ regWidth c .argCap = c.cntW ∧
    regWidth c .result = c.cntW ∧ regWidth c .resByte = 8 ∧ regWidth c .resCmd = 4 ∧ regWidth c .resPort = 4 ∧
    regWidth c .pktCmd = 4 ∧ regWidth c .pktPort = 4 ∧ regWidth c .pktLen = c.cntW ∧ regWidth c .pktCap = c.cntW ∧
    regWidth c .pktComplete = 1) ∧
  ∀ s, StateInv s → ∀ r, regRead s r < 2 ^ regWidth s.cfg r

/-- The host writes memory (30_encoding.md section 3, decision D20): the bytes go to consecutive offsets, every other byte
and every register is unchanged. Beyond the memory's end it is refused, by the model's own refusal (log 9). -/
def Obligations.HostMemoryWrite : Prop :=
  ∀ s sp off bytes rest, s.pending = .writeMem sp off bytes :: rest →
    (bytes = [] ∨ off + bytes.length ≤ spaceSize s.cfg sp →
      ∃ t, step s = .next t ∧ writtenRun t sp off bytes.length = bytes ∧
        (∀ sp' a, (sp' = sp → a < off ∨ off + bytes.length ≤ a) → byteAt t sp' a = byteAt s sp' a) ∧
        (∀ r, regRead t r = regRead s r) ∧ t.cfg = s.cfg ∧ t.pending = rest) ∧
    (bytes ≠ [] → spaceSize s.cfg sp < off + bytes.length → step s = .refused .absentOffset)

/-- The host reads memory (20_memory.md section 2, 10_state.md section 6, decisions D1, D15): unwritten bytes are not
checked; a written byte is read as it stands, an unwritten one gives the free value of its offset (log 7), so that a second
read gives what the first gave; nothing changes but where the value goes (log 6). Beyond the memory's end it is refused, by
the model's own refusal (log 9). -/
def Obligations.HostMemoryRead : Prop :=
  ∀ s sp a rest, s.pending = .readMem sp a :: rest →
    (a < spaceSize s.cfg sp →
      step s = .next { s with pending := rest, readData := (hostByte s sp a).toNat } ∧
      (∀ b, byteAt s sp a = some b → hostByte s sp a = b) ∧
      ∀ t rest', step s = .next t → t.pending = .readMem sp a :: rest' →
        step t = .next { t with pending := rest' }) ∧
    (spaceSize s.cfg sp ≤ a → step s = .refused .absentOffset)

/-- `shift IN, k` (30_encoding.md section 3, decisions D20, D29): the bytes from k on move to the front, IN_LEN shrinks by
k, and every byte from IN_LEN - k on, every other register and every other memory is unchanged. Of the bytes that move, the
written ones are said to arrive (an unwritten one is log 7). Bytes that do not exist and a k above IN_LEN are refused, by the
model's own refusals (log 9, 10). -/
def Obligations.HostShift : Prop :=
  ∀ s k rest, StateInv s → s.pending = .shift k :: rest →
    (shiftCount s k ≤ s.inLen → s.inLen ≤ s.cfg.inSize ∨ shiftCount s k = s.inLen →
      ∃ t, step s = .next t ∧ t.inLen = s.inLen - shiftCount s k ∧
        (∀ d b, d + shiftCount s k < s.inLen → byteAt s .inp (d + shiftCount s k) = some b →
          byteAt t .inp d = some b) ∧
        (∀ a, s.inLen - shiftCount s k ≤ a → byteAt t .inp a = byteAt s .inp a) ∧
        (∀ r, r ≠ .inLen → regRead t r = regRead s r) ∧ t.outMem = s.outMem ∧ t.pktMem = s.pktMem ∧
        t.cfg = s.cfg ∧ t.pending = rest) ∧
    (shiftCount s k < s.inLen → s.cfg.inSize < s.inLen → step s = .refused .absentOffset) ∧
    (s.inLen < shiftCount s k → step s = .refused .shiftPastLength)

/-- `append IN, [..]` (30_encoding.md section 3, decisions D20, D29): the bytes go right after the buffer and IN_LEN grows
by their count; nothing else changes. Bytes that do not fit are refused, by the model's own refusal (log 9). -/
def Obligations.HostAppend : Prop :=
  ∀ s bytes rest, StateInv s → s.pending = .append bytes :: rest →
    (bytes = [] ∨ s.inLen + bytes.length ≤ s.cfg.inSize →
      ∃ t, step s = .next t ∧ t.inLen = s.inLen + bytes.length ∧ writtenRun t .inp s.inLen bytes.length = bytes ∧
        (∀ sp a, (sp = .inp → a < s.inLen ∨ s.inLen + bytes.length ≤ a) → byteAt t sp a = byteAt s sp a) ∧
        (∀ r, r ≠ .inLen → regRead t r = regRead s r) ∧ t.cfg = s.cfg ∧ t.pending = rest) ∧
    (bytes ≠ [] → s.cfg.inSize < s.inLen + bytes.length → step s = .refused .absentOffset)

/-! ### Invariants -/

/-- The packet invariant (10_state.md R29): it holds at power-on, no step breaks it, and the two host actions that would
break it are refused. -/
def Obligations.PacketInvariantAtAllTimes : Prop :=
  (∀ c, PacketInv (State.resetWith c)) ∧ (∀ s t, PacketInv s → step s = .next t → PacketInv t) ∧
  (∀ s v rest, s.pending = .writeReg 13 v :: rest → s.pktCap < v → step s = .refused .packetOverrun) ∧
  (∀ s, s.cfg.pktSize < s.argCap → exec .pktInit s = .refused .storageOverrun) ∧
  ∀ s t, exec .decodePacket s = .next t → t.pktComplete = true → t.pktLen ≤ s.pktCap

/-- The invariant holds at power-on, for every well-formed choice of parameters, the model's own among them. -/
def Obligations.PowerOnSatisfiesTheInvariant : Prop :=
  (∀ c, c.wellFormed = true → StateInv (State.resetWith c)) ∧ Config.chip.wellFormed = true ∧ StateInv State.reset

/-- Every step keeps the invariant: widths, the packet invariant, legal OPSEL, RESULT within a buffer, and the canonical
form and the bounds of the three memories. -/
def Obligations.EveryStepKeepsTheInvariant : Prop := ∀ s t, StateInv s → step s = .next t → StateInv t

/-- Only PKT_INIT changes PKT_CAP, and nothing changes the parameters (44_packet_control.md, decision D28;
00_scope.md section 3). -/
def Obligations.OnlyPktInitChangesTheCapacity : Prop :=
  ∀ s t, step s = .next t →
    t.cfg = s.cfg ∧
    (t.pktCap ≠ s.pktCap →
      ∃ v rest, s.pending = .writeReg 0 v :: rest ∧ decode (BitVec.ofNat 8 v) = .ok .pktInit)

/-- Only DECODE_PACKET sets PKT_COMPLETE, and only PKT_INIT, PKT_RESET and DECODE_PACKET clear it (10_state.md section 3,
decisions D11, D12). -/
def Obligations.OnlyPacketOperationsChangeComplete : Prop :=
  ∀ s t, step s = .next t → t.pktComplete ≠ s.pktComplete →
    ∃ v rest i, s.pending = .writeReg 0 v :: rest ∧ decode (BitVec.ofNat 8 v) = .ok i ∧
      (i = .decodePacket ∨ (t.pktComplete = false ∧ (i = .pktInit ∨ i = .pktReset)))

/-! ### Added after the review -/

/-- Streams of frames under BUFFER_DELIMITER (43_stream_decoder.md section 4, the spec's own inference, decision D9): the
call that decodes a frame consumes the next frame's opening delimiter, so that every second frame is lost. It needs that
delimiter in the buffer, so no chunk may end exactly at the end of a frame that is decoded, but the stream's last (log 21);
otherwise the chunks may be cut anywhere. -/
def Obligations.BufferDelimiterLosesEverySecondFrame : Prop :=
  ∀ s (fs : List Packet) (chunks : List (List Byte)), StateInv s → s.cfg.seekMode = .bufferDelimiter → s.inLen = 0 →
    (∀ f ∈ fs, packByte (zext8 f.cmd) (zext8 f.port) ≠ 0xC0#8) → chunks.flatten = streamOf fs →
    (∀ n i, (chunks.take n).flatten = streamOf (fs.take (2 * i + 1)) → fs.length ≤ 2 * i + 1) →
    appendsFit chunks s = true →
    ∃ t, feed chunks s = .next (t, (everySecond fs).map (Packet.cut s.pktCap))

/-- The core raises no exception, and a step ends in a next state or a refusal (60_exceptions.md sections 1 and 2, decision
D18): no step faults from a state that keeps the packet invariant. The model's one fault is log 9. -/
def Obligations.NoStepFaults : Prop := ∀ s e, PacketInv s → step s ≠ .fault e
end

