-- ==== Sys2Proof/Laws/State.lean ====
section
/-! SUPPORT. The small lemmas of the state: what each register and memory update is, and what it leaves alone. -/

namespace Sys2Proof.Machine

section
variable (s : State) (v : Nat)

@[simp] theorem regSet_opsel : regSet s .opsel v = { s with opsel := BitVec.ofNat 8 v } := rfl
@[simp] theorem regSet_inLen : regSet s .inLen v = { s with inLen := toCount s.cfg v } := rfl
@[simp] theorem regSet_outCap : regSet s .outCap v = { s with outCap := toCount s.cfg v } := rfl
@[simp] theorem regSet_argCmd : regSet s .argCmd v = { s with argCmd := BitVec.ofNat 8 v } := rfl
@[simp] theorem regSet_argPort : regSet s .argPort v = { s with argPort := BitVec.ofNat 8 v } := rfl
@[simp] theorem regSet_argByte : regSet s .argByte v = { s with argByte := BitVec.ofNat 8 v } := rfl
@[simp] theorem regSet_argCap : regSet s .argCap v = { s with argCap := toCount s.cfg v } := rfl
@[simp] theorem regSet_result : regSet s .result v = { s with result := toCount s.cfg v } := rfl
@[simp] theorem regSet_resByte : regSet s .resByte v = { s with resByte := BitVec.ofNat 8 v } := rfl
@[simp] theorem regSet_resCmd : regSet s .resCmd v = { s with resCmd := BitVec.ofNat 4 v } := rfl
@[simp] theorem regSet_resPort : regSet s .resPort v = { s with resPort := BitVec.ofNat 4 v } := rfl
@[simp] theorem regSet_pktCmd : regSet s .pktCmd v = { s with pktCmd := BitVec.ofNat 4 v } := rfl
@[simp] theorem regSet_pktPort : regSet s .pktPort v = { s with pktPort := BitVec.ofNat 4 v } := rfl
@[simp] theorem regSet_pktLen : regSet s .pktLen v = { s with pktLen := toCount s.cfg v } := rfl
@[simp] theorem regSet_pktCap : regSet s .pktCap v = { s with pktCap := toCount s.cfg v } := rfl
@[simp] theorem regSet_pktComplete : regSet s .pktComplete v = { s with pktComplete := v % 2 == 1 } := rfl

variable (r : Reg)

@[simp] theorem regSet_keeps_cfg : (regSet s r v).cfg = s.cfg := by cases r <;> rfl
@[simp] theorem regSet_keeps_inMem : (regSet s r v).inMem = s.inMem := by cases r <;> rfl
@[simp] theorem regSet_keeps_outMem : (regSet s r v).outMem = s.outMem := by cases r <;> rfl
@[simp] theorem regSet_keeps_pktMem : (regSet s r v).pktMem = s.pktMem := by cases r <;> rfl
@[simp] theorem regSet_keeps_pending : (regSet s r v).pending = s.pending := by cases r <;> rfl
@[simp] theorem regSet_keeps_readData : (regSet s r v).readData = s.readData := by cases r <;> rfl
@[simp] theorem regSet_keeps_powerOn : (regSet s r v).powerOn = s.powerOn := by cases r <;> rfl

@[simp] theorem regSet_keeps_memOf (sp : Space) : memOf (regSet s r v) sp = memOf s sp := by
  cases sp <;> simp [memOf]

@[simp] theorem regSet_keeps_byteAt (sp : Space) (a : Nat) : byteAt (regSet s r v) sp a = byteAt s sp a := by
  simp [byteAt]

/-- A register reads back what was written, cut to its width. -/
theorem regRead_regSet_same : regRead (regSet s r v) r = v % 2 ^ regWidth s.cfg r := by
  cases r
  case pktComplete =>
    simp only [regSet_pktComplete, regRead, regWidth, Nat.pow_one]
    rcases Nat.mod_two_eq_zero_or_one v with h | h <;> simp [h]
  all_goals simp [regRead, regWidth, toCount]

/-- Writing one register leaves the others alone. -/
theorem regRead_regSet_other {r r' : Reg} (h : r' ≠ r) : regRead (regSet s r v) r' = regRead s r' := by
  cases r <;> cases r' <;> first | rfl | exact absurd rfl h

end

section
variable (s : State) (m : Memory)

@[simp] theorem setMem_inp : setMem s .inp m = { s with inMem := m } := rfl
@[simp] theorem setMem_out : setMem s .out m = { s with outMem := m } := rfl
@[simp] theorem setMem_pkt : setMem s .pkt m = { s with pktMem := m } := rfl
@[simp] theorem memOf_inp : memOf s .inp = s.inMem := rfl
@[simp] theorem memOf_out : memOf s .out = s.outMem := rfl
@[simp] theorem memOf_pkt : memOf s .pkt = s.pktMem := rfl

@[simp] theorem setMem_keeps_cfg (sp : Space) : (setMem s sp m).cfg = s.cfg := by cases sp <;> rfl

@[simp] theorem regRead_setMem (sp : Space) (r : Reg) : regRead (setMem s sp m) r = regRead s r := by
  cases sp <;> cases r <;> rfl

@[simp] theorem memOf_setMem_same (sp : Space) : memOf (setMem s sp m) sp = m := by cases sp <;> rfl

theorem memOf_setMem_other {sp sp' : Space} (h : sp' ≠ sp) : memOf (setMem s sp m) sp' = memOf s sp' := by
  cases sp <;> cases sp' <;> first | rfl | exact absurd rfl h

end

end Sys2Proof.Machine
end

