-- ==== Sys2Proof/Laws/Memory.lean ====
section
/-! SUPPORT. Memory: a read after a write, and the canonical form, which every memory operation keeps. -/

namespace Sys2Proof.Machine

theorem Memory.read_write_same (m : Memory) (a : Nat) (v : Byte) :
    Memory.read (Memory.write m a v) a = some v := by
  induction m with
  | nil => simp [Memory.write, Memory.read]
  | cons c m ih =>
    obtain ⟨k, w⟩ := c
    simp only [Memory.write]
    split
    · simp [Memory.read]
    · split
      · simp [Memory.read]
      · rename_i h1 h2
        simp [Memory.read, Ne.symm h2, ih]

theorem Memory.read_write_other (m : Memory) {a b : Nat} (v : Byte) (h : b ≠ a) :
    Memory.read (Memory.write m a v) b = Memory.read m b := by
  induction m with
  | nil => simp [Memory.write, Memory.read, Ne.symm h]
  | cons c m ih =>
    obtain ⟨k, w⟩ := c
    simp only [Memory.write]
    split
    · simp [Memory.read, Ne.symm h]
    · split
      · rename_i h1 h2
        subst h2
        simp [Memory.read, Ne.symm h]
      · simp only [Memory.read, ih]

/-- The keys of a written memory: the old ones and the one written. -/
theorem Memory.mem_write {m : Memory} {a : Nat} {v : Byte} {c : Host.Cell} (h : c ∈ Memory.write m a v) :
    c = (a, v) ∨ c ∈ m := by
  induction m with
  | nil => simpa [Memory.write] using h
  | cons d m ih =>
    obtain ⟨k, w⟩ := d
    simp only [Memory.write] at h
    split at h
    · simpa using h
    · split at h
      · rcases List.mem_cons.1 h with h | h
        · exact .inl h
        · exact .inr (List.mem_cons_of_mem _ h)
      · rcases List.mem_cons.1 h with h | h
        · exact .inr (h ▸ List.mem_cons_self)
        · exact (ih h).imp_right (List.mem_cons_of_mem _)

/-- A write keeps the canonical form. -/
theorem Memory.wf_write {m : Memory} (h : m.wf) (a : Nat) (v : Byte) : (Memory.write m a v).wf := by
  induction m with
  | nil => simp [Memory.write, Memory.wf]
  | cons d m ih =>
    obtain ⟨k, w⟩ := d
    obtain ⟨hk, hm⟩ := List.pairwise_cons.1 h
    simp only [Memory.write]
    split
    · rename_i hlt
      refine List.pairwise_cons.2 ⟨fun c hc => ?_, h⟩
      rcases List.mem_cons.1 hc with rfl | hc
      · exact hlt
      · exact Nat.lt_trans hlt (hk c hc)
    · split
      · rename_i heq
        subst heq
        exact List.pairwise_cons.2 ⟨hk, hm⟩
      · rename_i h1 h2
        refine List.pairwise_cons.2 ⟨fun c hc => ?_, ih hm⟩
        rcases Memory.mem_write hc with rfl | hc
        · exact Nat.lt_of_le_of_ne (Nat.le_of_not_lt h1) (Ne.symm h2)
        · exact hk c hc

/-- A write below the size keeps a memory within it. -/
theorem Memory.within_write {m : Memory} {size a : Nat} (h : m.within size) (ha : a < size) (v : Byte) :
    (Memory.write m a v).within size :=
  ⟨Memory.wf_write h.1 a v, fun c hc => by
    rcases Memory.mem_write hc with rfl | hc
    · exact ha
    · exact h.2 c hc⟩

/-- A byte that can be read is listed. -/
theorem Memory.mem_of_read {m : Memory} {a : Nat} {v : Byte} (h : Memory.read m a = some v) : (a, v) ∈ m := by
  induction m with
  | nil => simp [Memory.read] at h
  | cons d m ih =>
    obtain ⟨k, w⟩ := d
    simp only [Memory.read] at h
    split at h
    · rename_i hk
      subst hk
      simp_all
    · exact List.mem_cons_of_mem _ (ih h)

/-- Nothing is written at or above the size. -/
theorem Memory.lt_of_read {m : Memory} {size a : Nat} {v : Byte} (h : m.within size)
    (hr : Memory.read m a = some v) : a < size := h.2 _ (Memory.mem_of_read hr)

/-! ### One byte of a space -/

@[simp] theorem byteAt_putByte_same (s : State) (sp : Space) (a : Nat) (v : Byte) :
    byteAt (putByte s sp a v) sp a = some v := by
  simp [byteAt, putByte, Memory.read_write_same]

theorem byteAt_putByte_other (s : State) {sp sp' : Space} {a b : Nat} (v : Byte) (h : sp' ≠ sp ∨ b ≠ a) :
    byteAt (putByte s sp a v) sp' b = byteAt s sp' b := by
  by_cases hs : sp' = sp
  · subst hs
    have hb : b ≠ a := by tauto
    simp [byteAt, putByte, Memory.read_write_other _ _ hb]
  · simp [byteAt, putByte, memOf_setMem_other _ _ hs]

@[simp] theorem putByte_keeps_cfg (s : State) (sp : Space) (a : Nat) (v : Byte) :
    (putByte s sp a v).cfg = s.cfg := by simp [putByte]

@[simp] theorem regRead_putByte (s : State) (sp : Space) (a : Nat) (v : Byte) (r : Reg) :
    regRead (putByte s sp a v) r = regRead s r := by simp [putByte]

theorem regSet_putByte (s : State) (sp : Space) (a : Nat) (b : Byte) (r : Reg) (v : Nat) :
    regSet (putByte s sp a b) r v = putByte (regSet s r v) sp a b := by
  cases sp <;> cases r <;> rfl

/-! ### Bytes of a space -/

@[simp] theorem putBytes_nil (s : State) (sp : Space) (a : Nat) : putBytes s sp a [] = s := rfl

@[simp] theorem putBytes_cons (s : State) (sp : Space) (a : Nat) (v : Byte) (vs : List Byte) :
    putBytes s sp a (v :: vs) = putBytes (putByte s sp a v) sp (a + 1) vs := rfl

theorem putBytes_append (s : State) (sp : Space) (a : Nat) (xs ys : List Byte) :
    putBytes s sp a (xs ++ ys) = putBytes (putBytes s sp a xs) sp (a + xs.length) ys := by
  induction xs generalizing s a with
  | nil => rfl
  | cons v vs ih => simp [ih, Nat.add_assoc, Nat.add_comm 1]

@[simp] theorem putBytes_keeps_cfg (s : State) (sp : Space) (a : Nat) (vs : List Byte) :
    (putBytes s sp a vs).cfg = s.cfg := by
  induction vs generalizing s a with
  | nil => rfl
  | cons v vs ih => simp [ih]

@[simp] theorem regRead_putBytes (s : State) (sp : Space) (a : Nat) (vs : List Byte) (r : Reg) :
    regRead (putBytes s sp a vs) r = regRead s r := by
  induction vs generalizing s a with
  | nil => rfl
  | cons v vs ih => simp [ih]

theorem regSet_putBytes (s : State) (sp : Space) (a : Nat) (vs : List Byte) (r : Reg) (v : Nat) :
    regSet (putBytes s sp a vs) r v = putBytes (regSet s r v) sp a vs := by
  induction vs generalizing s a with
  | nil => rfl
  | cons b vs ih => simp [ih, regSet_putByte]

/-- A byte outside the stored ones reads as before. -/
theorem byteAt_putBytes_other (s : State) {sp sp' : Space} {a b : Nat} (vs : List Byte)
    (h : sp' ≠ sp ∨ b < a ∨ a + vs.length ≤ b) : byteAt (putBytes s sp a vs) sp' b = byteAt s sp' b := by
  induction vs generalizing s a with
  | nil => rfl
  | cons v vs ih =>
    simp only [List.length_cons] at h
    have h1 : sp' ≠ sp ∨ b < a + 1 ∨ a + 1 + vs.length ≤ b := h.imp_right (by omega)
    have h2 : sp' ≠ sp ∨ b ≠ a := h.imp_right (by omega)
    rw [putBytes_cons, ih _ h1, byteAt_putByte_other _ _ h2]

/-- A stored byte reads as stored. -/
theorem byteAt_putBytes_same (s : State) (sp : Space) (a : Nat) (vs : List Byte) {k : Nat} (hk : k < vs.length) :
    byteAt (putBytes s sp a vs) sp (a + k) = some vs[k] := by
  induction vs generalizing s a k with
  | nil => simp at hk
  | cons v vs ih =>
    cases k with
    | zero =>
      rw [putBytes_cons, byteAt_putBytes_other _ _ (.inr (by omega))]
      simp
    | succ k =>
      have := ih (putByte s sp a v) (a + 1) (k := k) (by simpa using hk)
      rw [putBytes_cons, show a + (k + 1) = a + 1 + k by omega, this]
      rfl

/-! ### The accesses of the core -/

@[simp] theorem andThen_next {α β : Type} (a : α) (f : α → Res β) : andThen (.next a) f = f a := rfl
@[simp] theorem andThen_fault {α β : Type} (e : Fault) (f : α → Res β) : andThen (.fault e : Res α) f = .fault e := rfl
@[simp] theorem andThen_refused {α β : Type} (e : Refusal) (f : α → Res β) :
    andThen (.refused e : Res α) f = .refused e := rfl

/-- What a sequence that ends has done. -/
theorem andThen_eq_next {α β : Type} {r : Res α} {f : α → Res β} {b : β} :
    andThen r f = .next b ↔ ∃ a, r = .next a ∧ f a = .next b := by
  cases r <;> simp

/-- MemRead answers exactly the byte that stands written below the size. -/
theorem memRead_eq_next {s : State} {sp : Space} {a : Nat} {b : Byte} :
    memRead s sp a = .next b ↔ a < spaceSize s.cfg sp ∧ byteAt s sp a = some b := by
  unfold memRead refuse
  split
  · split <;> simp_all
  · simp_all

theorem memRead_unwritten {s : State} {sp : Space} {a : Nat} (h : a < spaceSize s.cfg sp)
    (hb : byteAt s sp a = none) : memRead s sp a = .refused .unwrittenByte := by
  simp [memRead, h, hb, refuse]

/-- MemWrite puts the byte below the size. -/
theorem memWrite_eq_next {s t : State} {sp : Space} {a : Nat} {v : Byte} :
    memWrite s sp a v = .next t ↔ a < spaceSize s.cfg sp ∧ t = putByte s sp a v := by
  unfold memWrite
  split
  · simp_all [eq_comm]
  · simp_all

theorem memWrite_below {s : State} {sp : Space} {a : Nat} (v : Byte) (h : a < spaceSize s.cfg sp) :
    memWrite s sp a v = .next (putByte s sp a v) := memWrite_eq_next.2 ⟨h, rfl⟩

/-- Writing bytes puts them, when they all lie below the size. -/
theorem memWriteList_below {s : State} {sp : Space} {a : Nat} (vs : List Byte)
    (h : vs = [] ∨ a + vs.length ≤ spaceSize s.cfg sp) : memWriteList s sp a vs = .next (putBytes s sp a vs) := by
  induction vs generalizing s a with
  | nil => rfl
  | cons v vs ih =>
    have h' : a + (vs.length + 1) ≤ spaceSize s.cfg sp := by simpa using h
    rw [memWriteList, memWrite_below v (by omega), andThen_next, ih (.inr (by simp; omega)), putBytes_cons]

/-- Writing bytes ends only so. -/
theorem memWriteList_eq_next {s t : State} {sp : Space} {a : Nat} {vs : List Byte} :
    memWriteList s sp a vs = .next t ↔
      (vs = [] ∨ a + vs.length ≤ spaceSize s.cfg sp) ∧ t = putBytes s sp a vs := by
  constructor
  · intro h
    have key : vs = [] ∨ a + vs.length ≤ spaceSize s.cfg sp := by
      induction vs generalizing s a with
      | nil => exact .inl rfl
      | cons v vs ih =>
        obtain ⟨s', h1, h2⟩ := andThen_eq_next.1 h
        obtain ⟨ha, rfl⟩ := memWrite_eq_next.1 h1
        rcases ih h2 with rfl | h3
        · exact .inr (by simpa using ha)
        · exact .inr (by simp at h3 ⊢; omega)
    refine ⟨key, ?_⟩
    rw [memWriteList_below vs key] at h
    simpa [eq_comm] using h
  · rintro ⟨h, rfl⟩
    exact memWriteList_below vs h

/-! ### The host's accesses -/

/-- Everything a host read of a byte can do. -/
theorem hostReadByte_eq_next {s : State} {sp : Space} {a : Nat} {b : Byte} :
    hostReadByte s sp a = .next b ↔ a < spaceSize s.cfg sp ∧ b = hostByte s sp a := by
  unfold hostReadByte refuse
  split <;> simp_all [eq_comm]

/-- A written byte is what the host reads. -/
theorem hostByte_written {s : State} {sp : Space} {a : Nat} {b : Byte} (h : byteAt s sp a = some b) :
    hostByte s sp a = b := by
  rw [hostByte, h]
  rfl

/-- Everything a host write of bytes can do. -/
theorem hostWriteBytes_eq_next {s t : State} {sp : Space} {a : Nat} {vs : List Byte} :
    hostWriteBytes s sp a vs = .next t ↔
      (vs = [] ∨ a + vs.length ≤ spaceSize s.cfg sp) ∧ t = putBytes s sp a vs := by
  unfold hostWriteBytes refuse
  split <;> simp_all [eq_comm]

theorem hostWriteBytes_absent {s : State} {sp : Space} {a : Nat} {vs : List Byte} (hne : vs ≠ [])
    (h : spaceSize s.cfg sp < a + vs.length) : hostWriteBytes s sp a vs = .refused .absentOffset :=
  if_neg (by simp [hne, h])

/-! ### What a write leaves of the state -/

/-- Putting bytes in IN_MEM changes IN_MEM alone. -/
theorem putBytes_inp (s : State) (a : Nat) (vs : List Byte) :
    putBytes s .inp a vs = { s with inMem := (putBytes s .inp a vs).inMem } := by
  induction vs generalizing s a with
  | nil => rfl
  | cons v vs ih => rw [putBytes_cons, ih]; rfl

/-- Putting bytes in OUT_MEM changes OUT_MEM alone. -/
theorem putBytes_out (s : State) (a : Nat) (vs : List Byte) :
    putBytes s .out a vs = { s with outMem := (putBytes s .out a vs).outMem } := by
  induction vs generalizing s a with
  | nil => rfl
  | cons v vs ih => rw [putBytes_cons, ih]; rfl

/-- Putting bytes in PKT_MEM changes PKT_MEM alone. -/
theorem putBytes_pkt (s : State) (a : Nat) (vs : List Byte) :
    putBytes s .pkt a vs = { s with pktMem := (putBytes s .pkt a vs).pktMem } := by
  induction vs generalizing s a with
  | nil => rfl
  | cons v vs ih => rw [putBytes_cons, ih]; rfl

/-- What PKT_MEM becomes depends on PKT_MEM alone. -/
theorem putBytes_pktMem_congr {s t : State} (h : s.pktMem = t.pktMem) (a : Nat) (vs : List Byte) :
    (putBytes s .pkt a vs).pktMem = (putBytes t .pkt a vs).pktMem := by
  induction vs generalizing s t a with
  | nil => exact h
  | cons v vs ih => rw [putBytes_cons, putBytes_cons]; exact ih (by simp [putByte, h]) _

/-! ### The canonical form of all three memories -/

/-- The three memories are canonical and inside their spaces. -/
def MemsWithin (s : State) : Prop := ∀ sp, (memOf s sp).within (spaceSize s.cfg sp)

theorem memsWithin_reset (c : Config) : MemsWithin (State.resetWith c) := fun sp => by
  cases sp <;> exact ⟨.nil, fun _ h => absurd h List.not_mem_nil⟩

theorem StateInv.memsWithin {s : State} (h : StateInv s) : MemsWithin s := fun sp => by
  cases sp
  · exact h.inMem
  · exact h.outMem
  · exact h.pktMem

theorem memsWithin_regSet {s : State} (h : MemsWithin s) (r : Reg) (v : Nat) : MemsWithin (regSet s r v) := fun sp => by
  rw [regSet_keeps_memOf, regSet_keeps_cfg]
  exact h sp

theorem memsWithin_putByte {s : State} (h : MemsWithin s) {sp : Space} {a : Nat} (ha : a < spaceSize s.cfg sp)
    (v : Byte) : MemsWithin (putByte s sp a v) := fun sp' => by
  rw [putByte_keeps_cfg]
  by_cases hs : sp' = sp
  · subst hs
    rw [putByte, memOf_setMem_same]
    exact Memory.within_write (h sp') ha v
  · rw [putByte, memOf_setMem_other _ _ hs]
    exact h sp'

/-- Every memory operation keeps the canonical form. -/
theorem memsWithin_putBytes {s : State} (h : MemsWithin s) {sp : Space} (vs : List Byte) {a : Nat}
    (ha : vs = [] ∨ a + vs.length ≤ spaceSize s.cfg sp) : MemsWithin (putBytes s sp a vs) := by
  induction vs generalizing s a with
  | nil => exact h
  | cons v vs ih =>
    simp only [List.length_cons, reduceCtorEq, false_or] at ha
    exact ih (memsWithin_putByte h (by omega) v) (.inr (by rw [putByte_keeps_cfg]; omega))

/-- A host write keeps the canonical form. -/
theorem memsWithin_hostWriteBytes {s t : State} (h : MemsWithin s) {sp : Space} {a : Nat} {vs : List Byte}
    (hw : hostWriteBytes s sp a vs = .next t) : MemsWithin t := by
  obtain ⟨ha, rfl⟩ := hostWriteBytes_eq_next.1 hw
  exact memsWithin_putBytes h vs ha

theorem memsWithin_memWriteList {s t : State} (h : MemsWithin s) {sp : Space} {a : Nat} {vs : List Byte}
    (hw : memWriteList s sp a vs = .next t) : MemsWithin t := by
  obtain ⟨ha, rfl⟩ := memWriteList_eq_next.1 hw
  exact memsWithin_putBytes h vs ha

end Sys2Proof.Machine
end

