-- ==== Sys2Proof/Laws/Codec.lean ====
section
/-! SUPPORT. The escape encoder and decoder: what their pure functions are, and, for each of the two units, one lemma that
says everything a run of it can do. -/

namespace Sys2Proof.Machine

/-! ### Written runs -/

@[simp] theorem writtenRun_zero (s : State) (sp : Space) (a : Nat) : writtenRun s sp a 0 = [] := rfl

theorem writtenRun_some {s : State} {sp : Space} {a : Nat} {b : Byte} (n : Nat) (h : byteAt s sp a = some b) :
    writtenRun s sp a (n + 1) = b :: writtenRun s sp (a + 1) n := by simp [writtenRun, h]

theorem writtenRun_none {s : State} {sp : Space} {a : Nat} (n : Nat) (h : byteAt s sp a = none) :
    writtenRun s sp a (n + 1) = [] := by simp [writtenRun, h]

theorem writtenRun_length_le (s : State) (sp : Space) (a n : Nat) : (writtenRun s sp a n).length ≤ n := by
  induction n generalizing a with
  | zero => simp
  | succ n ih =>
    cases h : byteAt s sp a with
    | none => simp [writtenRun_none n h]
    | some b => simpa [writtenRun_some n h] using ih (a + 1)

/-- The run depends on the bytes alone. -/
theorem writtenRun_congr {s t : State} {sp sp' : Space} {a a' : Nat} (n : Nat)
    (h : ∀ k < n, byteAt s sp (a + k) = byteAt t sp' (a' + k)) : writtenRun s sp a n = writtenRun t sp' a' n := by
  induction n generalizing a a' with
  | zero => rfl
  | succ n ih =>
    have h0 := h 0 (Nat.succ_pos n)
    have hs := ih (a := a + 1) (a' := a' + 1) fun k hk => by
      simpa [Nat.add_assoc, Nat.add_comm 1] using h (k + 1) (Nat.succ_lt_succ hk)
    simp only [Nat.add_zero] at h0
    simp only [writtenRun, h0, hs]

/-- The run lists the bytes at its offsets. -/
theorem byteAt_of_writtenRun {s : State} {sp : Space} {a n k : Nat} (hk : k < (writtenRun s sp a n).length) :
    byteAt s sp (a + k) = some (writtenRun s sp a n)[k] := by
  induction n generalizing a k with
  | zero => simp at hk
  | succ n ih =>
    cases h : byteAt s sp a with
    | none => simp [writtenRun_none n h] at hk
    | some b =>
      cases k with
      | zero => simp [writtenRun_some n h, h]
      | succ k =>
        have := ih (a := a + 1) (k := k) (by simpa [writtenRun_some n h] using hk)
        simp only [writtenRun_some n h, List.getElem_cons_succ]
        rw [← this]
        congr 1
        omega

/-- The first part of a run. -/
theorem writtenRun_take {s : State} {sp : Space} {a n m : Nat} (hm : m ≤ n) :
    (writtenRun s sp a n).take m = writtenRun s sp a m := by
  induction m generalizing a n with
  | zero => simp
  | succ m ih =>
    obtain ⟨n, rfl⟩ : ∃ k, n = k + 1 := ⟨n - 1, by omega⟩
    cases hb : byteAt s sp a with
    | none => simp [writtenRun_none _ hb]
    | some b => rw [writtenRun_some n hb, writtenRun_some m hb, List.take_succ_cons, ih (by omega)]

/-- A full run is what stands there. -/
theorem writtenRun_eq_iff {s : State} {sp : Space} {a : Nat} {x : List Byte} :
    writtenRun s sp a x.length = x ↔ ∀ k (hk : k < x.length), byteAt s sp (a + k) = some x[k] := by
  constructor
  · intro h k hk
    have := byteAt_of_writtenRun (s := s) (sp := sp) (a := a) (n := x.length) (k := k) (by rw [h]; exact hk)
    simpa [h] using this
  · intro h
    induction x generalizing a with
    | nil => rfl
    | cons b x ih =>
      have h0 : byteAt s sp a = some b := h 0 (Nat.succ_pos _)
      rw [List.length_cons, writtenRun_some _ h0, ih]
      intro k hk
      have := h (k + 1) (by simpa using hk)
      simpa [Nat.add_assoc, Nat.add_comm 1] using this

/-- The bytes put are the run from there on. -/
theorem writtenRun_putBytes (s : State) (sp : Space) (a : Nat) (x : List Byte) :
    writtenRun (putBytes s sp a x) sp a x.length = x :=
  writtenRun_eq_iff.2 fun _ hk => byteAt_putBytes_same s sp a x hk

theorem writtenRun_putBytes_other (s : State) {sp sp' : Space} (h : sp' ≠ sp) (a : Nat) (vs : List Byte) (a' n : Nat) :
    writtenRun (putBytes s sp a vs) sp' a' n = writtenRun s sp' a' n :=
  writtenRun_congr n fun _ _ => byteAt_putBytes_other s vs (.inl h)

/-! ### The escape encoding -/

theorem esc_length (b : Byte) : 1 ≤ (esc b).length ∧ (esc b).length ≤ 2 := by
  unfold esc; split <;> [skip; split] <;> simp

@[simp] theorem escAll_nil : escAll [] = [] := rfl
@[simp] theorem escAll_cons (b : Byte) (x : List Byte) : escAll (b :: x) = esc b ++ escAll x := rfl

theorem escAll_append (x y : List Byte) : escAll (x ++ y) = escAll x ++ escAll y := by
  induction x with
  | nil => rfl
  | cons b x ih => simp [ih]

theorem escAll_length_ge (x : List Byte) : x.length ≤ (escAll x).length := by
  induction x with
  | nil => simp
  | cons b x ih => have := (esc_length b).1; simp; omega

/-- The encoder's output in the shape of its loop. -/
def encFit (t : EncTrunc) : Nat → List Byte → List Byte
  | _, [] => []
  | c, b :: x =>
    if (esc b).length ≤ c then esc b ++ encFit t (c - (esc b).length) x
    else
      match t with
      | .atomic => []
      | .split => (esc b).take c

theorem encFit_length_le (t : EncTrunc) (c : Nat) (x : List Byte) : (encFit t c x).length ≤ c := by
  induction x generalizing c with
  | nil => simp [encFit]
  | cons b x ih =>
    simp only [encFit]
    split
    · have := ih (c - (esc b).length); simp; omega
    · cases t <;> simp

@[simp] theorem encFit_zero (t : EncTrunc) (x : List Byte) : encFit t 0 x = [] :=
  List.eq_nil_of_length_eq_zero (Nat.le_zero.1 (encFit_length_le t 0 x))

/-- Everything a run of the encoder's loop can do, when its buffers lie inside their spaces: it ends exactly when all its
input is written or its output fills first, and then it has put the closed form's bytes. -/
theorem encodeLoop_spec {src dst : Space} (hsd : src ≠ dst) {a o cap : Nat} (k : Nat) (u : Encoder) (s : State)
    (hj : u.j ≤ cap) (hdst : o + cap ≤ spaceSize s.cfg dst) (hsrc : a + u.i + k ≤ spaceSize s.cfg src) :
    let y := writtenRun s src (a + u.i) k
    let T := encFit s.cfg.encTrunc (cap - u.j) y
    ((y.length = k ∨ cap - u.j ≤ (escAll y).length) →
      ∃ u', encodeLoop src dst a o cap k u s = .next (putBytes s dst (o + u.j) T, u') ∧ u'.j = u.j + T.length ∧
        u'.writes = u.writes + T.length ∧ u'.reads ≤ u.reads + k) ∧
    (¬(y.length = k ∨ cap - u.j ≤ (escAll y).length) →
      encodeLoop src dst a o cap k u s = .refused .unwrittenByte) := by
  induction k generalizing u s with
  | zero => simp [encodeLoop, encFit]
  | succ k ih =>
    by_cases hfull : u.j = cap
    · simp [encodeLoop, hfull]
    cases hb : byteAt s src (a + u.i) with
    | none =>
      have hr := memRead_unwritten (by omega) hb
      simp only [writtenRun_none k hb, encodeLoop, hfull, hr, if_false, andThen_refused]
      exact ⟨fun h => by simp at h; omega, fun _ => trivial⟩
    | some b =>
      have hr := memRead_eq_next.2 ⟨by omega, hb⟩
      simp only [writtenRun_some k hb, encodeLoop, hfull, hr, if_false, andThen_next, encFit]
      by_cases hfit : u.j + (esc b).length ≤ cap
      · have hw := memWriteList_below (s := s) (sp := dst) (a := o + u.j) (esc b) (.inr (by omega))
        have := ih { i := u.i + 1, j := u.j + (esc b).length, reads := u.reads + 1, writes := u.writes + (esc b).length }
          (putBytes s dst (o + u.j) (esc b)) hfit (by simpa using hdst) (by simp; omega)
        simp only [putBytes_keeps_cfg, writtenRun_putBytes_other s hsd, ← Nat.add_assoc] at this
        have hc : (esc b).length ≤ cap - u.j := by omega
        simp only [hfit, hw, if_true, andThen_next, hc, escAll_cons, List.length_cons, List.length_append]
        refine ⟨fun h => ?_, fun h => this.2 (by omega)⟩
        obtain ⟨u', h1, h2, h3, h4⟩ := this.1 (by omega)
        refine ⟨u', ?_, ?_, ?_, ?_⟩
        · rw [h1, putBytes_append, Nat.sub_add_eq]
        · rw [h2, Nat.sub_add_eq]; omega
        · rw [h3, Nat.sub_add_eq]; omega
        · omega
      · have hc : ¬(esc b).length ≤ cap - u.j := by omega
        simp only [hfit, hc, if_false]
        refine ⟨fun _ => ?_, fun h => absurd (.inr ?_) h⟩
        · cases s.cfg.encTrunc with
          | atomic => exact ⟨_, rfl, by simp, by simp, by simp⟩
          | split =>
            have hl : ((esc b).take (cap - u.j)).length = cap - u.j := by simp; omega
            have hw := memWriteList_below (s := s) (sp := dst) (a := o + u.j) ((esc b).take (cap - u.j))
              (.inr (by omega))
            simp only [hw, andThen_next]
            exact ⟨_, rfl, by simp only [hl]; omega, by simp only [hl], by simp⟩
        · simp; omega

/-- Whatever the buffers, a run of the encoder's loop that ends has put bytes that fit, and nothing else. -/
theorem encodeLoop_puts {src dst : Space} {a o cap : Nat} (k : Nat) (u : Encoder) (s : State) (hj : u.j ≤ cap)
    {t : State} {u' : Encoder} (h : encodeLoop src dst a o cap k u s = .next (t, u')) :
    ∃ T, t = putBytes s dst (o + u.j) T ∧ u'.j = u.j + T.length ∧ u'.j ≤ cap ∧
      u'.writes = u.writes + T.length ∧ T.length ≤ 2 * k ∧ u'.reads ≤ u.reads + k := by
  induction k generalizing u s with
  | zero =>
    simp only [encodeLoop, Host.Outcome.next.injEq, Prod.mk.injEq] at h
    obtain ⟨rfl, rfl⟩ := h
    exact ⟨[], by simp [hj]⟩
  | succ k ih =>
    simp only [encodeLoop] at h
    split at h
    · simp only [Host.Outcome.next.injEq, Prod.mk.injEq] at h
      obtain ⟨rfl, rfl⟩ := h
      exact ⟨[], by simp [hj]⟩
    obtain ⟨b, -, h⟩ := andThen_eq_next.1 h
    have hb2 := (esc_length b).2
    split at h
    · obtain ⟨s', hw, h⟩ := andThen_eq_next.1 h
      obtain ⟨-, rfl⟩ := memWriteList_eq_next.1 hw
      obtain ⟨T, rfl, h1, h2, h3, h4, h5⟩ := ih _ _ (by assumption) h
      refine ⟨esc b ++ T, ?_, ?_, h2, ?_, ?_, ?_⟩
      · rw [putBytes_append, ← Nat.add_assoc]
      · simp at h1 ⊢; omega
      · simp at h3 ⊢; omega
      · simp; omega
      · simp at h5; omega
    · rename_i hfit
      cases ht : s.cfg.encTrunc <;> rw [ht] at h
      · obtain ⟨s', hw, h⟩ := andThen_eq_next.1 h
        obtain ⟨-, rfl⟩ := memWriteList_eq_next.1 hw
        simp only [Host.Outcome.next.injEq, Prod.mk.injEq] at h
        obtain ⟨rfl, rfl⟩ := h
        have hl : ((esc b).take (cap - u.j)).length = cap - u.j := by simp; omega
        exact ⟨_, rfl, by simp only [hl]; omega, by simp, by simp only [hl], by omega, by simp⟩
      · simp only [Host.Outcome.next.injEq, Prod.mk.injEq] at h
        obtain ⟨rfl, rfl⟩ := h
        exact ⟨[], by simp [hj]⟩

/-! ### The escape decoding -/

@[simp] theorem decFrom_nil (p : Bool) : decFrom p [] = [] := rfl
@[simp] theorem decFrom_cons (p : Bool) (b : Byte) (x : List Byte) :
    decFrom p (b :: x) = (decStep p b).1.toList ++ decFrom (decStep p b).2 x := rfl

theorem emit_length (p : Bool) (b : Byte) : (decStep p b).1.toList.length ≤ 1 := by
  cases (decStep p b).1 <;> simp

theorem decFrom_length_le (p : Bool) (x : List Byte) : (decFrom p x).length ≤ x.length := by
  induction x generalizing p with
  | nil => simp
  | cons b x ih =>
    have h1 := ih (decStep p b).2
    have h2 := emit_length p b
    simp only [decFrom_cons, List.length_append, List.length_cons]
    omega

/-- Emitting puts what the byte step emits. -/
theorem emit_eq_next {s t : State} {dst : Space} {a : Nat} {e : Option Byte} :
    emit s dst a e = .next t ↔ (e = none ∨ a < spaceSize s.cfg dst) ∧ t = putBytes s dst a e.toList := by
  cases e with
  | none => simp [emit, eq_comm]
  | some v => simp [emit, memWrite_eq_next]

/-- Everything a run of the decoder's loop can do, when its buffers lie inside their spaces: it ends exactly when all its
input is written or its output fills first, and then it has put the closed form's bytes. -/
theorem decodeLoop_spec {src dst : Space} (hsd : src ≠ dst) {a o cap : Nat} (k : Nat) (u : Decoder) (s : State)
    (hj : u.j ≤ cap) (hdst : o + cap ≤ spaceSize s.cfg dst) (hsrc : a + u.i + k ≤ spaceSize s.cfg src) :
    let y := writtenRun s src (a + u.i) k
    let T := (decFrom u.pend y).take (cap - u.j)
    ((y.length = k ∨ cap - u.j ≤ (decFrom u.pend y).length) →
      ∃ u', decodeLoop src dst a o cap k u s = .next (putBytes s dst (o + u.j) T, u') ∧ u'.j = u.j + T.length ∧
        u'.writes = u.writes + T.length ∧ u'.reads ≤ u.reads + k) ∧
    (¬(y.length = k ∨ cap - u.j ≤ (decFrom u.pend y).length) →
      decodeLoop src dst a o cap k u s = .refused .unwrittenByte) := by
  induction k generalizing u s with
  | zero => simp [decodeLoop]
  | succ k ih =>
    by_cases hfull : u.j = cap
    · simp [decodeLoop, hfull]
    cases hb : byteAt s src (a + u.i) with
    | none =>
      have hr := memRead_unwritten (by omega) hb
      simp only [writtenRun_none k hb, decodeLoop, hfull, hr, if_false, andThen_refused]
      exact ⟨fun h => by simp at h; omega, fun _ => trivial⟩
    | some b =>
      have hr := memRead_eq_next.2 ⟨by omega, hb⟩
      have hl := emit_length u.pend b
      have he : emit s dst (o + u.j) (decStep u.pend b).1 = .next _ := emit_eq_next.2 ⟨.inr (by omega), rfl⟩
      have := ih { i := u.i + 1, j := u.j + (decStep u.pend b).1.toList.length, pend := (decStep u.pend b).2,
                   reads := u.reads + 1, writes := u.writes + (decStep u.pend b).1.toList.length }
        (putBytes s dst (o + u.j) (decStep u.pend b).1.toList) (by simp only; omega) (by simpa using hdst)
        (by simp; omega)
      simp only [writtenRun_putBytes_other s hsd, ← Nat.add_assoc] at this
      simp only [writtenRun_some k hb, decodeLoop, hfull, hr, he, if_false, andThen_next, decFrom_cons,
        List.length_cons, List.length_append]
      refine ⟨fun h => ?_, fun h => this.2 (by omega)⟩
      obtain ⟨u', h1, h2, h3, h4⟩ := this.1 (by omega)
      clear this
      have ht : ((decStep u.pend b).1.toList ++ decFrom (decStep u.pend b).2 (writtenRun s src (a + u.i + 1) k)).take
            (cap - u.j) =
          (decStep u.pend b).1.toList ++ (decFrom (decStep u.pend b).2 (writtenRun s src (a + u.i + 1) k)).take
            (cap - (u.j + (decStep u.pend b).1.toList.length)) := by
        rw [List.take_append, List.take_of_length_le (by omega), Nat.sub_add_eq]
      rw [ht]
      refine ⟨u', ?_, ?_, ?_, ?_⟩
      · rw [h1, putBytes_append]
      · simp only [List.length_append]; omega
      · simp only [List.length_append]; omega
      · omega

/-- Whatever the buffers, a run of the decoder's loop that ends has put bytes that fit, and nothing else. -/
theorem decodeLoop_puts {src dst : Space} {a o cap : Nat} (k : Nat) (u : Decoder) (s : State) (hj : u.j ≤ cap)
    {t : State} {u' : Decoder} (h : decodeLoop src dst a o cap k u s = .next (t, u')) :
    ∃ T, t = putBytes s dst (o + u.j) T ∧ u'.j = u.j + T.length ∧ u'.j ≤ cap ∧
      u'.writes = u.writes + T.length ∧ T.length ≤ k ∧ u'.reads ≤ u.reads + k := by
  induction k generalizing u s with
  | zero =>
    simp only [decodeLoop, Host.Outcome.next.injEq, Prod.mk.injEq] at h
    obtain ⟨rfl, rfl⟩ := h
    exact ⟨[], by simp [hj]⟩
  | succ k ih =>
    simp only [decodeLoop] at h
    split at h
    · simp only [Host.Outcome.next.injEq, Prod.mk.injEq] at h
      obtain ⟨rfl, rfl⟩ := h
      exact ⟨[], by simp [hj]⟩
    obtain ⟨b, -, h⟩ := andThen_eq_next.1 h
    obtain ⟨s', he, h⟩ := andThen_eq_next.1 h
    obtain ⟨-, rfl⟩ := emit_eq_next.1 he
    have hl := emit_length u.pend b
    obtain ⟨T, rfl, h1, h2, h3, h4, h5⟩ := ih _ _ (by simp only; omega) h
    refine ⟨(decStep u.pend b).1.toList ++ T, ?_, ?_, h2, ?_, ?_, ?_⟩
    · rw [putBytes_append, ← Nat.add_assoc]
    · simp only [List.length_append] at h1 ⊢; omega
    · simp only [List.length_append] at h3 ⊢; omega
    · simp only [List.length_append]; omega
    · simp only at h5; omega

end Sys2Proof.Machine
end

