-- ==== Sys2Proof/Laws/Control.lean ====
section
/-! SUPPORT. The packet registers: what each shared update of them is. -/

namespace Sys2Proof.Machine

theorem clearComplete_eq (s : State) : clearComplete s = { s with pktComplete := false } := rfl

theorem setComplete_eq (s : State) : setComplete s = { s with pktComplete := true } := rfl

theorem takeCommand_eq (s : State) (b : Byte) :
    takeCommand s b = { s with pktCmd := b.extractLsb' 0 4, pktPort := b.extractLsb' 4 4 } := by
  simp only [takeCommand, unpackByte, regSet_pktCmd, regSet_pktPort, BitVec.ofNat_toNat, BitVec.setWidth_eq]

theorem packetReset_eq (s : State) :
    packetReset s = { s with pktLen := 0, pktCmd := 0#4, pktPort := 0#4, pktComplete := false } := by
  simp [packetReset, clearComplete, toCount]

/-- A count register never holds more than the value written. -/
theorem toCount_le (c : Config) (v : Nat) : toCount c v ≤ v := Nat.mod_le _ _

/-- A count register is CNT_W bits wide. -/
theorem toCount_lt (c : Config) (v : Nat) : toCount c v < 2 ^ c.cntW := Nat.mod_lt _ (Nat.two_pow_pos _)

/-- With a well-formed configuration a count that fits a memory is held whole (00_scope.md R8). -/
theorem toCount_eq {c : Config} (h : c.wellFormed = true) {v : Nat}
    (hv : v ≤ c.inSize ∨ v ≤ c.outSize ∨ v ≤ c.pktSize) : toCount c v = v := by
  simp only [Config.wellFormed, decide_eq_true_eq] at h
  exact Nat.mod_eq_of_lt (by omega)

end Sys2Proof.Machine
end

