-- ==== Sys2Proof/Laws/Host.lean ====
section
/-! SUPPORT. The host's side: the step as the host's next action, and the copy that a shift makes. -/

namespace Sys2Proof.Machine

/-- A step with a host action pending is that action. -/
theorem step_of_pending {s : State} {act : HostAction} {rest : List HostAction} (h : s.pending = act :: rest) :
    step s = hostAct { s with pending := rest } act := by
  simp only [step, hostTurn, h]

/-- The index names the register. -/
theorem regIndex_of_regOfIndex {n : Nat} {r : Reg} (h : regOfIndex n = some r) : n = regIndex r := by
  rcases Nat.lt_or_ge n 16 with hn | hn
  · interval_cases n <;> cases h <;> rfl
  · obtain ⟨m, rfl⟩ := Nat.exists_eq_add_of_le hn
    rw [Nat.add_comm] at h
    cases h

/-- Everything the copy of a shift does when its source stays inside IN_MEM: it ends, it changes IN_MEM alone, every written
byte arrives, and offsets outside the target keep theirs. -/
theorem hostMoveDown_spec (k c d : Nat) (s : State) (hb : d + k + c ≤ s.cfg.inSize) :
    ∃ t, hostMoveDown k c d s = .next t ∧ t = { s with inMem := t.inMem } ∧
      (∀ j b, j < c → byteAt s .inp (d + j + k) = some b → byteAt t .inp (d + j) = some b) ∧
      ∀ a, a < d ∨ d + c ≤ a → byteAt t .inp a = byteAt s .inp a := by
  induction c generalizing d s with
  | zero => exact ⟨s, rfl, rfl, by simp, by simp⟩
  | succ c ih =>
    have hr := hostReadByte_eq_next.2 ⟨(by simp [spaceSize]; omega : d + k < spaceSize s.cfg .inp), rfl⟩
    obtain ⟨t, h1, h2, h4, h5⟩ := ih (d + 1) (putByte s .inp d (hostByte s .inp (d + k))) (by simp; omega)
    have hby : ∀ a, a ≠ d → byteAt (putByte s .inp d (hostByte s .inp (d + k))) .inp a = byteAt s .inp a := fun a ha =>
      byteAt_putByte_other _ _ (.inr ha)
    refine ⟨t, by simp only [hostMoveDown, hr, andThen_next, h1], by rw [h2]; rfl, fun j b' hj hb' => ?_,
      fun a ha => by rw [h5 a (by omega), hby a (by omega)]⟩
    cases j with
    | zero =>
      rw [h5 _ (by omega), Nat.add_zero, byteAt_putByte_same, hostByte_written (by simpa using hb')]
    | succ j =>
      rw [show d + (j + 1) = d + 1 + j by omega] at hb' ⊢
      exact h4 j b' (by omega) (by rw [hby _ (by omega)]; exact hb')

/-- A copy whose source leaves IN_MEM is refused. -/
theorem hostMoveDown_absent (k c d : Nat) (s : State) (hc : 0 < c) (hb : s.cfg.inSize < d + k + c) :
    hostMoveDown k c d s = .refused .absentOffset := by
  induction c generalizing d s with
  | zero => omega
  | succ c ih =>
    by_cases hd : d + k < spaceSize s.cfg .inp
    · rw [hostMoveDown, hostReadByte_eq_next.2 ⟨hd, rfl⟩, andThen_next]
      refine ih _ _ ?_ (by rw [putByte_keeps_cfg]; omega)
      have : d + k < s.cfg.inSize := hd
      omega
    · rw [hostMoveDown, hostReadByte, if_neg hd]
      rfl

/-- Wherever the copy of a shift ends, it has changed IN_MEM alone, in the canonical form. -/
theorem hostMoveDown_next {k c d : Nat} {s t : State} (h : hostMoveDown k c d s = .next t) :
    t = { s with inMem := t.inMem } ∧ (MemsWithin s → MemsWithin t) := by
  induction c generalizing d s with
  | zero => cases h; exact ⟨rfl, id⟩
  | succ c ih =>
    obtain ⟨b, hr, h⟩ := andThen_eq_next.1 h
    have ha := (hostReadByte_eq_next.1 hr).1
    obtain ⟨h1, h2⟩ := ih h
    exact ⟨by rw [h1]; rfl, fun hm => h2 (memsWithin_putByte hm (by omega) b)⟩

end Sys2Proof.Machine
end

