-- ==== Sys2Proof/Laws/Scanner.lean ====
section
/-! SUPPORT. The frame scanner: how long it stays in a state, and what it does on leaving it. From these a whole call is
put together. -/

namespace Sys2Proof.Machine

/-- Dropping from a run. -/
theorem writtenRun_drop {s : State} {sp : Space} {a n : Nat} (m : Nat) (hm : m ≤ (writtenRun s sp a n).length) :
    (writtenRun s sp a n).drop m = writtenRun s sp (a + m) (n - m) := by
  induction m generalizing a n with
  | zero => simp
  | succ m ih =>
    cases n with
    | zero => simp at hm
    | succ n =>
      cases hb : byteAt s sp a with
      | none => simp [writtenRun_none n hb] at hm
      | some b =>
        rw [writtenRun_some n hb] at hm ⊢
        rw [List.drop_succ_cons, ih (by simpa using hm), Nat.succ_sub_succ, show a + 1 + m = a + (m + 1) by omega]

/-- The bytes on which the scanner leaves a state (43_stream_decoder.md R174). -/
def leaves (st : ScanSt) (b : Byte) : Bool :=
  match st with
  | .hunt => b == FEND
  | .seek => b != FEND
  | .inframe => b == FEND
  | .trail => b != FEND
  | .done => true

/-- The scanner after `n` bytes on which it stays. -/
def advance (u : Scanner) (n : Nat) : Scanner :=
  { u with
    i := u.i + n
    plen := if u.st = .inframe then u.plen + n else u.plen
    steps := { u.steps with reads := u.steps.reads + n } }

/-- On a byte on which it stays the scanner only moves on. -/
theorem scanLoop_stay_one {s : State} {u : Scanner} {b : Byte} (k : Nat) (hi : u.i < s.cfg.inSize)
    (hb : byteAt s .inp u.i = some b) (hs : leaves u.st b = false) :
    scanLoop (k + 1) u s = scanLoop k (advance u 1) s := by
  have hr := memRead_eq_next.2 ⟨(hi : u.i < spaceSize s.cfg .inp), hb⟩
  obtain ⟨st, i, start, plen, steps⟩ := u
  simp only [scanLoop, hr, andThen_next]
  cases st <;> simp_all [leaves, scanStep, advance]

/-- It stays so over any number of bytes. -/
theorem scanLoop_stay {s : State} (n k : Nat) (u : Scanner) (hi : u.i + n ≤ s.cfg.inSize)
    (hb : ∀ j < n, ∃ b, byteAt s .inp (u.i + j) = some b ∧ leaves u.st b = false) :
    scanLoop (n + k) u s = scanLoop k (advance u n) s := by
  induction n generalizing u with
  | zero => simp [advance]
  | succ n ih =>
    obtain ⟨b, hb0, hs⟩ := hb 0 (Nat.succ_pos n)
    rw [Nat.add_right_comm, scanLoop_stay_one (n + k) (by omega) hb0 hs, ih (advance u 1) (by simp [advance]; omega)]
    · congr 1
      simp only [advance]
      split <;> simp <;> omega
    · intro j hj
      obtain ⟨b', h1, h2⟩ := hb (j + 1) (by omega)
      exact ⟨b', by simpa [advance, Nat.add_assoc, Nat.add_comm 1] using h1, h2⟩

/-- If no byte of the written rest makes it leave its state, the scan ends there: at the end of the buffer, or at the
first unwritten byte. -/
theorem scanLoop_no_leave {s : State} (k : Nat) (u : Scanner) (hi : u.i + k ≤ s.cfg.inSize)
    (h : (writtenRun s .inp u.i k).findIdx? (leaves u.st) = none) :
    scanLoop k u s =
      if (writtenRun s .inp u.i k).length = k then .next (scanEnd u.st s, advance u k)
      else .refused .unwrittenByte := by
  have hle := writtenRun_length_le s .inp u.i k
  have hstay : ∀ j < (writtenRun s .inp u.i k).length,
      ∃ b, byteAt s .inp (u.i + j) = some b ∧ leaves u.st b = false := fun j hj =>
    ⟨_, byteAt_of_writtenRun hj, List.findIdx?_eq_none_iff.1 h _ (List.getElem_mem hj)⟩
  have hgo := scanLoop_stay (writtenRun s .inp u.i k).length (k - (writtenRun s .inp u.i k).length) u
    (by omega) hstay
  rw [Nat.add_sub_cancel' hle] at hgo
  rw [hgo]
  split
  · rename_i heq
    rw [heq, Nat.sub_self]
    rfl
  · rename_i hne
    obtain ⟨k', hk'⟩ : ∃ k', k - (writtenRun s .inp u.i k).length = k' + 1 := ⟨_, (Nat.succ_pred (by omega)).symm⟩
    have hnone : byteAt s .inp (u.i + (writtenRun s .inp u.i k).length) = none := by
      have := writtenRun_drop (s := s) (sp := .inp) (a := u.i) (n := k) _ (Nat.le_refl _)
      rw [List.drop_length, hk'] at this
      cases hb : byteAt s .inp (u.i + (writtenRun s .inp u.i k).length) with
      | none => rfl
      | some b => rw [writtenRun_some k' hb] at this; simp at this
    rw [hk', scanLoop, memRead_unwritten _ (by simpa [advance] using hnone)]
    · rfl
    · show u.i + _ < s.cfg.inSize
      omega

/-- If byte `n` of the written rest is the first on which it leaves its state, the scan reaches that byte. -/
theorem scanLoop_leave {s : State} {k n : Nat} {u : Scanner} (hi : u.i + k ≤ s.cfg.inSize)
    (h : (writtenRun s .inp u.i k).findIdx? (leaves u.st) = some n) :
    ∃ b k', k = n + (k' + 1) ∧ (writtenRun s .inp u.i k)[n]? = some b ∧ byteAt s .inp (u.i + n) = some b ∧
      leaves u.st b = true ∧ scanLoop k u s = scanLoop (k' + 1) (advance u n) s ∧
      memRead s .inp (u.i + n) = .next b := by
  obtain ⟨hn, hp, hj⟩ := List.findIdx?_eq_some_iff_getElem.1 h
  have hle := writtenRun_length_le s .inp u.i k
  have hb := byteAt_of_writtenRun hn
  refine ⟨_, k - n - 1, by omega, List.getElem?_eq_getElem hn, hb, hp, ?_, memRead_eq_next.2 ⟨?_, hb⟩⟩
  · have hgo := scanLoop_stay n (k - n - 1 + 1) u (s := s) (by omega) fun j hjn =>
      ⟨_, byteAt_of_writtenRun (Nat.lt_trans hjn hn), by simpa using hj j hjn⟩
    rw [← hgo]
    congr 1
    omega
  · show u.i + n < s.cfg.inSize
    omega

/-! ### A scan from each state to its end

Each of these says what is left of a call from one scanner state on, from the index `i` with `k` bytes of the buffer still
to come, of which `y` are the written ones. -/

/-- A scan's outcome, without the scanner. -/
def scanOutcome (r : Res (State × Scanner)) : Res State := andThen r fun p => .next p.1

/-- From TRAIL on. -/
def trailEnd (s : State) (i k : Nat) (y : List Byte) : Res State :=
  match y.findIdx? (· != FEND) with
  | some n => .next (regSet s .result (i + n))
  | none => if y.length = k then .next (regSet s .result s.inLen) else .refused .unwrittenByte

/-- From INFRAME on, at the first byte of the span. -/
def inframeEnd (s : State) (i k : Nat) (y : List Byte) : Res State :=
  match y.findIdx? (· == FEND) with
  | some n =>
    trailEnd
      (setComplete (regSet (putBytes s .pkt 0 ((dec (y.take n)).take s.pktCap)) .pktLen
        ((dec (y.take n)).take s.pktCap).length))
      (i + n + 1) (k - (n + 1)) (y.drop (n + 1))
  | none => if y.length = k then .next (regSet s .result 0) else .refused .unwrittenByte

/-- From SEEK on. -/
def seekEnd (s : State) (i k : Nat) (y : List Byte) : Res State :=
  match y.findIdx? (· != FEND) with
  | some n => inframeEnd (takeCommand s (y.getD n 0#8)) (i + n + 1) (k - (n + 1)) (y.drop (n + 1))
  | none => if y.length = k then .next (regSet s .result 0) else .refused .unwrittenByte

/-- From HUNT on. -/
def huntEnd (s : State) (i k : Nat) (y : List Byte) : Res State :=
  match y.findIdx? (· == FEND) with
  | some n => seekEnd s (i + n + 1) (k - (n + 1)) (y.drop (n + 1))
  | none => if y.length = k then .next (regSet s .result 0) else .refused .unwrittenByte

theorem scan_trail {s : State} (k : Nat) (u : Scanner) (hu : u.st = .trail) (hi : u.i + k ≤ s.cfg.inSize) :
    scanOutcome (scanLoop k u s) = trailEnd s u.i k (writtenRun s .inp u.i k) := by
  unfold trailEnd scanOutcome
  cases h : (writtenRun s .inp u.i k).findIdx? (leaves u.st) with
  | none =>
    rw [scanLoop_no_leave k u hi h]
    rw [hu] at h
    rw [show (writtenRun s .inp u.i k).findIdx? (· != FEND) = none from h, hu]
    dsimp only
    split <;> rfl
  | some n =>
    obtain ⟨b, k', -, -, -, hl, hs, hr⟩ := scanLoop_leave hi h
    rw [hs, scanLoop, show (advance u n).i = u.i + n from rfl, hr]
    rw [hu] at h hl
    rw [show (writtenRun s .inp u.i k).findIdx? (· != FEND) = some n from h]
    have : scanStep (advance u n).st b = (.stop, .done) := by
      rw [show (advance u n).st = .trail from hu]
      simp_all [scanStep, leaves]
    simp only [andThen_next, this]

theorem scan_inframe {s : State} (k : Nat) (u : Scanner) (hu : u.st = .inframe) (hi : u.i + k ≤ s.cfg.inSize)
    (hs : u.start = u.i) (hp : u.plen = 0) (hc : s.pktCap ≤ s.cfg.pktSize) :
    scanOutcome (scanLoop k u s) = inframeEnd s u.i k (writtenRun s .inp u.i k) := by
  unfold inframeEnd
  cases h : (writtenRun s .inp u.i k).findIdx? (leaves u.st) with
  | none =>
    rw [scanLoop_no_leave k u hi h]
    rw [hu] at h
    rw [show (writtenRun s .inp u.i k).findIdx? (· == FEND) = none from h, hu]
    dsimp only
    split <;> rfl
  | some n =>
    obtain ⟨b, k', hk, -, -, hl, hs', hr⟩ := scanLoop_leave hi h
    rw [hs', scanLoop, show (advance u n).i = u.i + n from rfl, hr]
    rw [hu] at h hl
    rw [show (writtenRun s .inp u.i k).findIdx? (· == FEND) = some n from h]
    have hn : n < (writtenRun s .inp u.i k).length := (List.findIdx?_eq_some_iff_getElem.1 h).1
    have hstep : scanStep (advance u n).st b = (.complete, .trail) := by
      rw [show (advance u n).st = .inframe from hu]
      simp_all [scanStep, leaves]
    have hpl : (advance u n).plen = n := by simp [advance, hu, hp]
    have hrun : (writtenRun s .inp u.i k).take n = writtenRun s .inp u.i n := writtenRun_take (by omega)
    have hlen : (writtenRun s .inp u.i n).length = n := by rw [← hrun, List.length_take]; omega
    obtain ⟨d, hd, hj, -⟩ := (decodeLoop_spec (src := .inp) (dst := .pkt) (by decide) (a := u.i) (o := 0)
      (cap := s.pktCap) n { i := 0, j := 0, pend := false, reads := 0, writes := 0 } s (Nat.zero_le _)
      (by simpa [spaceSize] using hc) (by simp [spaceSize]; omega)).1 (.inl hlen)
    simp only [andThen_next, hstep, completeFrame, decodeInto, hpl, show (advance u n).start = u.start from rfl, hs, hd,
      hj, Nat.add_zero, Nat.sub_zero, Nat.zero_add, hrun, dec]
    rw [scan_trail _ _ rfl (by simp [setComplete]; omega), writtenRun_drop _ (by omega)]
    have hk' : k - (n + 1) = k' := by omega
    rw [hk']
    congr 1
    exact writtenRun_congr _ fun j _ => by
      rw [setComplete, regSet_keeps_byteAt, regSet_keeps_byteAt, byteAt_putBytes_other _ _ (.inl (by decide))]
      rfl

theorem scan_seek {s : State} (k : Nat) (u : Scanner) (hu : u.st = .seek) (hi : u.i + k ≤ s.cfg.inSize)
    (hc : s.pktCap ≤ s.cfg.pktSize) :
    scanOutcome (scanLoop k u s) = seekEnd s u.i k (writtenRun s .inp u.i k) := by
  unfold seekEnd
  cases h : (writtenRun s .inp u.i k).findIdx? (leaves u.st) with
  | none =>
    rw [scanLoop_no_leave k u hi h]
    rw [hu] at h
    rw [show (writtenRun s .inp u.i k).findIdx? (· != FEND) = none from h, hu]
    dsimp only
    split <;> rfl
  | some n =>
    obtain ⟨b, k', hk, hy, -, hl, hs', hr⟩ := scanLoop_leave hi h
    rw [hs', scanLoop, show (advance u n).i = u.i + n from rfl, hr]
    rw [hu] at h hl
    rw [show (writtenRun s .inp u.i k).findIdx? (· != FEND) = some n from h]
    have hn : n < (writtenRun s .inp u.i k).length := (List.findIdx?_eq_some_iff_getElem.1 h).1
    have hstep : scanStep (advance u n).st b = (.command, .inframe) := by
      rw [show (advance u n).st = .seek from hu]
      simp_all [scanStep, leaves]
    simp only [andThen_next, hstep]
    rw [scan_inframe _ _ rfl (by simp [takeCommand]; omega) rfl rfl (by simpa [takeCommand] using hc),
      writtenRun_drop _ (by omega), show k - (n + 1) = k' by omega]
    simp only [List.getD_eq_getElem?_getD, hy, Option.getD_some]
    congr 1
    exact writtenRun_congr _ fun j _ => by
      rw [takeCommand, regSet_keeps_byteAt, regSet_keeps_byteAt]
      rfl

theorem scan_hunt {s : State} (k : Nat) (u : Scanner) (hu : u.st = .hunt) (hi : u.i + k ≤ s.cfg.inSize)
    (hc : s.pktCap ≤ s.cfg.pktSize) :
    scanOutcome (scanLoop k u s) = huntEnd s u.i k (writtenRun s .inp u.i k) := by
  unfold huntEnd
  cases h : (writtenRun s .inp u.i k).findIdx? (leaves u.st) with
  | none =>
    rw [scanLoop_no_leave k u hi h]
    rw [hu] at h
    rw [show (writtenRun s .inp u.i k).findIdx? (· == FEND) = none from h, hu]
    dsimp only
    split <;> rfl
  | some n =>
    obtain ⟨b, k', hk, -, -, hl, hs', hr⟩ := scanLoop_leave hi h
    rw [hs', scanLoop, show (advance u n).i = u.i + n from rfl, hr]
    rw [hu] at h hl
    rw [show (writtenRun s .inp u.i k).findIdx? (· == FEND) = some n from h]
    have hn : n < (writtenRun s .inp u.i k).length := (List.findIdx?_eq_some_iff_getElem.1 h).1
    have hstep : scanStep (advance u n).st b = (.skip, .seek) := by
      rw [show (advance u n).st = .hunt from hu]
      simp_all [scanStep, leaves]
    simp only [andThen_next, hstep]
    rw [scan_seek _ _ rfl (by simp; omega) hc, writtenRun_drop _ (by omega), show k - (n + 1) = k' by omega]
    rfl

/-! ### The indices of the closed form -/

theorem firstFrom_eq_some {p : Byte → Bool} {y : List Byte} {h c : Nat} :
    firstFrom p y h = some c ↔ ∃ n, (y.drop h).findIdx? p = some n ∧ h + n = c := by
  simp [firstFrom]

theorem firstFrom_eq_none {p : Byte → Bool} {y : List Byte} {h : Nat} :
    firstFrom p y h = none ↔ (y.drop h).findIdx? p = none := by
  simp [firstFrom]

/-- What an index found says of the bytes. -/
theorem firstFrom_spec {p : Byte → Bool} {y : List Byte} {h c : Nat} (hf : firstFrom p y h = some c) :
    h ≤ c ∧ c < y.length ∧ p (y.getD c 0#8) = true ∧ ∀ j, h ≤ j → j < c → p (y.getD j 0#8) = false := by
  obtain ⟨n, hn, rfl⟩ := firstFrom_eq_some.1 hf
  obtain ⟨h1, h2, h3⟩ := List.findIdx?_eq_some_iff_getElem.1 hn
  simp only [List.length_drop] at h1
  refine ⟨by omega, by omega, ?_, fun j hj hj2 => ?_⟩
  · rw [List.getD_eq_getElem _ _ (by omega)]
    simpa using h2
  · have := h3 (j - h) (by omega)
    rw [List.getD_eq_getElem _ _ (by omega)]
    simpa [List.getElem_drop, show h + (j - h) = j by omega] using this

end Sys2Proof.Machine
end

