-- ==== Sys2Proof/Laws/Operations.lean ====
section
/-! SUPPORT. What a run of each storing operation that ends has done, whatever state it started in: the bytes it put, and
the registers it set. -/

namespace Sys2Proof.Machine

/-- An ENCODE_DATA that ends has put at most OUT_CAP bytes in OUT_MEM from offset 0 and set RESULT to their count. -/
theorem execEncodeData_next {s t : State} (h : execEncodeData s = .next t) :
    ∃ T, t = regSet (putBytes s .out 0 T) .result T.length ∧ T.length ≤ s.outCap ∧ s.inLen ≤ s.cfg.inSize ∧
      s.outCap ≤ s.cfg.outSize := by
  simp only [execEncodeData, runEncodeData] at h
  split at h
  · cases h
  split at h
  · cases h
  obtain ⟨p, hp, h⟩ := andThen_eq_next.1 h
  obtain ⟨q, hq, hp⟩ := andThen_eq_next.1 hp
  obtain ⟨T, e1, e2, e3, -⟩ := encodeLoop_puts _ _ _ (Nat.zero_le _) hq
  cases hp
  cases h
  simp only [Nat.zero_add, Nat.add_zero] at e1 e2
  exact ⟨T, by rw [e1, e2], by omega, by omega, by omega⟩

/-- A DECODE_DATA that ends has put at most OUT_CAP bytes in OUT_MEM from offset 0 and set RESULT to their count. -/
theorem execDecodeData_next {s t : State} (h : execDecodeData s = .next t) :
    ∃ T, t = regSet (putBytes s .out 0 T) .result T.length ∧ T.length ≤ s.outCap ∧ s.inLen ≤ s.cfg.inSize ∧
      s.outCap ≤ s.cfg.outSize := by
  simp only [execDecodeData, runDecodeData] at h
  split at h
  · cases h
  split at h
  · cases h
  obtain ⟨p, hp, h⟩ := andThen_eq_next.1 h
  obtain ⟨q, hq, hp⟩ := andThen_eq_next.1 hp
  obtain ⟨T, e1, e2, e3, -⟩ := decodeLoop_puts _ _ _ (Nat.zero_le _) hq
  cases hp
  cases h
  simp only [Nat.zero_add, Nat.add_zero] at e1 e2
  exact ⟨T, by rw [e1, e2], by omega, by omega, by omega⟩

/-- An ENCODE_PACKET that ends has put at most OUT_CAP bytes in OUT_MEM from offset 0, none exactly when the capacity is
too small for the framing, and set RESULT to their count. -/
theorem execEncodePacket_next {s t : State} (h : execEncodePacket s = .next t) :
    ∃ T, t = regSet (putBytes s .out 0 T) .result T.length ∧ T.length ≤ s.outCap ∧ s.outCap ≤ s.cfg.outSize ∧
      (T = [] ↔ s.outCap < s.pktLen + 3) := by
  simp only [execEncodePacket, runEncodePacket] at h
  split at h
  · cases h
  split at h
  · cases h
    rename_i h3
    exact ⟨[], rfl, by simp, by omega, by simpa using h3⟩
  obtain ⟨p, hp, h⟩ := andThen_eq_next.1 h
  obtain ⟨s1, h1, hp⟩ := andThen_eq_next.1 hp
  obtain ⟨s2, h2, hp⟩ := andThen_eq_next.1 hp
  obtain ⟨q, hq, hp⟩ := andThen_eq_next.1 hp
  obtain ⟨s3, h4, hp⟩ := andThen_eq_next.1 hp
  obtain ⟨T, e1, e2, e3, -⟩ := encodeLoop_puts _ _ _ (Nat.zero_le _) hq
  cases hp
  cases h
  obtain ⟨-, rfl⟩ := memWrite_eq_next.1 h1
  obtain ⟨-, rfl⟩ := memWrite_eq_next.1 h2
  obtain ⟨-, rfl⟩ := memWrite_eq_next.1 h4
  simp only [Nat.zero_add, Nat.add_zero] at e1 e2
  refine ⟨[FEND, packByte (zext8 s.pktCmd) (zext8 s.pktPort)] ++ T ++ [FEND], ?_, by simp; omega, by omega,
    by simp; omega⟩
  rw [putBytes_append, putBytes_append, e1, e2]
  simp [Nat.add_comm 2]

/-- `t` differs from `s` in the packet's registers but PKT_CAP, in RESULT and in PKT_MEM below PKT_CAP alone. -/
structure ScanFrame (s t : State) : Prop where
  regs : t = { s with
    pktCmd := t.pktCmd, pktPort := t.pktPort, pktLen := t.pktLen, pktComplete := t.pktComplete, result := t.result,
    pktMem := t.pktMem }
  above : ∀ a, s.pktCap ≤ a → byteAt t .pkt a = byteAt s .pkt a

theorem ScanFrame.trans {s t u : State} (h1 : ScanFrame s t) (h2 : ScanFrame t u) : ScanFrame s u := by
  have e1 := h1.regs
  have e2 := h2.regs
  refine ⟨?_, fun a ha => by rw [h2.above a (by rw [e1]; exact ha), h1.above a ha]⟩
  rw [e2]
  generalize u.pktCmd = x1 at *
  generalize u.pktPort = x2 at *
  rw [e1]

theorem scanFrame_regSet (s : State) (r : Reg) (v : Nat)
    (hr : r ∈ [Reg.pktCmd, .pktPort, .pktLen, .pktComplete, .result]) : ScanFrame s (regSet s r v) := by
  refine ⟨?_, fun a _ => regSet_keeps_byteAt s v r .pkt a⟩
  cases r <;> first | rfl | exact absurd hr (by decide)

theorem scanFrame_putBytes (s : State) {T : List Byte} (h : T.length ≤ s.pktCap) :
    ScanFrame s (putBytes s .pkt 0 T) :=
  ⟨by rw [putBytes_pkt], fun _ ha => byteAt_putBytes_other _ _ (by omega)⟩

/-- Whatever it finds, a scan that ends has that frame. -/
theorem scanLoop_frame (k : Nat) (u : Scanner) (s : State) {t : State} {u' : Scanner}
    (h : scanLoop k u s = .next (t, u')) : ScanFrame s t := by
  induction k generalizing u s with
  | zero =>
    simp only [scanLoop, Host.Outcome.next.injEq, Prod.mk.injEq] at h
    rw [← h.1]
    cases u.st <;> exact scanFrame_regSet s .result _ (by decide)
  | succ k ih =>
    simp only [scanLoop] at h
    obtain ⟨b, -, h⟩ := andThen_eq_next.1 h
    rw [show scanStep u.st b = ((scanStep u.st b).1, (scanStep u.st b).2) from rfl] at h
    cases ha : (scanStep u.st b).1 <;> rw [ha] at h <;> dsimp only at h
    · exact ih _ _ h
    · exact ((scanFrame_regSet s .pktCmd _ (by decide)).trans (scanFrame_regSet _ .pktPort _ (by decide))).trans (ih _ _ h)
    · exact ih _ _ h
    · obtain ⟨p, hp, h⟩ := andThen_eq_next.1 h
      obtain ⟨q, hq, hp⟩ := andThen_eq_next.1 hp
      obtain ⟨T, e1, e2, e3, -⟩ := decodeLoop_puts _ _ _ (Nat.zero_le _) hq
      cases hp
      have hT := scanFrame_putBytes s (T := T) (by simp only [Nat.zero_add] at e2; omega)
      rw [Nat.add_zero] at e1
      rw [← e1] at hT
      exact ((hT.trans (scanFrame_regSet _ .pktLen _ (by decide))).trans (scanFrame_regSet _ .pktComplete 1 (by decide))).trans
        (ih _ _ h)
    · cases h
      exact scanFrame_regSet s .result _ (by decide)

/-- A DECODE_PACKET that ends has that frame. -/
theorem execDecodePacket_frame {s t : State} (h : execDecodePacket s = .next t) : ScanFrame s t := by
  simp only [execDecodePacket, runDecodePacket] at h
  split at h
  · cases h
  obtain ⟨p, hp, h⟩ := andThen_eq_next.1 h
  obtain ⟨q, hq, hp⟩ := andThen_eq_next.1 hp
  cases hp
  cases h
  exact (scanFrame_regSet s .pktComplete 0 (by decide)).trans (scanLoop_frame _ _ _ hq)

end Sys2Proof.Machine
end

