-- ==== Sys2Proof/Laws/PerInstr.lean ====
section
/-! SUPPORT. What holds of every operation as syntax, one lemma per operation. -/

namespace Sys2Proof.Laws.Encoding

/-- The operation is well-formed, its OPSEL byte holds RSV = 0 and its OP, and OP is one of the assigned codes, the
operation's own (30_encoding.md R80 to R82). -/
def Statement (i : Instr) : Prop :=
  i.wellFormed = true ∧ opselRsv (encode i) = 0#4 ∧ opselOp (encode i) = i.op ∧ i.op.toNat < 8 ∧ opOf i.op = some i

theorem encodeData : Statement .encodeData := by unfold Statement; decide

theorem decodeData : Statement .decodeData := by unfold Statement; decide

theorem pack : Statement .pack := by unfold Statement; decide

theorem unpack : Statement .unpack := by unfold Statement; decide

theorem encodePacket : Statement .encodePacket := by unfold Statement; decide

theorem decodePacket : Statement .decodePacket := by unfold Statement; decide

theorem pktInit : Statement .pktInit := by unfold Statement; decide

theorem pktReset : Statement .pktReset := by unfold Statement; decide

end Sys2Proof.Laws.Encoding
end

