-- ==== Sys2Proof/Tests/Slice0.lean ====
section
/-! SUPPORT. Tests, with the expected results of spec/95_test_vectors.md or of the rule named, and, for each obligation
with hypotheses, a concrete case that meets them. -/

namespace Sys2Proof.Tests

open Sys2Proof Sys2Proof.Machine

/-! ### Helpers -/

def bytes (x : List Nat) : List Byte := x.map (BitVec.ofNat 8)

/-- A memory that holds these bytes from offset 0. -/
def cells (x : List Nat) : Memory := (bytes x).zipIdx.map fun p => (p.2, p.1)

def config (t : EncTrunc) (m : SeekMode) : Config where
  inSize := 32
  outSize := 32
  pktSize := 32
  cntW := 8
  encTrunc := t
  seekMode := m

/-- The start state of the vectors: power-on and PKT_INIT with capacity 16. -/
def start (t : EncTrunc) (m : SeekMode) : State := { State.resetWith (config t m) with argCap := 16, pktCap := 16 }

/-- The input bytes in IN_MEM, and OUT_CAP. -/
def input (t : EncTrunc) (m : SeekMode) (x : List Nat) (cap : Nat) : State :=
  { start t m with inLen := x.length, inMem := cells x, outCap := cap }

/-- The packet's payload in PKT_MEM, and OUT_CAP. -/
def packet (t : EncTrunc) (c p : Nat) (x : List Nat) (cap : Nat) : State :=
  { start t .streamBoundary with
    pktCmd := BitVec.ofNat 4 c
    pktPort := BitVec.ofNat 4 p
    pktLen := x.length
    pktMem := cells x
    outCap := cap }

/-- A start state with room for five bytes of input. -/
def narrow (m : SeekMode) : State :=
  { State.resetWith { config .split m with inSize := 5 } with argCap := 16, pktCap := 16 }

def twoFrames : List Packet := [⟨0, 0, bytes [0x41]⟩, ⟨5, 0, []⟩]

def threeFrames : List Packet := twoFrames ++ [⟨6, 1, []⟩]

/-- These host actions pending. -/
def pend (s : State) (acts : List HostAction) : State := { s with pending := acts }

/-- A value of the next state. -/
def seen {α : Type} (r : Res State) (f : State → α) : Option α :=
  match r with
  | .next t => some (f t)
  | .fault _ => none
  | .refused _ => none

def refusal {α : Type} (r : Res α) : Option Refusal :=
  match r with
  | .next _ => none
  | .fault _ => none
  | .refused e => some e

/-- RESULT, and the bytes it counts in OUT_MEM. -/
def outView (s : State) : Nat × List Byte := (s.result, writtenRun s .out 0 s.result)

/-- RESULT, PKT_COMPLETE and the packet. -/
def pktView (s : State) : Nat × Bool × Packet := (s.result, s.pktComplete, packetOf s)

/-- The invariant of a concrete state, from what `decide` can check. -/
theorem inv_of {s : State} (i : Instr)
    (h : (s.cfg.wellFormed = true ∧ decode s.opsel = .ok i) ∧
      (s.inLen < 2 ^ s.cfg.cntW ∧ s.outCap < 2 ^ s.cfg.cntW ∧ s.argCap < 2 ^ s.cfg.cntW) ∧
      s.result ≤ max s.cfg.inSize s.cfg.outSize ∧ (s.pktLen ≤ s.pktCap ∧ s.pktCap ≤ s.cfg.pktSize) ∧
      (s.inMem.wf ∧ ∀ c ∈ s.inMem, c.1 < s.cfg.inSize) ∧ (s.outMem.wf ∧ ∀ c ∈ s.outMem, c.1 < s.cfg.outSize) ∧
      s.pktMem.wf ∧ ∀ c ∈ s.pktMem, c.1 < s.cfg.pktSize) : StateInv s where
  cfg := h.1.1
  opsel := ⟨i, h.1.2⟩
  inLen := h.2.1.1
  outCap := h.2.1.2.1
  argCap := h.2.1.2.2
  result := h.2.2.1
  packet := h.2.2.2.1
  inMem := h.2.2.2.2.1
  outMem := h.2.2.2.2.2.1
  pktMem := h.2.2.2.2.2.2

/-! ### Well-formedness and decoding -/

/-- R8: 2^CNT_W must exceed the largest size plus 3; 2^5 does not exceed 29 + 3, and 2^6 does. -/
theorem test_config_too_narrow_refused :
    (Config.mk 29 4 4 5 .split .streamBoundary).wellFormed = false ∧
    (Config.mk 4 29 4 5 .split .streamBoundary).wellFormed = false ∧
    (Config.mk 4 4 29 5 .split .streamBoundary).wellFormed = false ∧
    (Config.mk 29 29 29 6 .split .streamBoundary).wellFormed = true ∧
    (Config.mk 28 28 28 5 .split .streamBoundary).wellFormed = true := by decide

/-- The OPSEL bytes of 30_encoding.md section 2, bit by bit: RSV then OP; one operation of each family. -/
theorem test_decode_written_out :
    decode 0b00000000#8 = .ok .encodeData ∧ decode 0b00000001#8 = .ok .decodeData ∧
    decode 0b00000010#8 = .ok .pack ∧ decode 0b00000011#8 = .ok .unpack ∧
    decode 0b00000100#8 = .ok .encodePacket ∧ decode 0b00000101#8 = .ok .decodePacket ∧
    decode 0b00000110#8 = .ok .pktInit ∧ decode 0b00000111#8 = .ok .pktReset := by decide

/-- V-60-1, V-60-2, V-60-3. -/
theorem test_reserved_opsel :
    refusal (step (pend (start .split .streamBoundary) [.writeReg 0 0x08])) = some .reservedOp ∧
    refusal (step (pend (start .split .streamBoundary) [.writeReg 0 0x10])) = some .reservedOpsel ∧
    refusal (step (pend (start .split .streamBoundary) [.writeReg 0 0x18])) = some .reservedOpsel := by decide

/-! ### The operations -/

/-- V-40-E10, both policies. -/
theorem test_encodeData_expands :
    seen (exec .encodeData (input .split .streamBoundary [0xDB, 0xDD, 0xC0, 0xDC] 16)) outView =
      some (6, bytes [0xDB, 0xDD, 0xDD, 0xDB, 0xDC, 0xDC]) ∧
    seen (exec .encodeData (input .atomic .streamBoundary [0xDB, 0xDD, 0xC0, 0xDC] 16)) outView =
      some (6, bytes [0xDB, 0xDD, 0xDD, 0xDB, 0xDC, 0xDC]) := by decide

/-- V-40-T6: SPLIT cuts the sequence, ATOMIC stops before it. -/
theorem test_encodeData_truncates :
    seen (exec .encodeData (input .split .streamBoundary [0xC0, 0xDB] 3)) outView =
      some (3, bytes [0xDB, 0xDC, 0xDB]) ∧
    seen (exec .encodeData (input .atomic .streamBoundary [0xC0, 0xDB] 3)) outView =
      some (2, bytes [0xDB, 0xDC]) := by decide

/-- V-40-D5, V-40-D9: the second ESC stays pending; a lone marker is literal. -/
theorem test_decodeData_malformed :
    seen (exec .decodeData (input .split .streamBoundary [0xDB, 0xDB, 0xDC] 16)) outView = some (1, bytes [0xC0]) ∧
    seen (exec .decodeData (input .split .streamBoundary [0xDC, 0xDB, 0xDC] 16)) outView =
      some (2, bytes [0xDC, 0xC0]) := by decide

/-- V-40-D13 and V-40-D15. -/
theorem test_decodeData_capacity :
    seen (exec .decodeData (input .split .streamBoundary [0x41, 0xDB, 0xDC, 0xDB, 0xDD, 0x42] 4)) outView =
      some (4, bytes [0x41, 0xC0, 0xDB, 0x42]) ∧
    seen (exec .decodeData (input .split .streamBoundary [0x41, 0x42] 0)) outView = some (0, []) := by decide

/-- V-41-9 and V-L1-3: both operands are masked, and the port is the high nibble. -/
theorem test_pack :
    seen (exec .pack { start .split .streamBoundary with argCmd := 0x7F#8, argPort := 0x13#8 }) (·.resByte) =
      some 0x3F#8 ∧
    seen (exec .pack { start .split .streamBoundary with argCmd := 1#8, argPort := 2#8 }) (·.resByte) =
      some 0x21#8 := by decide

/-- R73 and V-41-12: the conventional 127 packs to Return, and an undefined code has no name. -/
theorem test_command_codes :
    commandOf (unpackByte (packByte 127#8 0#8)).1 = some .ret ∧ commandOf 7#4 = none ∧ commandOf 14#4 = none ∧
    (∀ c, commandOf (commandCode c) = some c) := by
  refine ⟨by decide, by decide, by decide, fun c => by cases c <;> decide⟩

/-- V-41-11. -/
theorem test_unpack :
    seen (exec .unpack { start .split .streamBoundary with argByte := 0xDB#8 }) (fun t => (t.resCmd, t.resPort)) =
      some (11#4, 13#4) := by decide

/-- V-42-4: the cut inside the frame under each policy. -/
theorem test_encodePacket_truncates :
    seen (exec .encodePacket (packet .split 0 0 [0x54, 0x45, 0x53, 0x54, 0xC0, 0xDB, 0xDB, 0xC0] 12)) outView =
      some (12, bytes [0xC0, 0x00, 0x54, 0x45, 0x53, 0x54, 0xDB, 0xDC, 0xDB, 0xDD, 0xDB, 0xC0]) ∧
    seen (exec .encodePacket (packet .atomic 0 0 [0x54, 0x45, 0x53, 0x54, 0xC0, 0xDB, 0xDB, 0xC0] 12)) outView =
      some (11, bytes [0xC0, 0x00, 0x54, 0x45, 0x53, 0x54, 0xDB, 0xDC, 0xDB, 0xDD, 0xC0]) := by decide

/-- V-42-7 and V-42-9. -/
theorem test_encodePacket_short :
    seen (exec .encodePacket (packet .split 6 1 [] 3)) outView = some (3, bytes [0xC0, 0x16, 0xC0]) ∧
    seen (exec .encodePacket (packet .split 0 0 [] 2)) (fun t => (t.result, t.outMem)) = some (0, []) := by decide

/-- V-43-5: under STREAM_BOUNDARY the front byte is the command, under BUFFER_DELIMITER it is skipped. -/
theorem test_decodePacket_front :
    seen (exec .decodePacket (input .split .streamBoundary [0x41, 0x42, 0xC0, 0x00, 0x43, 0xC0] 0)) pktView =
      some (3, true, ⟨1, 4, bytes [0x42]⟩) ∧
    seen (exec .decodePacket (input .split .bufferDelimiter [0x41, 0x42, 0xC0, 0x00, 0x43, 0xC0] 0)) pktView =
      some (6, true, ⟨0, 0, bytes [0x43]⟩) := by decide

/-- V-43-14: an incomplete frame sets the command byte's fields alone. -/
theorem test_decodePacket_incomplete :
    seen (exec .decodePacket (input .split .streamBoundary [0xC0, 0x35, 0x41] 0)) pktView =
      some (0, false, ⟨5, 3, []⟩) := by decide

/-- V-44-8 and V-44-2. -/
theorem test_pktInit :
    seen (exec .pktInit { start .split .streamBoundary with pktLen := 5, argCap := 4 }) (fun t => (t.pktCap, t.pktLen)) =
      some (4, 0) ∧
    refusal (exec .pktInit { start .split .streamBoundary with argCap := 33 }) = some .storageOverrun := by decide

/-- V-44-4. -/
theorem test_pktReset :
    seen (exec .pktReset { start .split .streamBoundary with
      pktCmd := 5#4, pktPort := 3#4, pktLen := 4, pktComplete := true, pktMem := cells [1, 2, 3, 4] })
      (fun t => (t.pktComplete, packetOf t, t.pktCap, t.pktMem)) =
      some (false, ⟨0, 0, []⟩, 16, cells [1, 2, 3, 4]) := by decide

/-! ### The host's side -/

/-- V-60-4, V-60-5, V-44-5: refused writes. -/
theorem test_host_refusals :
    refusal (step (pend (start .split .streamBoundary) [.writeReg 7 5])) = some .readOnlyRegister ∧
    refusal (step (pend (start .split .streamBoundary) [.writeReg 16 0])) = some .unknownRegister ∧
    refusal (step (pend (start .split .streamBoundary) [.writeReg 13 17])) = some .packetOverrun := by decide

/-- V-60-9, V-60-10, V-60-11: an unwritten byte refuses only when it is read. -/
theorem test_unwritten :
    refusal (exec .encodeData { start .split .streamBoundary with inLen := 1, outCap := 2 }) = some .unwrittenByte ∧
    refusal (exec .decodePacket { input .split .streamBoundary [0xC0, 0, 0xC0] 0 with inLen := 4 }) =
      some .unwrittenByte ∧
    seen (exec .decodePacket { input .split .streamBoundary [0xC0, 0, 0xC0, 5] 0 with inLen := 5 }) (·.result) =
      some 3 := by decide

/-- P3, step 4: `consume` moves the rest of the buffer to the front and leaves the bytes past it. -/
theorem test_consume :
    seen (step (pend { input .split .streamBoundary [0xC0, 0, 0x41, 0xC0, 0xC0, 5, 0x42] 0 with result := 5 }
      pseudoConsume)) (fun t => (t.inLen, writtenRun t .inp 0 7)) =
      some (2, bytes [5, 0x42, 0x41, 0xC0, 0xC0, 5, 0x42]) := by decide

/-- V-44-6: a host write keeps the low bits. -/
theorem test_host_write_truncates :
    seen (step (pend (start .split .streamBoundary) [wreg .pktCmd 0x7F])) (·.pktCmd) = some 15#4 := by decide

/-- The table's word runs as the first operation after reset. -/
theorem test_first_operation :
    seen (step (State.reset.withFetchWord 8 0x07)) (fun t => (t.opsel, t.pktCap)) = some (0x07#8, 0) := by decide

/-! ### Witnesses: for each obligation with hypotheses, states and operands that meet them -/

/-- Every state of the witnesses meets the invariant. -/
theorem inv_input (t : EncTrunc) (m : SeekMode) :
    StateInv (input t m [0xC0] 1) ∧ StateInv (input t m [0xC0] 2) ∧
    StateInv { input t m [0x41] 0 with inLen := 2 } ∧ StateInv (input t m [0xC0, 0, 0x41, 0xC0] 4) ∧
    StateInv (input t m [0xC0, 0, 0x41, 0xC0, 0xC0, 5] 4) ∧ StateInv (input t m [0xC0, 0, 0x41] 0) ∧
    StateInv { input t m [0xC0, 0, 0xC0] 0 with inLen := 4 } ∧
    StateInv { input t m [0xC0, 0, 0xC0, 5] 0 with inLen := 5 } ∧ StateInv (input t m [0xC0, 0xC0] 0) ∧
    StateInv (input t m [0xC0, 0xC0, 0xC0] 0) ∧ StateInv (input t m [0xC0, 0xC0, 0x41, 0xC0] 0) ∧
    StateInv (start t m) := by
  cases t <;> cases m <;>
    exact ⟨inv_of .encodeData (by decide), inv_of .encodeData (by decide), inv_of .encodeData (by decide),
      inv_of .encodeData (by decide), inv_of .encodeData (by decide), inv_of .encodeData (by decide),
      inv_of .encodeData (by decide), inv_of .encodeData (by decide), inv_of .encodeData (by decide),
      inv_of .encodeData (by decide), inv_of .encodeData (by decide), inv_of .encodeData (by decide)⟩

theorem inv_packet (t : EncTrunc) :
    StateInv (packet t 0 12 [0x41] 3) ∧ StateInv (packet t 0 12 [0x41] 4) ∧ StateInv (packet t 6 1 [0xC0] 5) ∧
    StateInv { packet t 0 0 [] 5 with pktLen := 2 } ∧ StateInv { packet t 0 0 [] 6 with pktLen := 2 } := by
  cases t <;>
    exact ⟨inv_of .encodeData (by decide), inv_of .encodeData (by decide), inv_of .encodeData (by decide),
      inv_of .encodeData (by decide), inv_of .encodeData (by decide)⟩

theorem witness_DecodeEncodeAgree : decode 0x07#8 = .ok .pktReset := by decide

/-- A value above a byte counts by its low byte. -/
theorem witness_OpselWriteRunsTheDecodedOperation :
    (pend (start .split .streamBoundary) [.writeReg 0 0x107]).pending = .writeReg 0 0x107 :: [] ∧
    decode (BitVec.ofNat 8 0x107) = .ok .pktReset ∧ decodeTableWord 8 0x00 = some .encodeData ∧
    decodeTableWord 8 0x07 = some .pktReset := by decide

/-- The values where the clauses meet: 0x07 runs, 0x08 and 0x0F are ReservedOp, 0x10 and 0xFF ReservedOpsel. -/
theorem witness_ReservedOpselWriteRefused :
    (pend (start .split .streamBoundary) [.writeReg 0 0x10]).pending = .writeReg 0 0x10 :: [] ∧
    opselRsv (BitVec.ofNat 8 0x10) ≠ 0#4 ∧ opselRsv (BitVec.ofNat 8 0xFF) ≠ 0#4 ∧
    (opselRsv (BitVec.ofNat 8 0x08) = 0#4 ∧ 8 ≤ (opselOp (BitVec.ofNat 8 0x08)).toNat) ∧
    (opselRsv (BitVec.ofNat 8 0x0F) = 0#4 ∧ 8 ≤ (opselOp (BitVec.ofNat 8 0x0F)).toNat) ∧
    (opselRsv (BitVec.ofNat 8 0x07) = 0#4 ∧ (opselOp (BitVec.ofNat 8 0x07)).toNat < 8) := by decide

theorem witness_IdleCoreKeepsItsState : State.reset.pending = [] := rfl

/-- The byte hypotheses of EscapeEncoderTable, DecoderByteStepTable, PendingEscapeBit, ScannerByteStepTable and
MalformedSequencesHaveAFixedMeaning. -/
theorem witness_byte_classes :
    ∃ b : Byte, b ≠ 0xC0#8 ∧ b ≠ 0xDB#8 ∧ b ≠ 0xDC#8 ∧ b ≠ 0xDD#8 := ⟨0xDE#8, by decide⟩

theorem witness_EncoderTruncationPolicies :
    (escAll (bytes [0xC0])).length ≤ 2 ∧ 1 ≤ (bytes [0xC0]).length ∧
    (escAll ((bytes [0xC0]).take 0)).length ≤ 1 := by decide

/-- All the input written, at the capacity that just cuts; and the output full before an unwritten byte. -/
theorem witness_EncodeDataResult :
    (StateInv (input .split .streamBoundary [0xC0] 1) ∧
      (input .split .streamBoundary [0xC0] 1).inLen ≤ 32 ∧ (input .split .streamBoundary [0xC0] 1).outCap ≤ 32 ∧
      (writtenRun (input .split .streamBoundary [0xC0] 1) .inp 0 1).length = 1) ∧
    StateInv { input .split .streamBoundary [0x41] 0 with inLen := 2 } ∧
    0 ≤ (escAll (writtenRun { input .split .streamBoundary [0x41] 0 with inLen := 2 } .inp 0 2)).length :=
  ⟨⟨(inv_input _ _).1, by decide⟩, (inv_input _ _).2.2.1, Nat.zero_le _⟩

/-- IN_LEN one above IN_SIZE; OUT_CAP one above OUT_SIZE; an unwritten byte with one byte of room. -/
theorem witness_EncodeDataRefusals :
    (config .split .streamBoundary).inSize < 33 ∧ (config .split .streamBoundary).outSize < 33 ∧
    (writtenRun { input .split .streamBoundary [0x41] 2 with inLen := 2 } .inp 0 2).length < 2 ∧
    (escAll (writtenRun { input .split .streamBoundary [0x41] 2 with inLen := 2 } .inp 0 2)).length < 2 := by decide

theorem witness_SizedEncodeNeverTruncates :
    StateInv (input .atomic .streamBoundary [0xC0] 2) ∧ 2 * (input .atomic .streamBoundary [0xC0] 2).inLen ≤ 2 ∧
    (writtenRun (input .atomic .streamBoundary [0xC0] 2) .inp 0 1).length = 1 := ⟨(inv_input _ _).2.1, by decide⟩

theorem witness_DecodeDataResult :
    (StateInv (input .split .streamBoundary [0xC0] 1) ∧
      (writtenRun (input .split .streamBoundary [0xC0] 1) .inp 0 1).length = 1) ∧
    StateInv { input .split .streamBoundary [0x41] 0 with inLen := 2 } ∧
    0 ≤ (dec (writtenRun { input .split .streamBoundary [0x41] 0 with inLen := 2 } .inp 0 2)).length :=
  ⟨⟨(inv_input _ _).1, by decide⟩, (inv_input _ _).2.2.1, Nat.zero_le _⟩

theorem witness_DecodeDataRefusals :
    (config .split .streamBoundary).inSize < 33 ∧ (config .split .streamBoundary).outSize < 33 ∧
    (writtenRun { input .split .streamBoundary [0x41] 2 with inLen := 2 } .inp 0 2).length < 2 ∧
    (dec (writtenRun { input .split .streamBoundary [0x41] 2 with inLen := 2 } .inp 0 2)).length < 2 := by decide

/-- [C0] is encoded to [DB DC], copied, and decoded in another state. -/
theorem witness_DecodeDataUndoesEncodeData :
    StateInv (input .split .streamBoundary [0xC0] 2) ∧
    (escAll (writtenRun (input .split .streamBoundary [0xC0] 2) .inp 0 1)).length ≤ 2 ∧
    seen (exec .encodeData (input .split .streamBoundary [0xC0] 2)) outView = some (2, bytes [0xDB, 0xDC]) ∧
    StateInv (input .split .streamBoundary [0xDB, 0xDC] 1) ∧
    writtenRun (input .split .streamBoundary [0xDB, 0xDC] 1) .inp 0 2 = bytes [0xDB, 0xDC] :=
  ⟨(inv_input _ _).2.1, by decide, by decide, inv_of .encodeData (by decide), by decide⟩

/-- One byte of payload: OUT_CAP 3 is one short of the framing; OUT_CAP 4 is enough; and an embedded capacity filled
before an unwritten byte. -/
theorem witness_EncodePacketResult :
    (StateInv (packet .split 0 12 [0x41] 3) ∧ 3 < (packet .split 0 12 [0x41] 3).pktLen + 3) ∧
    (StateInv (packet .split 0 12 [0x41] 4) ∧ (packet .split 0 12 [0x41] 4).pktLen + 3 ≤ 4 ∧
      (writtenRun (packet .split 0 12 [0x41] 4) .pkt 0 1).length = 1) ∧
    StateInv { packet .split 0 0 [0xC0] 5 with pktLen := 2 } ∧
    5 - 3 ≤ (escAll (writtenRun { packet .split 0 0 [0xC0] 5 with pktLen := 2 } .pkt 0 2)).length :=
  ⟨⟨(inv_packet _).1, by decide⟩, ⟨(inv_packet _).2.1, by decide⟩, inv_of .encodeData (by decide), by decide⟩

theorem witness_EncodePacketRefusals :
    (config .split .streamBoundary).outSize < 33 ∧ StateInv { packet .split 0 0 [] 5 with pktLen := 2 } ∧
    (writtenRun { packet .split 0 0 [] 5 with pktLen := 2 } .pkt 0 2).length < 2 ∧
    (escAll (writtenRun { packet .split 0 0 [] 5 with pktLen := 2 } .pkt 0 2)).length < 5 - 3 :=
  ⟨by decide, (inv_packet _).2.2.2.1, by decide, by decide⟩

theorem witness_SizedFrameIsExact :
    StateInv (packet .atomic 6 1 [0xC0] 5) ∧ 2 * (packet .atomic 6 1 [0xC0] 5).pktLen + 3 ≤ 5 ∧
    (writtenRun (packet .atomic 6 1 [0xC0] 5) .pkt 0 1).length = 1 := ⟨(inv_packet _).2.2.1, by decide, by decide⟩

theorem witness_FramerWritesNoPacketState :
    seen (exec .encodePacket (packet .split 0 12 [0x41] 4)) (·.result) = some 4 := by decide

/-- The colliding frame of an empty payload and of [41]. -/
theorem witness_DelimiterCommandByteBreaksTheFrame :
    (StateInv (input .split .streamBoundary [0xC0, 0xC0, 0xC0] 0) ∧
      writtenRun (input .split .streamBoundary [0xC0, 0xC0, 0xC0] 0) .inp 0 3 = frame 0#4 12#4 []) ∧
    StateInv (input .split .bufferDelimiter [0xC0, 0xC0, 0x41, 0xC0] 0) ∧
    writtenRun (input .split .bufferDelimiter [0xC0, 0xC0, 0x41, 0xC0] 0) .inp 0 4 = frame 0#4 12#4 (bytes [0x41]) ∧
    escAll (bytes [0x41]) = 0x41#8 :: [] :=
  ⟨⟨(inv_input _ _).2.2.2.2.2.2.2.2.2.1, by decide⟩, (inv_input _ _).2.2.2.2.2.2.2.2.2.2.1, by decide, by decide⟩

/-- Command at 1, close at 3: to the buffer's end; and with an unwritten byte past the byte that stops the scan. -/
theorem witness_DecodePacketFindsTheFrame :
    (StateInv (input .split .bufferDelimiter [0xC0, 0, 0x41, 0xC0] 4) ∧
      commandAt .bufferDelimiter (bytes [0xC0, 0, 0x41, 0xC0]) = some 1 ∧
      closeAt .bufferDelimiter (bytes [0xC0, 0, 0x41, 0xC0]) = some 3 ∧
      writtenRun (input .split .bufferDelimiter [0xC0, 0, 0x41, 0xC0] 4) .inp 0 4 = bytes [0xC0, 0, 0x41, 0xC0]) ∧
    StateInv { input .split .streamBoundary [0xC0, 0, 0xC0, 5] 0 with inLen := 5 } ∧
    writtenRun { input .split .streamBoundary [0xC0, 0, 0xC0, 5] 0 with inLen := 5 } .inp 0 5 =
      bytes [0xC0, 0, 0xC0, 5] ∧
    closeAt .streamBoundary (bytes [0xC0, 0, 0xC0, 5]) = some 2 ∧
    nextAt .streamBoundary (bytes [0xC0, 0, 0xC0, 5]) = some 3 :=
  ⟨⟨(inv_input _ _).2.2.2.1, by decide⟩, (inv_input _ _).2.2.2.2.2.2.2.1, by decide⟩

/-- Padding only; and a command byte with no closing delimiter. -/
theorem witness_DecodePacketFindsNoFrame :
    (StateInv (input .split .streamBoundary [0xC0, 0xC0] 0) ∧
      (writtenRun (input .split .streamBoundary [0xC0, 0xC0] 0) .inp 0 2).length = 2 ∧
      commandAt .streamBoundary (bytes [0xC0, 0xC0]) = none ∧ closeAt .streamBoundary (bytes [0xC0, 0xC0]) = none) ∧
    StateInv (input .split .bufferDelimiter [0xC0, 0, 0x41] 0) ∧
    (writtenRun (input .split .bufferDelimiter [0xC0, 0, 0x41] 0) .inp 0 3).length = 3 ∧
    commandAt .bufferDelimiter (bytes [0xC0, 0, 0x41]) = some 1 ∧
    closeAt .bufferDelimiter (bytes [0xC0, 0, 0x41]) = none :=
  ⟨⟨(inv_input _ _).2.2.2.2.2.2.2.2.1, by decide⟩, (inv_input _ _).2.2.2.2.2.1, by decide⟩

theorem witness_DecodePacketRefusals :
    (config .split .streamBoundary).inSize < 33 ∧
    StateInv { input .split .streamBoundary [0xC0, 0, 0xC0] 0 with inLen := 4 } ∧
    (writtenRun { input .split .streamBoundary [0xC0, 0, 0xC0] 0 with inLen := 4 } .inp 0 4).length < 4 ∧
    nextAt .streamBoundary (writtenRun { input .split .streamBoundary [0xC0, 0, 0xC0] 0 with inLen := 4 } .inp 0 4) =
      none :=
  ⟨by decide, (inv_input _ _).2.2.2.2.2.2.1, by decide, by decide⟩

/-- RESULT positive and below IN_LEN, under both seek modes; and RESULT at its least under each. -/
theorem witness_DecodePacketPostconditions :
    StateInv (input .split .streamBoundary [0xC0, 0, 0x41, 0xC0, 0xC0, 5] 4) ∧
    StateInv (input .split .bufferDelimiter [0xC0, 0, 0x41, 0xC0, 0xC0, 5] 4) ∧
    seen (exec .decodePacket (input .split .streamBoundary [0xC0, 0, 0x41, 0xC0, 0xC0, 5] 4)) (·.result) = some 5 ∧
    seen (exec .decodePacket (input .split .bufferDelimiter [0xC0, 0, 0x41, 0xC0, 0xC0, 5] 4)) (·.result) = some 5 ∧
    seen (exec .decodePacket (input .split .streamBoundary [0, 0xC0] 4)) (·.result) = some 2 ∧
    seen (exec .decodePacket (input .split .bufferDelimiter [0xC0, 0, 0xC0] 4)) (·.result) = some 3 :=
  ⟨(inv_input _ _).2.2.2.2.1, (inv_input _ _).2.2.2.2.1, by decide⟩

/-- No padding, and one byte of padding with a byte of the next frame. -/
theorem witness_FrameRoundTrip :
    packByte (zext8 0#4) (zext8 0#4) ≠ 0xC0#8 ∧
    (StateInv (input .split .streamBoundary [0xC0, 0, 0x41, 0xC0] 4) ∧
      writtenRun (input .split .streamBoundary [0xC0, 0, 0x41, 0xC0] 4) .inp 0 4 =
        [] ++ frame 0#4 0#4 (bytes [0x41]) ++ [] ++ []) ∧
    StateInv (input .split .bufferDelimiter [0xC0, 0, 0x41, 0xC0, 0xC0, 5] 4) ∧
    writtenRun (input .split .bufferDelimiter [0xC0, 0, 0x41, 0xC0, 0xC0, 5] 4) .inp 0 6 =
      [] ++ frame 0#4 0#4 (bytes [0x41]) ++ bytes [0xC0] ++ bytes [5] :=
  ⟨by decide, ⟨(inv_input _ _).2.2.2.1, by decide⟩, (inv_input _ _).2.2.2.2.1, by decide⟩

/-- The frame of the first buffer is found again in the second, which goes on with padding and a byte; and a buffer with
no frame. -/
theorem witness_PartialDataSafety :
    StateInv (input .split .streamBoundary [0xC0, 0, 0x41, 0xC0] 4) ∧
    seen (exec .decodePacket (input .split .streamBoundary [0xC0, 0, 0x41, 0xC0] 4)) (·.result) = some 4 ∧
    StateInv (input .split .streamBoundary [0xC0, 0, 0x41, 0xC0, 0xC0, 5] 4) ∧
    (writtenRun (input .split .streamBoundary [0xC0, 0, 0x41, 0xC0, 0xC0, 5] 4) .inp 0 6).length = 6 ∧
    writtenRun (input .split .streamBoundary [0xC0, 0, 0x41, 0xC0, 0xC0, 5] 4) .inp 0 4 =
      writtenRun (input .split .streamBoundary [0xC0, 0, 0x41, 0xC0] 4) .inp 0 4 ∧
    seen (exec .decodePacket (input .split .streamBoundary [0xC0, 0, 0x41] 0)) (·.result) = some 0 :=
  ⟨(inv_input _ _).2.2.2.1, by decide, (inv_input _ _).2.2.2.2.1, by decide, by decide, by decide⟩

/-- A stream of two frames that is longer than the buffer, cut inside the first and between the second's delimiters; and
cut into single bytes, each of which fits beside any of the frames. -/
theorem witness_StreamOfFramesIsDecodedInOrder :
    StateInv (narrow .streamBoundary) ∧ (narrow .streamBoundary).cfg.seekMode = .streamBoundary ∧
    (narrow .streamBoundary).inLen = 0 ∧ (∀ f ∈ twoFrames, packByte (zext8 f.cmd) (zext8 f.port) ≠ 0xC0#8) ∧
    ([bytes [0xC0, 0], bytes [0x41, 0xC0, 0xC0], bytes [5, 0xC0]].flatten = streamOf twoFrames ∧
      5 < (streamOf twoFrames).length ∧
      appendsFit [bytes [0xC0, 0], bytes [0x41, 0xC0, 0xC0], bytes [5, 0xC0]] (narrow .streamBoundary) = true) ∧
    ((streamOf twoFrames).map fun b => [b]).flatten = streamOf twoFrames ∧
    (∀ f ∈ twoFrames, ∀ ch ∈ (streamOf twoFrames).map fun b => [b],
      (frame f.cmd f.port f.payload).length + ch.length ≤ (narrow .streamBoundary).cfg.inSize) ∧
    (streamOf twoFrames).length ≤ (start .split .streamBoundary).cfg.inSize :=
  ⟨inv_of .encodeData (by decide), by decide⟩

/-- ARG_CAP at PKT_SIZE and one above it. -/
theorem witness_PktInitResult :
    StateInv { start .split .streamBoundary with argCap := 32 } ∧
    ({ start .split .streamBoundary with argCap := 32 } : State).argCap ≤ (config .split .streamBoundary).pktSize ∧
    (config .split .streamBoundary).pktSize < 33 := ⟨inv_of .encodeData (by decide), by decide, by decide⟩

/-- OperationsWriteOnlyWhatTheyName and WritesStayBelowTheCapacity: a next state, and a byte that changes in each
memory an operation writes. -/
theorem witness_operations_write :
    seen (exec .encodeData (input .split .streamBoundary [0xC0] 1)) (byteAt · .out 0) = some (some 0xDB#8) ∧
    byteAt (input .split .streamBoundary [0xC0] 1) .out 0 = none ∧
    seen (exec .decodePacket (input .split .streamBoundary [0xC0, 0, 0x41, 0xC0] 4)) (byteAt · .pkt 0) =
      some (some 0x41#8) ∧
    byteAt (input .split .streamBoundary [0xC0, 0, 0x41, 0xC0] 4) .pkt 0 = none := by decide

/-- The completion clauses of WritesStayBelowTheCapacity, at OUT_CAP = 0 and OUT_CAP = OUT_SIZE. -/
theorem witness_WritesStayBelowTheCapacity :
    StateInv (input .split .streamBoundary [0xC0] 0) ∧ StateInv (input .split .streamBoundary [0xC0] 32) ∧
    (writtenRun (input .split .streamBoundary [0xC0] 0) .inp 0 1).length = 1 ∧
    (StateInv (packet .split 0 12 [0x41] 32) ∧ (writtenRun (packet .split 0 12 [0x41] 32) .pkt 0 1).length = 1) :=
  ⟨inv_of .encodeData (by decide), inv_of .encodeData (by decide), by decide, inv_of .encodeData (by decide), by decide⟩

theorem witness_BytesBeyondTheCountAreUnchanged :
    StateInv (input .split .streamBoundary [0xC0] 1) ∧
    seen (exec .encodeData (input .split .streamBoundary [0xC0] 1)) (·.result) = some 1 ∧
    seen (exec .decodeData (input .split .streamBoundary [0xC0] 1)) (·.result) = some 1 ∧
    seen (exec .encodePacket (packet .split 0 12 [0x41] 4)) (·.result) = some 4 ∧
    StateInv (input .split .streamBoundary [0xC0, 0, 0x41, 0xC0] 4) ∧
    seen (exec .decodePacket (input .split .streamBoundary [0xC0, 0, 0x41, 0xC0] 4))
      (fun t => (t.pktComplete, t.pktLen)) = some (true, 1) :=
  ⟨(inv_input _ _).1, by decide, by decide, by decide, (inv_input _ _).2.2.2.1, by decide⟩

theorem witness_OperationsIgnoreOtherRegisters :
    Reg.argByte ∉ readsOf .encodeData ∧ Reg.argByte ∉ writesOf .encodeData ∧
    seen (exec .encodeData (input .split .streamBoundary [0xC0] 1)) (·.result) = some 1 ∧
    refusal (exec .encodeData { start .split .streamBoundary with inLen := 33 }) = some .inputOverrun := by decide

/-- The bounds are met: [C0] takes 1 read and 2 writes; a frame of one byte 1 read and 4 writes; a scan of four bytes 5
reads and 1 write. -/
theorem witness_ByteStepBounds :
    byteSteps .encodeData (input .split .streamBoundary [0xC0] 2) = some ⟨1, 2⟩ ∧
    byteSteps .decodeData (input .split .streamBoundary [0xC0] 2) = some ⟨1, 1⟩ ∧
    byteSteps .encodePacket (packet .split 0 12 [0x41] 4) = some ⟨1, 4⟩ ∧
    byteSteps .decodePacket (input .split .streamBoundary [0xC0, 0, 0x41, 0xC0] 4) = some ⟨5, 1⟩ := by decide

/-- A truncated expansion and a whole decoding; no frame, a whole one and one with its payload cut; no frame found, and
one whose payload is whole. -/
theorem witness_ResultsShowTruncation :
    (StateInv (input .split .streamBoundary [0xC0] 1) ∧
      (writtenRun (input .split .streamBoundary [0xC0] 1) .inp 0 1).length = 1 ∧
      seen (exec .encodeData (input .split .streamBoundary [0xC0] 1)) (·.result) = some 1) ∧
    (StateInv (input .split .streamBoundary [0xC0] 2) ∧
      seen (exec .decodeData (input .split .streamBoundary [0xC0] 2)) (·.result) = some 1) ∧
    (StateInv (packet .split 0 12 [0x41] 3) ∧
      seen (exec .encodePacket (packet .split 0 12 [0x41] 3)) (·.result) = some 0) ∧
    (StateInv (packet .split 0 12 [0x41] 4) ∧
      seen (exec .encodePacket (packet .split 0 12 [0x41] 4)) (·.result) = some 4) ∧
    (StateInv (packet .split 0 0 [0xC0] 4) ∧ (writtenRun (packet .split 0 0 [0xC0] 4) .pkt 0 1).length = 1 ∧
      seen (exec .encodePacket (packet .split 0 0 [0xC0] 4)) outView = some (4, bytes [0xC0, 0, 0xDB, 0xC0])) ∧
    (StateInv (input .split .streamBoundary [0xC0, 0, 0x41] 0) ∧
      seen (exec .decodePacket (input .split .streamBoundary [0xC0, 0, 0x41] 0)) (·.result) = some 0) ∧
    StateInv (input .split .streamBoundary [0xC0, 0, 0x41, 0xC0] 4) ∧
    seen (exec .decodePacket (input .split .streamBoundary [0xC0, 0, 0x41, 0xC0] 4))
      (fun t => (t.pktComplete, t.pktLen, t.pktCap)) = some (true, 1, 16) :=
  ⟨⟨(inv_input _ _).1, by decide, by decide⟩, ⟨(inv_input _ _).2.1, by decide⟩, ⟨(inv_packet _).1, by decide⟩,
    ⟨(inv_packet _).2.1, by decide⟩, ⟨inv_of .encodeData (by decide), by decide⟩,
    ⟨(inv_input _ _).2.2.2.2.2.1, by decide⟩, (inv_input _ _).2.2.2.1, by decide⟩

/-- PKT_LEN at PKT_CAP, IN_LEN beyond its width, and the other writable registers. -/
theorem witness_HostRegisterWrite :
    StateInv (pend (start .split .streamBoundary) [.writeReg 13 16]) ∧ regOfIndex 13 = some .pktLen ∧
    16 ≤ (start .split .streamBoundary).pktCap ∧
    StateInv (pend (start .split .streamBoundary) [.writeReg 1 256]) ∧ regOfIndex 1 = some .inLen ∧
    ∀ r ∈ [Reg.inLen, .outCap, .argCmd, .argPort, .argByte, .argCap, .pktCmd, .pktPort, .pktLen],
      r ≠ .opsel ∧ r ∉ [Reg.result, .resByte, .resCmd, .resPort, .pktCap, .pktComplete] ∧
      regOfIndex (regIndex r) = some r :=
  ⟨inv_of .encodeData (by decide), by decide, by decide, inv_of .encodeData (by decide), by decide⟩

/-- Index 16; each read-only register; PKT_LEN one above PKT_CAP. -/
theorem witness_HostRegisterRefusals :
    (pend (start .split .streamBoundary) [.writeReg 16 0]).pending = .writeReg 16 0 :: [] ∧
    (pend (start .split .streamBoundary) [.readReg 16]).pending = .readReg 16 :: [] ∧ 15 < 16 ∧
    (pend (start .split .streamBoundary) [.writeReg (regIndex .result) 5]).pending =
      .writeReg (regIndex .result) 5 :: [] ∧
    (pend (start .split .streamBoundary) [.writeReg 13 17]).pending = .writeReg 13 17 :: [] ∧
    (start .split .streamBoundary).pktCap < 17 := by decide

theorem witness_HostRegisterRead :
    (pend (start .split .streamBoundary) [.readReg 15]).pending = .readReg 15 :: [] ∧
    regOfIndex 15 = some .pktComplete := by decide

/-- The first index that names no register, and a state that satisfies the invariant. -/
theorem witness_RegisterMap : 15 < 16 ∧ StateInv (start .split .streamBoundary) :=
  ⟨by decide, (inv_input _ _).2.2.2.2.2.2.2.2.2.2.2⟩

/-- The last byte of OUT_MEM, nothing at all past its end, and one byte too many. -/
theorem witness_HostMemoryWrite :
    (pend (start .split .streamBoundary) [.writeMem .out 31 [1#8]]).pending = .writeMem .out 31 [1#8] :: [] ∧
    31 + [1#8].length ≤ spaceSize (config .split .streamBoundary) .out ∧
    (pend (start .split .streamBoundary) [.writeMem .out 33 []]).pending = .writeMem .out 33 [] :: [] ∧
    ([1#8, 2#8] : List Byte) ≠ [] ∧
    spaceSize (config .split .streamBoundary) .out < 31 + [1#8, 2#8].length := by decide

/-- A written byte, an unwritten one at the last offset, the same offset read twice, and the first offset that does not
exist. -/
theorem witness_HostMemoryRead :
    (pend (input .split .streamBoundary [0x41] 0) [.readMem .inp 0]).pending = .readMem .inp 0 :: [] ∧
    0 < spaceSize (config .split .streamBoundary) .inp ∧
    byteAt (pend (input .split .streamBoundary [0x41] 0) [.readMem .inp 0]) .inp 0 = some 0x41#8 ∧
    31 < spaceSize (config .split .streamBoundary) .inp ∧
    byteAt (pend (input .split .streamBoundary [0x41] 0) [.readMem .inp 31]) .inp 31 = none ∧
    seen (step (pend (input .split .streamBoundary [0x41] 0) [.readMem .inp 31, .readMem .inp 31])) (·.pending) =
      some (.readMem .inp 31 :: []) ∧
    spaceSize (config .split .streamBoundary) .inp ≤ 32 := by decide

/-- All of the buffer, at IN_SIZE and, with no byte to move, above it; a move from bytes that do not exist; and one more
than the buffer holds. -/
theorem witness_HostShift :
    (StateInv (pend { start .split .streamBoundary with inLen := 32 } [.shift (.lit 1)]) ∧
      shiftCount { start .split .streamBoundary with inLen := 32 } (.lit 1) ≤ 32) ∧
    (StateInv (pend { start .split .streamBoundary with inLen := 33 } [.shift (.lit 33)]) ∧
      shiftCount { start .split .streamBoundary with inLen := 33 } (.lit 33) = 33) ∧
    (StateInv (pend { start .split .streamBoundary with inLen := 33 } [.shift (.lit 32)]) ∧
      shiftCount { start .split .streamBoundary with inLen := 33 } (.lit 32) < 33 ∧
      (config .split .streamBoundary).inSize < 33) ∧
    StateInv (pend (input .split .streamBoundary [0x41, 0x42] 0) [.shift (.lit 3)]) ∧
    2 < shiftCount (input .split .streamBoundary [0x41, 0x42] 0) (.lit 3) :=
  ⟨⟨inv_of .encodeData (by decide), by decide⟩, ⟨inv_of .encodeData (by decide), by decide⟩,
    ⟨inv_of .encodeData (by decide), by decide⟩, inv_of .encodeData (by decide), by decide⟩

/-- The last byte that fits, nothing appended past the end, and one byte too many. -/
theorem witness_HostAppend :
    (StateInv (pend { start .split .streamBoundary with inLen := 31 } [.append [1#8]]) ∧
      31 + [1#8].length ≤ (config .split .streamBoundary).inSize) ∧
    StateInv (pend { start .split .streamBoundary with inLen := 33 } [.append []]) ∧
    StateInv (pend { start .split .streamBoundary with inLen := 32 } [.append [1#8]]) ∧
    (config .split .streamBoundary).inSize < 32 + [1#8].length :=
  ⟨⟨inv_of .encodeData (by decide), by decide⟩, inv_of .encodeData (by decide), inv_of .encodeData (by decide),
    by decide⟩

/-- PacketInvariantAtAllTimes: each premise. -/
theorem witness_PacketInvariantAtAllTimes :
    PacketInv (pend (start .split .streamBoundary) [wreg .pktLen 16]) ∧
    seen (step (pend (start .split .streamBoundary) [wreg .pktLen 16])) (·.pktLen) = some 16 ∧
    (start .split .streamBoundary).pktCap < 17 ∧ (config .split .streamBoundary).pktSize < 33 ∧
    seen (exec .decodePacket (input .split .streamBoundary [0xC0, 0, 0x41, 0xC0] 4)) (·.pktComplete) = some true :=
  ⟨⟨by decide, by decide⟩, by decide⟩

theorem witness_PowerOnSatisfiesTheInvariant : (config .atomic .bufferDelimiter).wellFormed = true := by decide

/-- EveryStepKeepsTheInvariant, OnlyPktInitChangesTheCapacity and OnlyPacketOperationsChangeComplete: a step that
changes PKT_CAP, and one that sets and one that clears PKT_COMPLETE. -/
theorem witness_steps :
    StateInv (pend { start .split .streamBoundary with argCap := 4 } [opStmt .pktInit]) ∧
    seen (step (pend { start .split .streamBoundary with argCap := 4 } [opStmt .pktInit])) (·.pktCap) = some 4 ∧
    seen (step (pend (input .split .streamBoundary [0xC0, 0, 0xC0] 0) [opStmt .decodePacket])) (·.pktComplete) =
      some true ∧
    seen (step (pend { start .split .streamBoundary with pktComplete := true } [opStmt .pktReset])) (·.pktComplete) =
      some false := ⟨inv_of .encodeData (by decide), by decide⟩

/-- Three frames in a narrow buffer: no chunk ends where the first one does. The packets are the first and the third. -/
theorem witness_BufferDelimiterLosesEverySecondFrame :
    StateInv (narrow .bufferDelimiter) ∧ (narrow .bufferDelimiter).cfg.seekMode = .bufferDelimiter ∧
    (narrow .bufferDelimiter).inLen = 0 ∧ (∀ f ∈ threeFrames, packByte (zext8 f.cmd) (zext8 f.port) ≠ 0xC0#8) ∧
    [bytes [0xC0, 0, 0x41, 0xC0, 0xC0], bytes [5, 0xC0], bytes [0xC0, 0x16, 0xC0]].flatten = streamOf threeFrames ∧
    appendsFit [bytes [0xC0, 0, 0x41, 0xC0, 0xC0], bytes [5, 0xC0], bytes [0xC0, 0x16, 0xC0]]
      (narrow .bufferDelimiter) = true ∧
    everySecond threeFrames = [⟨0, 0, bytes [0x41]⟩, ⟨6, 1, []⟩] ∧
    ∀ n i, ([bytes [0xC0, 0, 0x41, 0xC0, 0xC0], bytes [5, 0xC0], bytes [0xC0, 0x16, 0xC0]].take n).flatten =
      streamOf (threeFrames.take (2 * i + 1)) → threeFrames.length ≤ 2 * i + 1 := by
  refine ⟨inv_of .encodeData (by decide), by decide, by decide, by decide, by decide, by decide, by decide,
    fun n i h => ?_⟩
  cases i with
  | succ i => exact (by decide : threeFrames.length ≤ 3).trans (by omega)
  | zero =>
    rcases n with _ | _ | _ | n
    · exact absurd h (by decide)
    · exact absurd h (by decide)
    · exact absurd h (by decide)
    · rw [List.take_of_length_le (by simp)] at h
      exact absurd h (by decide)

/-- A step that ends in a next state and one that is refused, from states that keep the packet invariant. -/
theorem witness_NoStepFaults :
    PacketInv (pend (start .split .streamBoundary) [.readMem .inp 32]) ∧
    refusal (step (pend (start .split .streamBoundary) [.readMem .inp 32])) = some .absentOffset ∧
    PacketInv (input .split .streamBoundary [0xC0] 1) ∧
    seen (exec .encodeData (input .split .streamBoundary [0xC0] 1)) (·.result) = some 1 :=
  ⟨⟨by decide, by decide⟩, by decide, ⟨by decide, by decide⟩, by decide⟩

end Sys2Proof.Tests
end

