-- ==== Sys2Proof/Proofs/PendingEscape.lean ====
section
/-! PROOF. The decoder's pending-escape bit (10_state.md R35). -/

namespace Sys2Proof.Machine

/-- An ESC emits nothing and sets PEND, whatever PEND was. -/
@[simp] theorem decStep_ESC (pend : Bool) : decStep pend ESC = (none, true) := if_pos rfl

/-- PEND after a byte step says whether that byte was an ESC. -/
theorem decStep_pend_iff (pend : Bool) (b : Byte) : (decStep pend b).2 = true ↔ b = ESC := by
  unfold decStep
  split
  case isTrue h => simp [h]
  case isFalse h =>
    split
    · simp [h]
    · split <;> simp [h]

/-- An ESC at the end of the input adds nothing to the output: its PEND is dropped (40_escape_codec.md R106). -/
theorem decFrom_append_ESC (pend : Bool) (x : List Byte) : decFrom pend (x ++ [ESC]) = decFrom pend x := by
  induction x generalizing pend with
  | nil => simp
  | cons b x ih => simp only [List.cons_append, decFrom_cons, ih]

/-- Settles O11: the byte step's clauses are `decStep_pend_iff`; the end of the input goes by induction. -/
theorem pendingEscapeBit : Obligations.PendingEscapeBit := by
  unfold Obligations.PendingEscapeBit
  refine ⟨fun _ => rfl, fun pend => (decStep_pend_iff pend _).2 rfl, fun pend b hb => ?_, decFrom_append_ESC false⟩
  exact Bool.eq_false_iff.2 fun h => hb ((decStep_pend_iff pend b).1 h)

end Sys2Proof.Machine
end

