-- ==== Sys2Proof/Proofs/HostInversion.lean ====
section
/-! PROOF. What each compound host action that ends in a next state has done. -/

namespace Sys2Proof.Machine

/-- Starting an operation ends only as the decoded operation does, with OPSEL set. -/
theorem startOperation_eq_next {s t : State} {v : Nat} :
    startOperation s v = .next t ↔ ∃ i, decode (BitVec.ofNat 8 v) = .ok i ∧ exec i (regSet s .opsel v) = .next t := by
  unfold startOperation
  split
  case h_1 i hi => simp [hi]
  case h_2 he => simp [he, refuse]
  case h_3 he => simp [he, refuse]

/-- Everything a host register write can do: it starts an operation, or it sets a writable register, PKT_LEN to no more
than PKT_CAP. -/
theorem hostWriteReg_next {s t : State} {idx v : Nat} (h : hostWriteReg s idx v = .next t) :
    (idx = regIndex .opsel ∧ startOperation s v = .next t) ∨
    ∃ r, idx = regIndex r ∧ regReadOnly r = false ∧ r ≠ .opsel ∧ (r = .pktLen → v ≤ s.pktCap) ∧ t = regSet s r v := by
  unfold hostWriteReg at h
  split at h
  · cases h
  case h_2 r hr =>
    have hidx := regIndex_of_regOfIndex hr
    split at h
    · cases h
    case isFalse hro =>
      split at h
      case isTrue hop => exact .inl ⟨hop ▸ hidx, h⟩
      case isFalse hop =>
        split at h
        · cases h
        case isFalse hlen =>
          cases h
          exact .inr ⟨r, hidx, by simpa using hro, hop, fun hr => Nat.le_of_not_lt fun hv => hlen ⟨hr, hv⟩, rfl⟩

/-- Everything a host register read can do. -/
theorem hostReadReg_next {s t : State} {idx : Nat} (h : hostReadReg s idx = .next t) :
    ∃ r, idx = regIndex r ∧ t = { s with readData := regRead s r } := by
  unfold hostReadReg at h
  split at h
  · cases h
  case h_2 r hr =>
    cases h
    exact ⟨r, regIndex_of_regOfIndex hr, rfl⟩

/-- Everything a host memory read can do. -/
theorem hostReadMem_next {s t : State} {sp : Space} {a : Nat} (h : hostReadMem s sp a = .next t) :
    a < spaceSize s.cfg sp ∧ t = { s with readData := (hostByte s sp a).toNat } := by
  obtain ⟨b, hb, ht⟩ := andThen_eq_next.1 h
  obtain ⟨ha, rfl⟩ := hostReadByte_eq_next.1 hb
  cases ht
  exact ⟨ha, rfl⟩

/-- Everything a shift can do: it changes IN_MEM and takes what it drops from IN_LEN. -/
theorem hostShift_next {s t : State} {k : Nat} (h : hostShift s k = .next t) :
    k ≤ s.inLen ∧ ∃ m, t = regSet { s with inMem := m } .inLen (s.inLen - k) := by
  unfold hostShift at h
  split at h
  case isTrue hk =>
    obtain ⟨s', hmove, ht⟩ := andThen_eq_next.1 h
    have hs' := (hostMoveDown_next hmove).1
    cases ht
    exact ⟨hk, s'.inMem, by rw [← hs']⟩
  · cases h

/-- Everything an append can do: it puts the bytes in IN_MEM from IN_LEN on and adds their count to IN_LEN. -/
theorem hostAppend_next {s t : State} {bytes : List Byte} (h : hostAppend s bytes = .next t) :
    t = regSet (putBytes s .inp s.inLen bytes) .inLen (s.inLen + bytes.length) := by
  obtain ⟨s', hw, ht⟩ := andThen_eq_next.1 h
  obtain ⟨-, rfl⟩ := hostWriteBytes_eq_next.1 hw
  cases ht
  rfl

/-- A step that ends is an idle one or the host's first pending action. -/
theorem step_next {s t : State} (h : step s = .next t) :
    (s.pending = [] ∧ t = s) ∨
    ∃ act rest, s.pending = act :: rest ∧ hostAct { s with pending := rest } act = .next t := by
  cases hp : s.pending with
  | nil =>
    simp only [step, hostTurn, hp] at h
    cases h
    exact .inl ⟨rfl, rfl⟩
  | cons act rest => exact .inr ⟨act, rest, rfl, step_of_pending hp ▸ h⟩

end Sys2Proof.Machine
end

