-- ==== Sys2Proof/Proofs/PacketInvariant.lean ====
section
/-! PROOF. The packet invariant (10_state.md R29): the updates that keep it, then the scan, then every operation and
every host action. -/

namespace Sys2Proof.Machine

/-! ### The updates that keep it -/

/-- The packet invariant depends on PKT_LEN, PKT_CAP and the parameters alone. -/
theorem packetInv_congr {s t : State} (hcfg : t.cfg = s.cfg) (hlen : regRead t .pktLen = regRead s .pktLen)
    (hcap : regRead t .pktCap = regRead s .pktCap) : PacketInv t ↔ PacketInv s := by
  simp only [regRead] at hlen hcap
  rw [PacketInv, PacketInv, hcfg, hlen, hcap]

theorem packetInv_putBytes {s : State} {sp : Space} {a : Nat} {vs : List Byte} :
    PacketInv (putBytes s sp a vs) ↔ PacketInv s :=
  packetInv_congr (putBytes_keeps_cfg ..) (regRead_putBytes ..) (regRead_putBytes ..)

theorem packetInv_regSet {s : State} {r : Reg} {v : Nat} (hlen : r ≠ .pktLen) (hcap : r ≠ .pktCap) :
    PacketInv (regSet s r v) ↔ PacketInv s :=
  packetInv_congr (regSet_keeps_cfg ..) (regRead_regSet_other _ _ hlen.symm) (regRead_regSet_other _ _ hcap.symm)

/-- PKT_LEN may take any value up to PKT_CAP: cut to CNT_W bits it does not grow. -/
theorem PacketInv.regSet_pktLen {s : State} {v : Nat} (h : PacketInv s) (hv : v ≤ s.pktCap) :
    PacketInv (regSet s .pktLen v) := ⟨(toCount_le _ _).trans hv, h.2⟩

/-- With PKT_LEN cleared, PKT_CAP may take any value up to PKT_SIZE. -/
theorem packetInv_packetReset_regSet_pktCap {s : State} {v : Nat} (hv : v ≤ s.cfg.pktSize) :
    PacketInv (packetReset (regSet s .pktCap v)) := by
  rw [packetReset_eq]
  exact ⟨Nat.zero_le _, (toCount_le _ _).trans hv⟩

theorem PacketInv.packetReset {s : State} (h : PacketInv s) : PacketInv (packetReset s) := by
  rw [packetReset_eq]
  exact ⟨Nat.zero_le _, h.2⟩

/-! ### What the scan writes in PKT_LEN -/

/-- A completed frame leaves PKT_LEN at most PKT_CAP, which it keeps. -/
theorem completeFrame_next {s t : State} {start plen : Nat} {d : Decoder}
    (h : completeFrame s start plen = .next (t, d)) : t.pktLen ≤ s.pktCap ∧ t.pktCap = s.pktCap := by
  obtain ⟨⟨s', u⟩, hdec, ht⟩ := andThen_eq_next.1 h
  obtain ⟨T, rfl, -, hj, -⟩ := decodeLoop_puts _ _ _ (Nat.zero_le _) hdec
  cases ht
  exact ⟨(toCount_le _ _).trans hj, regRead_putBytes s .pkt _ T .pktCap⟩

/-- Reaching the end of the buffer writes neither PKT_LEN nor PKT_COMPLETE. -/
theorem scanEnd_keeps (st : ScanSt) (s : State) :
    (scanEnd st s).pktLen = s.pktLen ∧ (scanEnd st s).pktComplete = s.pktComplete := by
  cases st <;> exact ⟨rfl, rfl⟩

/-- A scan that ends leaves PKT_LEN and PKT_COMPLETE as they were, or has completed a frame, and then PKT_LEN is at most
PKT_CAP. -/
theorem scanLoop_pktLen (k : Nat) (u : Scanner) (s : State) {t : State} {u' : Scanner}
    (h : scanLoop k u s = .next (t, u')) :
    (t.pktLen = s.pktLen ∧ t.pktComplete = s.pktComplete) ∨ t.pktLen ≤ s.pktCap := by
  induction k generalizing u s with
  | zero =>
    cases h
    exact .inl (scanEnd_keeps _ s)
  | succ k ih =>
    obtain ⟨b, -, h⟩ := andThen_eq_next.1 h
    split at h
    case h_1 => exact ih _ _ h
    case h_2 => simpa only [takeCommand_eq] using ih _ _ h
    case h_3 => exact ih _ _ h
    case h_4 =>
      obtain ⟨⟨s', d⟩, hframe, h⟩ := andThen_eq_next.1 h
      obtain ⟨hlen, hcap⟩ := completeFrame_next hframe
      rcases ih _ _ h with ⟨he, -⟩ | hle
      · exact .inr (he ▸ hlen)
      · exact .inr (hcap ▸ hle)
    case h_5 =>
      cases h
      exact .inl ⟨rfl, rfl⟩

/-- A DECODE_PACKET that ends keeps PKT_LEN, with PKT_COMPLETE clear, or leaves PKT_LEN at most PKT_CAP. -/
theorem execDecodePacket_pktLen {s t : State} (h : execDecodePacket s = .next t) :
    (t.pktLen = s.pktLen ∧ t.pktComplete = false) ∨ t.pktLen ≤ s.pktCap := by
  obtain ⟨p, hrun, ht⟩ := andThen_eq_next.1 h
  unfold runDecodePacket at hrun
  split at hrun
  · cases hrun
  obtain ⟨⟨t', u'⟩, hscan, hp⟩ := andThen_eq_next.1 hrun
  cases hp
  cases ht
  exact scanLoop_pktLen _ _ (clearComplete s) hscan

/-! ### Every operation, host action and step keeps it -/

theorem execDecodePacket_keeps_packetInv {s t : State} (hs : PacketInv s) (h : execDecodePacket s = .next t) :
    PacketInv t := by
  have hregs := (execDecodePacket_frame h).regs
  have hcap : t.pktCap = s.pktCap := by rw [hregs]
  have hcfg : t.cfg = s.cfg := by rw [hregs]
  obtain ⟨hlen, hsize⟩ := hs
  refine ⟨?_, by rwa [hcap, hcfg]⟩
  rw [hcap]
  rcases execDecodePacket_pktLen h with ⟨he, -⟩ | hle
  · exact he ▸ hlen
  · exact hle

/-- An operation that only puts bytes and sets RESULT keeps the packet invariant. -/
theorem packetInv_putBytes_result {s : State} {sp : Space} {a v : Nat} {vs : List Byte} (hs : PacketInv s) :
    PacketInv (regSet (putBytes s sp a vs) .result v) :=
  (packetInv_regSet (by decide) (by decide)).2 (packetInv_putBytes.2 hs)

theorem exec_keeps_packetInv {i : Instr} {s t : State} (hs : PacketInv s) (h : exec i s = .next t) : PacketInv t := by
  cases i with
  | encodeData =>
    obtain ⟨T, rfl, -⟩ := execEncodeData_next h
    exact packetInv_putBytes_result hs
  | decodeData =>
    obtain ⟨T, rfl, -⟩ := execDecodeData_next h
    exact packetInv_putBytes_result hs
  | pack =>
    cases h
    exact (packetInv_regSet (by decide) (by decide)).2 hs
  | unpack =>
    cases h
    exact (packetInv_regSet (by decide) (by decide)).2 ((packetInv_regSet (by decide) (by decide)).2 hs)
  | encodePacket =>
    obtain ⟨T, rfl, -⟩ := execEncodePacket_next h
    exact packetInv_putBytes_result hs
  | decodePacket => exact execDecodePacket_keeps_packetInv hs h
  | pktInit =>
    simp only [exec, execPktInit] at h
    split at h
    · cases h
    case isFalse hcap =>
      cases h
      exact packetInv_packetReset_regSet_pktCap (Nat.le_of_not_lt hcap)
  | pktReset =>
    cases h
    exact hs.packetReset

/-- A host write keeps it: PKT_CAP is read-only, and PKT_LEN takes no value above PKT_CAP. -/
theorem hostWriteReg_keeps_packetInv {s t : State} {idx v : Nat} (hs : PacketInv s)
    (h : hostWriteReg s idx v = .next t) : PacketInv t := by
  rcases hostWriteReg_next h with ⟨-, hop⟩ | ⟨r, -, hro, -, hlen, rfl⟩
  · obtain ⟨i, -, hexec⟩ := startOperation_eq_next.1 hop
    exact exec_keeps_packetInv ((packetInv_regSet (by decide) (by decide)).2 hs) hexec
  · have hcap : r ≠ .pktCap := by
      rintro rfl
      cases hro
    by_cases hr : r = .pktLen
    · subst hr
      exact hs.regSet_pktLen (hlen rfl)
    · exact (packetInv_regSet hr hcap).2 hs

theorem hostAct_keeps_packetInv {s t : State} {act : HostAction} (hs : PacketInv s) (h : hostAct s act = .next t) :
    PacketInv t := by
  cases act with
  | writeReg idx v => exact hostWriteReg_keeps_packetInv hs h
  | readReg idx =>
    obtain ⟨r, -, rfl⟩ := hostReadReg_next h
    exact hs
  | writeMem sp off bytes =>
    obtain ⟨-, rfl⟩ := hostWriteBytes_eq_next.1 h
    exact packetInv_putBytes.2 hs
  | readMem sp off =>
    obtain ⟨-, rfl⟩ := hostReadMem_next h
    exact hs
  | shift k =>
    obtain ⟨-, m, rfl⟩ := hostShift_next h
    exact hs
  | append bytes =>
    rw [hostAppend_next h, packetInv_regSet (by decide) (by decide), packetInv_putBytes]
    exact hs

theorem step_keeps_packetInv {s t : State} (hs : PacketInv s) (h : step s = .next t) : PacketInv t := by
  rcases step_next h with ⟨-, rfl⟩ | ⟨act, rest, -, hact⟩
  · exact hs
  · exact hostAct_keeps_packetInv (s := { s with pending := rest }) hs hact

/-! ### The two refusals -/

/-- A host write of PKT_LEN above PKT_CAP is refused. -/
theorem hostWriteReg_pktLen_above {s : State} {v : Nat} (h : s.pktCap < v) :
    hostWriteReg s (regIndex .pktLen) v = .refused .packetOverrun := by
  simp [hostWriteReg, regIndex, regOfIndex, regReadOnly, h, refuse]

/-- PKT_INIT with ARG_CAP above PKT_SIZE is refused. -/
theorem execPktInit_above {s : State} (h : s.cfg.pktSize < s.argCap) :
    execPktInit s = .refused .storageOverrun := if_pos h

/-- Settles O54: every step keeps the invariant because the scan writes PKT_LEN only with a value up to PKT_CAP. -/
theorem packetInvariantAtAllTimes : Obligations.PacketInvariantAtAllTimes := by
  unfold Obligations.PacketInvariantAtAllTimes
  refine ⟨fun c => ⟨le_rfl, Nat.zero_le _⟩, fun s t => step_keeps_packetInv, fun s v rest hp hv => ?_,
    fun s => execPktInit_above, fun s t h hcomplete => ?_⟩
  · exact (step_of_pending hp).trans (hostWriteReg_pktLen_above hv)
  · rcases execDecodePacket_pktLen h with ⟨-, hclear⟩ | hle
    · exact absurd (hclear.symm.trans hcomplete) (by decide)
    · exact hle

end Sys2Proof.Machine
end

