-- ==== Sys2Proof/Proofs/Completion.lean ====
section
/-! PROOF. Where each storing operation ends in a next state, and in which: the loops' laws put together into whole
calls. -/

namespace Sys2Proof.Machine

/-! ### The two units -/

/-- EncodeInto inside two spaces puts the closed form's bytes and counts them, when all its input is written or its
output fills first (40_escape_codec.md R101). -/
theorem encodeInto_ends {s : State} {src dst : Space} {a n o cap : Nat} (hsd : src ≠ dst)
    (hsrc : a + n ≤ spaceSize s.cfg src) (hdst : o + cap ≤ spaceSize s.cfg dst)
    (h : (writtenRun s src a n).length = n ∨ cap ≤ (escAll (writtenRun s src a n)).length) :
    ∃ u, encodeInto s src a n dst o cap =
        .next (putBytes s dst o (encFit s.cfg.encTrunc cap (writtenRun s src a n)), u) ∧
      u.j = (encFit s.cfg.encTrunc cap (writtenRun s src a n)).length := by
  obtain ⟨u, hloop, hj, -⟩ :=
    (encodeLoop_spec hsd n { i := 0, j := 0, reads := 0, writes := 0 } s (Nat.zero_le cap) hdst hsrc).1 h
  exact ⟨u, hloop, by rw [hj]; exact Nat.zero_add _⟩

/-- DecodeInto inside two spaces puts the closed form's bytes and counts them, when all its input is written or its
output fills first (40_escape_codec.md R107). -/
theorem decodeInto_ends {s : State} {src dst : Space} {a n o cap : Nat} (hsd : src ≠ dst)
    (hsrc : a + n ≤ spaceSize s.cfg src) (hdst : o + cap ≤ spaceSize s.cfg dst)
    (h : (writtenRun s src a n).length = n ∨ cap ≤ (dec (writtenRun s src a n)).length) :
    ∃ u, decodeInto s src a n dst o cap = .next (putBytes s dst o ((dec (writtenRun s src a n)).take cap), u) ∧
      u.j = ((dec (writtenRun s src a n)).take cap).length := by
  obtain ⟨u, hloop, hj, -⟩ :=
    (decodeLoop_spec hsd n { i := 0, j := 0, pend := false, reads := 0, writes := 0 } s (Nat.zero_le cap) hdst hsrc).1 h
  exact ⟨u, hloop, by rw [hj]; exact Nat.zero_add _⟩

/-! ### ENCODE_DATA and DECODE_DATA -/

/-- ENCODE_DATA ends when all its input is written or its output fills first. -/
theorem execEncodeData_ends {s : State} (hin : s.inLen ≤ s.cfg.inSize) (hout : s.outCap ≤ s.cfg.outSize)
    (h : (writtenRun s .inp 0 s.inLen).length = s.inLen ∨
      s.outCap ≤ (escAll (writtenRun s .inp 0 s.inLen)).length) :
    execEncodeData s =
      .next (regSet (putBytes s .out 0 (encFit s.cfg.encTrunc s.outCap (writtenRun s .inp 0 s.inLen))) .result
        (encFit s.cfg.encTrunc s.outCap (writtenRun s .inp 0 s.inLen)).length) := by
  obtain ⟨u, hrun, hj⟩ := encodeInto_ends (s := s) (src := .inp) (dst := .out) (a := 0) (o := 0) (by decide)
    (by simpa [spaceSize] using hin) (by simpa [spaceSize] using hout) h
  rw [execEncodeData, runEncodeData, if_neg (Nat.not_lt.2 hin), if_neg (Nat.not_lt.2 hout), hrun, andThen_next,
    andThen_next, hj]

/-- DECODE_DATA ends when all its input is written or its output fills first. -/
theorem execDecodeData_ends {s : State} (hin : s.inLen ≤ s.cfg.inSize) (hout : s.outCap ≤ s.cfg.outSize)
    (h : (writtenRun s .inp 0 s.inLen).length = s.inLen ∨ s.outCap ≤ (dec (writtenRun s .inp 0 s.inLen)).length) :
    execDecodeData s =
      .next (regSet (putBytes s .out 0 ((dec (writtenRun s .inp 0 s.inLen)).take s.outCap)) .result
        ((dec (writtenRun s .inp 0 s.inLen)).take s.outCap).length) := by
  obtain ⟨u, hrun, hj⟩ := decodeInto_ends (s := s) (src := .inp) (dst := .out) (a := 0) (o := 0) (by decide)
    (by simpa [spaceSize] using hin) (by simpa [spaceSize] using hout) h
  rw [execDecodeData, runDecodeData, if_neg (Nat.not_lt.2 hin), if_neg (Nat.not_lt.2 hout), hrun, andThen_next,
    andThen_next, hj]

/-! ### ENCODE_PACKET -/

/-- With OUT_CAP too small for the framing ENCODE_PACKET ends with RESULT = 0 (42_packet_framer.md R151). -/
theorem execEncodePacket_short {s : State} (hout : s.outCap ≤ s.cfg.outSize) (h : s.outCap < s.pktLen + 3) :
    execEncodePacket s = .next (regSet s .result 0) := by
  rw [execEncodePacket, runEncodePacket, if_neg (Nat.not_lt.2 hout), if_pos h, andThen_next]

/-- What ENCODE_PACKET writes before the payload (42_packet_framer.md R151): the delimiter and the command byte. -/
def frameHead (s : State) : List Byte := [FEND, packByte (zext8 s.pktCmd) (zext8 s.pktPort)]

/-- What ENCODE_PACKET writes of the payload `y`: the embedded encoder gets OUT_CAP - 3 bytes (R151). -/
def frameBody (s : State) (y : List Byte) : List Byte := encFit s.cfg.encTrunc (s.outCap - 3) y

/-- With room for the framing ENCODE_PACKET ends when all its payload is written or its output fills first. -/
theorem execEncodePacket_ends {s : State} (hpkt : PacketInv s) (hout : s.outCap ≤ s.cfg.outSize)
    (hroom : s.pktLen + 3 ≤ s.outCap)
    (h : (writtenRun s .pkt 0 s.pktLen).length = s.pktLen ∨
      s.outCap - 3 ≤ (escAll (writtenRun s .pkt 0 s.pktLen)).length) :
    execEncodePacket s =
      .next (regSet (putBytes s .out 0 (frameHead s ++ frameBody s (writtenRun s .pkt 0 s.pktLen) ++ [FEND])) .result
        ((frameBody s (writtenRun s .pkt 0 s.pktLen)).length + 3)) := by
  have hw {u : State} {a : Nat} (b : Byte) (hu : u.cfg = s.cfg) (ha : a < s.outCap) :
      memWrite u .out a b = .next (putByte u .out a b) :=
    memWrite_below b (hu ▸ Nat.lt_of_lt_of_le ha hout)
  have hhead : putByte (putByte s .out 0 FEND) .out 1 (packByte (zext8 s.pktCmd) (zext8 s.pktPort)) =
    putBytes s .out 0 (frameHead s) := rfl
  have hbody := encodeInto_ends (s := putBytes s .out 0 (frameHead s)) (src := .pkt) (dst := .out) (a := 0)
    (n := s.pktLen) (o := 2) (cap := s.outCap - 3) (by decide)
  simp only [putBytes_keeps_cfg, writtenRun_putBytes_other s (show Space.pkt ≠ .out by decide)] at hbody
  obtain ⟨u, hrun, hj⟩ := hbody (by rw [Nat.zero_add]; exact hpkt.1.trans hpkt.2)
    (by simp only [spaceSize]; omega) h
  have hfit := encFit_length_le s.cfg.encTrunc (s.outCap - 3) (writtenRun s .pkt 0 s.pktLen)
  rw [execEncodePacket, runEncodePacket, if_neg (Nat.not_lt.2 hout), if_neg (Nat.not_lt.2 hroom),
    hw _ rfl (by omega), andThen_next, hw _ (putByte_keeps_cfg ..) (by omega), andThen_next, hhead, hrun, andThen_next,
    hj, hw _ (by rw [putBytes_keeps_cfg, putBytes_keeps_cfg]) (by omega), andThen_next, andThen_next,
    putBytes_append, putBytes_append, List.length_append, Nat.zero_add, Nat.zero_add]
  rfl

/-- An ENCODE_PACKET of a written payload ends in a next state at every capacity OUT_MEM can hold. -/
theorem execEncodePacket_written {s : State} (hpkt : PacketInv s) (hout : s.outCap ≤ s.cfg.outSize)
    (h : (writtenRun s .pkt 0 s.pktLen).length = s.pktLen) : ∃ t, execEncodePacket s = .next t := by
  rcases Nat.lt_or_ge s.outCap (s.pktLen + 3) with hshort | hroom
  · exact ⟨_, execEncodePacket_short hout hshort⟩
  · exact ⟨_, execEncodePacket_ends hpkt hout hroom (.inl h)⟩

/-! ### DECODE_PACKET -/

/-- A DECODE_PACKET on a buffer that exists is the scan. -/
theorem execDecodePacket_eq_scan {s : State} (hin : s.inLen ≤ s.cfg.inSize) :
    execDecodePacket s = scanOutcome (scanLoop s.inLen (scanStart s.cfg.seekMode) (clearComplete s)) := by
  rw [execDecodePacket, runDecodePacket, if_neg (Nat.not_lt.2 hin), scanOutcome]
  cases scanLoop s.inLen (scanStart s.cfg.seekMode) (clearComplete s) <;> rfl

theorem writtenRun_clearComplete (s : State) (sp : Space) (a n : Nat) :
    writtenRun (clearComplete s) sp a n = writtenRun s sp a n :=
  writtenRun_congr n fun _ _ => regSet_keeps_byteAt s 0 .pktComplete sp _

/-- Under STREAM_BOUNDARY a DECODE_PACKET starts in SEEK (43_stream_decoder.md R173). -/
theorem execDecodePacket_streamBoundary {s : State} (hin : s.inLen ≤ s.cfg.inSize) (hcap : s.pktCap ≤ s.cfg.pktSize)
    (hm : s.cfg.seekMode = .streamBoundary) :
    execDecodePacket s = seekEnd (clearComplete s) 0 s.inLen (writtenRun s .inp 0 s.inLen) := by
  rw [execDecodePacket_eq_scan hin, hm, ← writtenRun_clearComplete]
  exact scan_seek (s := clearComplete s) s.inLen (scanStart .streamBoundary) rfl
    (by simpa [scanStart, clearComplete] using hin) hcap

/-- Under BUFFER_DELIMITER a DECODE_PACKET starts in HUNT (43_stream_decoder.md R173). -/
theorem execDecodePacket_bufferDelimiter {s : State} (hin : s.inLen ≤ s.cfg.inSize) (hcap : s.pktCap ≤ s.cfg.pktSize)
    (hm : s.cfg.seekMode = .bufferDelimiter) :
    execDecodePacket s = huntEnd (clearComplete s) 0 s.inLen (writtenRun s .inp 0 s.inLen) := by
  rw [execDecodePacket_eq_scan hin, hm, ← writtenRun_clearComplete]
  exact scan_hunt (s := clearComplete s) s.inLen (scanStart .bufferDelimiter) rfl
    (by simpa [scanStart, clearComplete] using hin) hcap

/-! The scan of a buffer that is written to its end reaches a next state from every scanner state. -/

theorem trailEnd_written {s : State} {i k : Nat} {y : List Byte} (h : y.length = k) :
    ∃ t, trailEnd s i k y = .next t := by
  unfold trailEnd
  split
  · exact ⟨_, rfl⟩
  · exact ⟨_, if_pos h⟩

theorem inframeEnd_written {s : State} {i k : Nat} {y : List Byte} (h : y.length = k) :
    ∃ t, inframeEnd s i k y = .next t := by
  unfold inframeEnd
  split
  · exact trailEnd_written (by rw [List.length_drop, h])
  · exact ⟨_, if_pos h⟩

theorem seekEnd_written {s : State} {i k : Nat} {y : List Byte} (h : y.length = k) :
    ∃ t, seekEnd s i k y = .next t := by
  unfold seekEnd
  split
  · exact inframeEnd_written (by rw [List.length_drop, h])
  · exact ⟨_, if_pos h⟩

theorem huntEnd_written {s : State} {i k : Nat} {y : List Byte} (h : y.length = k) :
    ∃ t, huntEnd s i k y = .next t := by
  unfold huntEnd
  split
  · exact seekEnd_written (by rw [List.length_drop, h])
  · exact ⟨_, if_pos h⟩

/-- A DECODE_PACKET on a written buffer ends in a next state at every capacity PKT_MEM can hold. -/
theorem execDecodePacket_written {s : State} (hin : s.inLen ≤ s.cfg.inSize) (hcap : s.pktCap ≤ s.cfg.pktSize)
    (h : (writtenRun s .inp 0 s.inLen).length = s.inLen) : ∃ t, execDecodePacket s = .next t := by
  cases hm : s.cfg.seekMode with
  | streamBoundary =>
    rw [execDecodePacket_streamBoundary hin hcap hm]
    exact seekEnd_written h
  | bufferDelimiter =>
    rw [execDecodePacket_bufferDelimiter hin hcap hm]
    exact huntEnd_written h

end Sys2Proof.Machine
end

