-- ==== Sys2Proof/Proofs/WriteBounds.lean ====
section
/-! PROOF. The write bounds of 20_memory.md R56. -/

namespace Sys2Proof.Machine

/-- Only a byte that was put can change. -/
theorem lt_of_byteAt_putBytes_ne {s : State} {sp sp' : Space} {a b : Nat} {vs : List Byte}
    (h : byteAt (putBytes s sp a vs) sp' b ≠ byteAt s sp' b) : sp' = sp ∧ a ≤ b ∧ b < a + vs.length := by
  by_contra hout
  refine h (byteAt_putBytes_other s vs ?_)
  by_cases hsp : sp' = sp
  · exact .inr (by simp only [hsp, true_and] at hout; omega)
  · exact .inl hsp

@[simp] theorem packetReset_keeps_byteAt (s : State) (sp : Space) (a : Nat) :
    byteAt (packetReset s) sp a = byteAt s sp a := by simp only [packetReset, clearComplete, regSet_keeps_byteAt]

/-- Everything a PKT_INIT can do (44_packet_control.md R201). -/
theorem execPktInit_eq_next {s t : State} :
    execPktInit s = .next t ↔ s.argCap ≤ s.cfg.pktSize ∧ t = packetReset (regSet s .pktCap s.argCap) := by
  unfold execPktInit refuse
  split
  case isTrue h => simp [Nat.not_le.2 h]
  case isFalse h => simp [Nat.le_of_not_lt h, eq_comm]

/-- Within the scan's frame only bytes of PKT_MEM below PKT_CAP can change. -/
theorem ScanFrame.lt_of_byteAt_ne {s t : State} (h : ScanFrame s t) {sp : Space} {a : Nat}
    (hne : byteAt t sp a ≠ byteAt s sp a) : sp = .pkt ∧ a < s.pktCap := by
  have hregs := h.regs
  cases sp with
  | inp => exact absurd (by rw [hregs]; rfl) hne
  | out => exact absurd (by rw [hregs]; rfl) hne
  | pkt => exact ⟨rfl, Nat.lt_of_not_le fun ha => hne (h.above a ha)⟩

/-- Putting up to OUT_CAP bytes in OUT_MEM from offset 0 and setting RESULT changes no byte elsewhere. -/
theorem lt_outCap_of_byteAt_ne {s : State} {T : List Byte} {v : Nat} (hT : T.length ≤ s.outCap) {sp : Space} {a : Nat}
    (hne : byteAt (regSet (putBytes s .out 0 T) .result v) sp a ≠ byteAt s sp a) : sp = .out ∧ a < s.outCap := by
  rw [regSet_keeps_byteAt] at hne
  obtain ⟨hsp, -, ha⟩ := lt_of_byteAt_putBytes_ne hne
  exact ⟨hsp, by omega⟩

/-- Every operation writes OUT_MEM below OUT_CAP or PKT_MEM below PKT_CAP alone. -/
theorem exec_writes_below {i : Instr} {s t : State} (h : exec i s = .next t) {sp : Space} {a : Nat}
    (hne : byteAt t sp a ≠ byteAt s sp a) : (sp = .out ∧ a < s.outCap) ∨ (sp = .pkt ∧ a < s.pktCap) := by
  cases i with
  | encodeData =>
    obtain ⟨T, rfl, hT, -⟩ := execEncodeData_next h
    exact .inl (lt_outCap_of_byteAt_ne hT hne)
  | decodeData =>
    obtain ⟨T, rfl, hT, -⟩ := execDecodeData_next h
    exact .inl (lt_outCap_of_byteAt_ne hT hne)
  | encodePacket =>
    obtain ⟨T, rfl, hT, -⟩ := execEncodePacket_next h
    exact .inl (lt_outCap_of_byteAt_ne hT hne)
  | decodePacket => exact .inr ((execDecodePacket_frame h).lt_of_byteAt_ne hne)
  | pack =>
    cases h
    exact absurd (regSet_keeps_byteAt ..) hne
  | unpack =>
    cases h
    exact absurd (by rw [regSet_keeps_byteAt, regSet_keeps_byteAt]) hne
  | pktInit =>
    obtain ⟨-, rfl⟩ := execPktInit_eq_next.1 h
    exact absurd (by rw [packetReset_keeps_byteAt, regSet_keeps_byteAt]) hne
  | pktReset =>
    cases h
    exact absurd (packetReset_keeps_byteAt ..) hne

/-- Settles O42: the bounds are read off what each operation's run puts; completion off the laws of the loops, whose
capacity only limits what is put. -/
theorem writesStayBelowTheCapacity : Obligations.WritesStayBelowTheCapacity := by
  unfold Obligations.WritesStayBelowTheCapacity
  refine ⟨fun i s t h sp a => exec_writes_below h, fun s hs => ⟨fun hin hw => ⟨fun hout => ⟨?_, ?_⟩, ?_⟩, ?_⟩⟩
  · exact ⟨_, execEncodeData_ends hin hout (.inl hw)⟩
  · exact ⟨_, execDecodeData_ends hin hout (.inl hw)⟩
  · exact execDecodePacket_written hin hs.packet.2 hw
  · exact execEncodePacket_written hs.packet

end Sys2Proof.Machine
end

