-- ==== Sys2Proof/Proofs/MalformedSequences.lean ====
section
/-! PROOF. The fixed meaning of each malformed or unusual escape sequence (30_encoding.md R75). -/

namespace Sys2Proof.Machine

/-- A byte that is neither ESC nor a marker is a literal, whatever PEND is (40_escape_codec.md R105). -/
theorem decStep_of_ne_markers {b : Byte} (pend : Bool) (hesc : b ≠ ESC) (hfend : b ≠ TFEND) (htfesc : b ≠ TFESC) :
    decStep pend b = (some b, false) := by simp only [decStep, if_neg hesc, if_neg hfend, if_neg htfesc]

/-- With PEND clear only ESC has a special meaning: the two markers are literals too. -/
theorem decStep_false_of_ne_ESC {b : Byte} (hesc : b ≠ ESC) : decStep false b = (some b, false) := by
  by_cases hfend : b = TFEND
  · subst hfend; rfl
  by_cases htfesc : b = TFESC
  · subst htfesc; rfl
  exact decStep_of_ne_markers false hesc hfend htfesc

/-- A byte step that emits and clears PEND leaves the decoder at the start again. -/
theorem decFrom_cons_of_emit {pend : Bool} {b c : Byte} (h : decStep pend b = (some c, false)) (x : List Byte) :
    decFrom pend (b :: x) = c :: dec x := by
  rw [decFrom_cons, h]; rfl

/-- An ESC drops out of the output and leaves PEND set, also when PEND was set before. -/
theorem decFrom_ESC_cons (pend : Bool) (x : List Byte) : decFrom pend (ESC :: x) = decFrom true x := by
  rw [decFrom_cons, decStep_ESC]; rfl

/-- With PEND clear a byte other than ESC stands for itself. -/
theorem dec_cons_of_ne_ESC {b : Byte} (hesc : b ≠ ESC) (x : List Byte) : dec (b :: x) = b :: dec x :=
  decFrom_cons_of_emit (decStep_false_of_ne_ESC hesc) x

/-- After an ESC, a byte that is neither ESC nor a marker is a literal, and the ESC is dropped. -/
theorem dec_ESC_cons_of_ne_markers {b : Byte} (hesc : b ≠ ESC) (hfend : b ≠ TFEND) (htfesc : b ≠ TFESC)
    (x : List Byte) : dec (ESC :: b :: x) = b :: dec x :=
  (decFrom_ESC_cons false _).trans (decFrom_cons_of_emit (decStep_of_ne_markers true hesc hfend htfesc) x)

/-- The second of two ESCs is pending just as a single one is. -/
theorem dec_ESC_ESC_cons (x : List Byte) : dec (ESC :: ESC :: x) = dec (ESC :: x) :=
  calc decFrom false (ESC :: ESC :: x)
    _ = decFrom true (ESC :: x) := decFrom_ESC_cons false _
    _ = decFrom true x := decFrom_ESC_cons true x
    _ = decFrom false (ESC :: x) := (decFrom_ESC_cons false x).symm

/-- Settles O12: an ESC before a literal or another ESC is dropped (`dec_ESC_cons_of_ne_markers`, `dec_ESC_ESC_cons`), as
is one at the end; the markers and FEND without an ESC before them are cases of `dec_cons_of_ne_ESC`. -/
theorem malformedSequencesHaveAFixedMeaning : Obligations.MalformedSequencesHaveAFixedMeaning := by
  unfold Obligations.MalformedSequencesHaveAFixedMeaning
  exact ⟨fun _ x hfend htfesc hesc => dec_ESC_cons_of_ne_markers hesc hfend htfesc x, dec_ESC_ESC_cons,
    decFrom_append_ESC false, dec_cons_of_ne_ESC (by decide), dec_cons_of_ne_ESC (by decide),
    dec_cons_of_ne_ESC (by decide)⟩

end Sys2Proof.Machine
end

section
/-! PROOF. The tables of the escape encoder and of the decoder's byte step (40_escape_codec.md R100, R105). -/

namespace Sys2Proof.Machine

@[simp] theorem esc_FEND : esc FEND = [ESC, TFEND] := if_pos rfl

@[simp] theorem esc_ESC : esc ESC = [ESC, TFESC] := rfl

/-- A byte that is neither FEND nor ESC is encoded as itself. -/
theorem esc_of_ne {b : Byte} (hfend : b ≠ FEND) (hesc : b ≠ ESC) : esc b = [b] := by
  simp only [esc, if_neg hfend, if_neg hesc]

/-- Settles O7: the table is `esc`'s three cases; that no state passes between bytes is `escAll_append`. -/
theorem escapeEncoderTable : Obligations.EscapeEncoderTable := by
  unfold Obligations.EscapeEncoderTable
  exact ⟨esc_FEND, esc_ESC, fun _ => esc_of_ne, fun b => List.append_nil (esc b), escAll_append⟩

/-- With PEND set TFEND is the second half of an escaped FEND (R105). -/
@[simp] theorem decStep_true_TFEND : decStep true TFEND = (some FEND, false) := rfl

/-- With PEND set TFESC is the second half of an escaped ESC (R105). -/
@[simp] theorem decStep_true_TFESC : decStep true TFESC = (some ESC, false) := rfl

/-- Settles O10: the ESC rows are `decStep_ESC`, the markers' rows depend on PEND, and the last row is
`decStep_of_ne_markers`. -/
theorem decoderByteStepTable : Obligations.DecoderByteStepTable := by
  unfold Obligations.DecoderByteStepTable
  exact ⟨decStep_ESC false, decStep_ESC true, decStep_true_TFEND, decStep_false_of_ne_ESC (by decide),
    decStep_true_TFESC, decStep_false_of_ne_ESC (by decide), fun pend _ => decStep_of_ne_markers pend⟩

end Sys2Proof.Machine
end

section
/-! PROOF. The round trip (40_escape_codec.md R109): decoding undoes encoding, on byte sequences and as operations. -/

namespace Sys2Proof.Machine

/-! ### Byte sequences -/

/-- The decoder reads the expansion of one byte back as that byte, and is at its start again. -/
theorem dec_esc_append (b : Byte) (y : List Byte) : dec (esc b ++ y) = b :: dec y := by
  by_cases hfend : b = FEND
  · subst hfend
    rw [esc_FEND]
    exact (decFrom_ESC_cons false _).trans (decFrom_cons_of_emit decStep_true_TFEND y)
  by_cases hesc : b = ESC
  · subst hesc
    rw [esc_ESC]
    exact (decFrom_ESC_cons false _).trans (decFrom_cons_of_emit decStep_true_TFESC y)
  rw [esc_of_ne hfend hesc]
  exact dec_cons_of_ne_ESC hesc y

/-- Dec(Esc(x)) = x (R109). -/
theorem dec_escAll (x : List Byte) : dec (escAll x) = x := by
  induction x with
  | nil => rfl
  | cons b x ih => rw [escAll_cons, dec_esc_append, ih]

/-- Where the whole expansion fits, both policies write all of it (R102). -/
theorem encFit_of_fits (t : EncTrunc) {c : Nat} {x : List Byte} (h : (escAll x).length ≤ c) :
    encFit t c x = escAll x := by
  induction x generalizing c with
  | nil => rfl
  | cons b x ih =>
    rw [escAll_cons, List.length_append] at h
    have hrest : encFit t (c - (esc b).length) x = escAll x := ih (by omega)
    simp only [encFit, if_pos (show (esc b).length ≤ c by omega), hrest, escAll_cons]

/-! ### The two operations -/

/-- Bytes that fit OUT_MEM, put from its start and counted in RESULT, are the RESULT bytes that the host finds there. -/
theorem written_of_putBytes_result {s t : State} {T : List Byte} (hcfg : s.cfg.wellFormed = true)
    (hT : T.length ≤ s.cfg.outSize) (ht : t = regSet (putBytes s .out 0 T) .result T.length) :
    t.result = T.length ∧ writtenRun t .out 0 t.result = T := by
  have hres : t.result = T.length := by
    rw [ht, regSet_result, putBytes_keeps_cfg]
    exact toCount_eq hcfg (.inr (.inl hT))
  have hbytes : writtenRun t .out 0 T.length = writtenRun (putBytes s .out 0 T) .out 0 T.length :=
    writtenRun_congr _ fun k _ => by rw [ht, regSet_keeps_byteAt]
  exact ⟨hres, by rw [hres, hbytes, writtenRun_putBytes]⟩

/-- An ENCODE_DATA whose output has room for the expansion writes all of it (R101, R102). -/
theorem exec_encodeData_of_fits {s : State} {x : List Byte} (hs : StateInv s) (hin : s.inLen ≤ s.cfg.inSize)
    (hx : x = writtenRun s .inp 0 s.inLen) (hlen : x.length = s.inLen) (hfit : (escAll x).length ≤ s.outCap)
    (hout : s.outCap ≤ s.cfg.outSize) :
    ∃ t, exec .encodeData s = .next t ∧ t.result = (escAll x).length ∧ writtenRun t .out 0 t.result = escAll x := by
  subst hx
  have hrun := execEncodeData_ends hin hout (.inl hlen)
  rw [encFit_of_fits _ hfit] at hrun
  exact ⟨_, hrun, written_of_putBytes_result hs.cfg (hfit.trans hout) rfl⟩

/-- A DECODE_DATA whose output has room for the decoding writes all of it (R107). -/
theorem exec_decodeData_of_fits {s : State} {y : List Byte} (hs : StateInv s) (hin : s.inLen ≤ s.cfg.inSize)
    (hy : y = writtenRun s .inp 0 s.inLen) (hlen : y.length = s.inLen) (hfit : (dec y).length ≤ s.outCap)
    (hout : s.outCap ≤ s.cfg.outSize) :
    ∃ t, exec .decodeData s = .next t ∧ t.result = (dec y).length ∧ writtenRun t .out 0 t.result = dec y := by
  subst hy
  have hrun := execDecodeData_ends hin hout (.inl hlen)
  rw [List.take_of_length_le hfit] at hrun
  exact ⟨_, hrun, written_of_putBytes_result hs.cfg (hfit.trans hout) rfl⟩

/-- Settles O20: ENCODE_DATA leaves Esc(x) in OUT_MEM, the copy of it is DECODE_DATA's input, and `dec_escAll` gives back
`x`. -/
theorem decodeDataUndoesEncodeData : Obligations.DecodeDataUndoesEncodeData := by
  unfold Obligations.DecodeDataUndoesEncodeData
  refine ⟨dec_escAll, fun s x hs hin hx hlen hfit hout => ?_⟩
  obtain ⟨t, hrun, hres, hwritten⟩ := exec_encodeData_of_fits hs hin hx hlen hfit hout
  refine ⟨t, hrun, hres, fun u hu huLen huIn hcopy huFit huOut => ?_⟩
  have hinput : escAll x = writtenRun u .inp 0 u.inLen := by
    rw [← hwritten, huLen]
    exact writtenRun_congr _ fun k hk => by simpa using (hcopy k hk).symm
  have hdec := exec_decodeData_of_fits hu huIn hinput (hres.symm.trans huLen.symm)
    (by rwa [dec_escAll]) huOut
  rwa [dec_escAll] at hdec

end Sys2Proof.Machine
end

section
/-! PROOF. The command/port bit-packer (41_command_codec.md): pack as arithmetic and bit by bit, then the operations PACK
and UNPACK. -/

namespace Sys2Proof.Machine

/-! ### The packing function -/

/-- Masking with 0x0F keeps the low nibble. -/
theorem and_0x0F_toNat (b : Byte) : (b &&& 0x0F#8).toNat = b.toNat % 16 :=
  Nat.and_two_pow_sub_one_eq_mod b.toNat 4

/-- pack as arithmetic (R130): the two masked operands are the digits, base 16, of the packed byte. -/
theorem packByte_toNat (c p : Byte) : (packByte c p).toNat = p.toNat % 16 * 16 + c.toNat % 16 := by
  have hc : c.toNat % 16 < 2 ^ 4 := Nat.mod_lt _ (by decide)
  have hfit : (p.toNat % 16) <<< 4 < 2 ^ 8 := by rw [Nat.shiftLeft_eq]; omega
  rw [packByte, BitVec.toNat_or, BitVec.toNat_shiftLeft, and_0x0F_toNat, and_0x0F_toNat, Nat.mod_eq_of_lt hfit,
    ← Nat.shiftLeft_add_eq_or_of_lt hc, Nat.shiftLeft_eq]

/-- result[7:4] = p[3:0] (R130). -/
theorem packByte_high (c p : Byte) : (packByte c p).extractLsb' 4 4 = p.extractLsb' 0 4 := by
  apply BitVec.eq_of_toNat_eq
  rw [BitVec.extractLsb'_toNat, BitVec.extractLsb'_toNat, packByte_toNat, Nat.shiftRight_eq_div_pow]
  omega

/-- result[3:0] = c[3:0] (R130). -/
theorem packByte_low (c p : Byte) : (packByte c p).extractLsb' 0 4 = c.extractLsb' 0 4 := by
  apply BitVec.eq_of_toNat_eq
  rw [BitVec.extractLsb'_toNat, BitVec.extractLsb'_toNat, packByte_toNat]
  omega

/-- Settles O21: `packByte_toNat` makes the operands the digits of the result, and its two nibbles are those digits. -/
theorem packMasksBothOperands : Obligations.PackMasksBothOperands := by
  unfold Obligations.PackMasksBothOperands
  exact ⟨fun c p => ⟨packByte_toNat c p, packByte_high c p, packByte_low c p⟩, by decide⟩

/-! ### The two operations -/

/-- PACK in every state (R131): a packed byte fills RES_BYTE, so the register's width cuts nothing off. -/
theorem exec_pack (s : State) : exec .pack s = .next { s with resByte := packByte s.argCmd s.argPort } := by
  simp only [exec, execPack, regSet_resByte, BitVec.ofNat_toNat, BitVec.setWidth_eq]

/-- Settles O22: `exec_pack`, with pack's formula written out. -/
theorem packResult : Obligations.PackResult := by
  unfold Obligations.PackResult
  exact ⟨by decide, exec_pack⟩

/-- UNPACK in every state (R134): each half of ARG_BYTE fills its register, and the second write keeps the first. -/
theorem exec_unpack (s : State) :
    exec .unpack s = .next { s with resCmd := (unpackByte s.argByte).1, resPort := (unpackByte s.argByte).2 } := by
  simp only [exec, execUnpack, regSet_resCmd, regSet_resPort, BitVec.ofNat_toNat, BitVec.setWidth_eq]

/-- Settles O23: `exec_unpack`, with unpack's two slices written out. -/
theorem unpackResult : Obligations.UnpackResult := by
  unfold Obligations.UnpackResult
  exact ⟨by decide, exec_unpack⟩

end Sys2Proof.Machine
end

section
/-! PROOF. Setting a register that ENCODE_PACKET names in neither column of 30_encoding.md R82 commutes with its run:
first the accesses, then the encoder's loop, then the operation (42_packet_framer.md R154). -/

namespace Sys2Proof.Machine

/-! ### A register set before or after -/

/-- A sequence of three may be bracketed either way. -/
theorem andThen_assoc {α β γ : Type} (q : Res α) (f : α → Res β) (g : β → Res γ) :
    andThen (andThen q f) g = andThen q fun a => andThen (f a) g := by
  cases q <;> rfl

/-- Writes of two different registers commute. -/
theorem regSet_comm (s : State) {r r' : Reg} (h : r ≠ r') (v v' : Nat) :
    regSet (regSet s r v) r' v' = regSet (regSet s r' v') r v := by
  cases r <;> cases r' <;> first | rfl | exact absurd rfl h

/-- A flag written as a number is that flag. -/
theorem regSet_pktComplete_toNat (s : State) (b : Bool) :
    regSet s .pktComplete b.toNat = { s with pktComplete := b } := by
  cases b <;> rfl

section
variable (s : State) (r : Reg) (v : Nat)

/-- MemRead looks at no register. -/
theorem memRead_regSet (sp : Space) (a : Nat) : memRead (regSet s r v) sp a = memRead s sp a := by
  simp only [memRead, regSet_keeps_cfg, regSet_keeps_byteAt]

/-- A register may be set before or after a MemWrite. -/
theorem memWrite_regSet (sp : Space) (a : Nat) (b : Byte) :
    memWrite (regSet s r v) sp a b = andThen (memWrite s sp a b) fun t => .next (regSet t r v) := by
  simp only [memWrite, regSet_keeps_cfg]
  split
  · rw [andThen_next, regSet_putByte]
  · rfl

theorem memWriteList_regSet (sp : Space) (a : Nat) (vs : List Byte) :
    memWriteList (regSet s r v) sp a vs = andThen (memWriteList s sp a vs) fun t => .next (regSet t r v) := by
  induction vs generalizing s a with
  | nil => rfl
  | cons b vs ih => simp only [memWriteList, memWrite_regSet, andThen_assoc, andThen_next, ih]

/-- The encoder's loop passes every register through. -/
theorem encodeLoop_regSet (src dst : Space) (a o cap k : Nat) (u : Encoder) :
    encodeLoop src dst a o cap k u (regSet s r v) =
      andThen (encodeLoop src dst a o cap k u s) fun p => .next (regSet p.1 r v, p.2) := by
  induction k generalizing u s with
  | zero => rfl
  | succ k ih =>
    simp only [encodeLoop, memRead_regSet, memWriteList_regSet, regSet_keeps_cfg]
    split
    · rfl
    rw [andThen_assoc]
    congr 1
    funext b
    split
    case isTrue hfits => simp only [andThen_assoc, andThen_next, ih]
    case isFalse hcut =>
      cases s.cfg.encTrunc with
      | split => simp only [andThen_assoc, andThen_next]
      | atomic => rfl

end

/-! ### ENCODE_PACKET -/

/-- ENCODE_PACKET passes through every register it names in neither column of R82. -/
theorem execEncodePacket_regSet (s : State) {r : Reg} (v : Nat) (hr : r ∉ readsOf .encodePacket)
    (hw : r ∉ writesOf .encodePacket) :
    execEncodePacket (regSet s r v) = andThen (execEncodePacket s) fun t => .next (regSet t r v) := by
  have hres : r ≠ .result := by simpa [writesOf] using hw
  obtain ⟨hcmd, hport, hlen, hcap⟩ : r ≠ .pktCmd ∧ r ≠ .pktPort ∧ r ≠ .pktLen ∧ r ≠ .outCap := by
    simpa [readsOf] using hr
  have hcmd' : (regSet s r v).pktCmd = s.pktCmd := BitVec.eq_of_toNat_eq (regRead_regSet_other s v hcmd.symm)
  have hport' : (regSet s r v).pktPort = s.pktPort := BitVec.eq_of_toNat_eq (regRead_regSet_other s v hport.symm)
  have hlen' : (regSet s r v).pktLen = s.pktLen := regRead_regSet_other s v hlen.symm
  have hcap' : (regSet s r v).outCap = s.outCap := regRead_regSet_other s v hcap.symm
  simp only [execEncodePacket, runEncodePacket, regSet_keeps_cfg, hcmd', hport', hlen', hcap']
  split
  · rfl
  split
  · simp only [andThen_next, regSet_comm s hres]
  · simp only [encodeInto, memWrite_regSet, encodeLoop_regSet, andThen_assoc, andThen_next, regSet_comm _ hres]

/-- ENCODE_PACKET changes RESULT and OUT_MEM alone. -/
theorem execEncodePacket_frame {s t : State} (h : execEncodePacket s = .next t) :
    t = { s with result := t.result, outMem := t.outMem } := by
  obtain ⟨T, rfl, -⟩ := execEncodePacket_next h
  rw [putBytes_out, regSet_result]

/-- Settles O28: `execEncodePacket_frame` leaves out the packet register set, and PKT_COMPLETE is one of the registers
that `execEncodePacket_regSet` passes through. -/
theorem framerWritesNoPacketState : Obligations.FramerWritesNoPacketState := by
  unfold Obligations.FramerWritesNoPacketState
  refine fun s t h => ⟨?_, fun b => ?_⟩
  · rw [execEncodePacket_frame h]
    exact ⟨rfl, rfl, rfl, rfl, rfl, rfl⟩
  · have hrun := execEncodePacket_regSet s (r := .pktComplete) b.toNat (by decide) (by decide)
    rwa [show execEncodePacket s = .next t from h, andThen_next, regSet_pktComplete_toNat,
      regSet_pktComplete_toNat] at hrun

end Sys2Proof.Machine
end

section
/-! PROOF. The closed form of a whole DECODE_PACKET (43_stream_decoder.md R184): its outcome from the indices of the
command byte, of the closing delimiter and of the byte after the trailing padding. -/

namespace Sys2Proof.Machine

/-! ### The scan's outcome from an index on -/

/-- A call that reaches the end of the buffer ends with RESULT = `v` if all of the buffer is written, as `y` (R177). -/
def bufferEnd (s : State) (y : List Byte) (v : Nat) : Res State :=
  if y.length = s.inLen then .next (regSet s .result v) else .refused .unwrittenByte

/-- From the first byte after a frame on: `t` is the index of the byte that stops the scan, if there is one. -/
def stopOutcome (s : State) (y : List Byte) (t : Option Nat) : Res State :=
  t.elim (bufferEnd s y s.inLen) fun t => .next (regSet s .result t)

/-- The payload a frame with its command byte at `c` and its closing delimiter at `e` is decoded to (R176). -/
def framePayload (s : State) (y : List Byte) (c e : Nat) : List Byte := (dec (slice y (c + 1) e)).take s.pktCap

/-- The state right after that frame's completion (R176), from the state `s` right after its command byte. -/
def completed (s : State) (y : List Byte) (c e : Nat) : State :=
  setComplete (regSet (putBytes s .pkt 0 (framePayload s y c e)) .pktLen (framePayload s y c e).length)

/-- From the first byte after a command byte at `c` on: `e` is the index of the closing delimiter, if there is one. -/
def closeOutcome (s : State) (y : List Byte) (c : Nat) (e : Option Nat) : Res State :=
  e.elim (bufferEnd s y 0) fun e => stopOutcome (completed s y c e) y (firstFrom (· != FEND) y (e + 1))

/-- The end of the buffer as seen from index `i` is that of the whole buffer. -/
theorem bufferEnd_of_drop {s : State} {y : List Byte} {i v : Nat} (hi : i ≤ y.length) (hy : y.length ≤ s.inLen) :
    (if (y.drop i).length = s.inLen - i then .next (regSet s .result v) else .refused .unwrittenByte : Res State) =
      bufferEnd s y v := by
  rw [bufferEnd, List.length_drop]
  exact if_congr (by omega) rfl rfl

theorem trailEnd_eq {s : State} {y : List Byte} {i : Nat} (hi : i ≤ y.length) (hy : y.length ≤ s.inLen) :
    trailEnd s i (s.inLen - i) (y.drop i) = stopOutcome s y (firstFrom (· != FEND) y i) := by
  unfold trailEnd stopOutcome firstFrom
  cases (y.drop i).findIdx? (· != FEND) with
  | some n => rfl
  | none => exact bufferEnd_of_drop hi hy

theorem inframeEnd_eq {s : State} {y : List Byte} {c : Nat} (hc : c + 1 ≤ y.length) (hy : y.length ≤ s.inLen) :
    inframeEnd s (c + 1) (s.inLen - (c + 1)) (y.drop (c + 1)) =
      closeOutcome s y c (firstFrom (· == FEND) y (c + 1)) := by
  unfold inframeEnd closeOutcome
  cases h : firstFrom (· == FEND) y (c + 1) with
  | none =>
    rw [firstFrom_eq_none.1 h]
    exact bufferEnd_of_drop hc hy
  | some e =>
    obtain ⟨n, hn, rfl⟩ := firstFrom_eq_some.1 h
    have hlt := (firstFrom_spec h).2.1
    have hpay : (dec ((y.drop (c + 1)).take n)).take s.pktCap = framePayload s y c (c + 1 + n) := by
      rw [framePayload, slice, Nat.add_sub_cancel_left]
    have hlen : (completed s y c (c + 1 + n)).inLen = s.inLen :=
      regRead_putBytes s .pkt 0 (framePayload s y c (c + 1 + n)) .inLen
    have hrest := trailEnd_eq (s := completed s y c (c + 1 + n)) (i := c + 1 + n + 1) hlt (hlen ▸ hy)
    rw [hn, hlen] at *
    dsimp only [Option.elim]
    rw [hpay, List.drop_drop, Nat.sub_sub, ← Nat.add_assoc]
    exact hrest

/-- The state once the scan is past the command byte at `c`, if there is one (R173, R175). -/
def sought (s : State) (y : List Byte) (c : Option Nat) : State :=
  c.elim (clearComplete s) fun c => takeCommand (clearComplete s) (y.getD c 0#8)

/-- The scan from where Seeking begins: `c` is the index of the command byte, if there is one. -/
def commandOutcome (s : State) (y : List Byte) (c : Option Nat) : Res State :=
  c.elim (bufferEnd (clearComplete s) y 0) fun d =>
    closeOutcome (sought s y c) y d (firstFrom (· == FEND) y (d + 1))

theorem seekEnd_eq {s : State} {y : List Byte} {h : Nat} (hh : h ≤ y.length) (hy : y.length ≤ s.inLen) :
    seekEnd (clearComplete s) h (s.inLen - h) (y.drop h) = commandOutcome s y (firstFrom (· != FEND) y h) := by
  unfold seekEnd commandOutcome
  cases hc : firstFrom (· != FEND) y h with
  | none =>
    rw [firstFrom_eq_none.1 hc]
    exact bufferEnd_of_drop (s := clearComplete s) hh hy
  | some c =>
    obtain ⟨n, hn, rfl⟩ := firstFrom_eq_some.1 hc
    have hlt := (firstFrom_spec hc).2.1
    have hbyte : (y.drop h).getD n 0#8 = y.getD (h + n) 0#8 := by
      rw [List.getD_eq_getElem?_getD, List.getElem?_drop, List.getD_eq_getElem?_getD]
    rw [hn]
    dsimp only [Option.elim]
    rw [hbyte, List.drop_drop, Nat.sub_sub, ← Nat.add_assoc]
    exact inframeEnd_eq (s := takeCommand (clearComplete s) (y.getD (h + n) 0#8)) hlt hy

/-- A DECODE_PACKET whose operands stay inside their memories is `commandOutcome`, under both seek modes. -/
theorem execDecodePacket_eq_commandOutcome {s : State} {y : List Byte} (hin : s.inLen ≤ s.cfg.inSize)
    (hcap : s.pktCap ≤ s.cfg.pktSize) (hy : y = writtenRun s .inp 0 s.inLen) :
    execDecodePacket s = commandOutcome s y (commandAt s.cfg.seekMode y) := by
  have hle : y.length ≤ s.inLen := hy ▸ writtenRun_length_le s .inp 0 s.inLen
  cases hm : s.cfg.seekMode with
  | streamBoundary =>
    rw [execDecodePacket_streamBoundary hin hcap hm, ← hy]
    exact seekEnd_eq (Nat.zero_le _) hle
  | bufferDelimiter =>
    rw [execDecodePacket_bufferDelimiter hin hcap hm, ← hy, commandAt, seekFrom]
    unfold huntEnd
    cases hd : firstFrom (· == FEND) y 0 with
    | none =>
      rw [show y.findIdx? (· == FEND) = none from firstFrom_eq_none.1 hd]
      rfl
    | some d =>
      obtain ⟨n, hn, rfl⟩ := firstFrom_eq_some.1 hd
      have hlt := (firstFrom_spec hd).2.1
      rw [show y.findIdx? (· == FEND) = some n from hn]
      simp only [Nat.zero_add] at hlt ⊢
      exact seekEnd_eq hlt hle

/-! ### The two ends of a call -/

theorem closeAt_of_commandAt {m : SeekMode} {y : List Byte} {c : Nat} (hc : commandAt m y = some c) :
    closeAt m y = firstFrom (· == FEND) y (c + 1) := by rw [closeAt, hc]; rfl

theorem nextAt_of_closeAt {m : SeekMode} {y : List Byte} {e : Nat} (he : closeAt m y = some e) :
    nextAt m y = firstFrom (· != FEND) y (e + 1) := by rw [nextAt, he]; rfl

/-- A call whose buffer holds no whole frame reads to the end of the buffer, and RESULT is 0. -/
theorem execDecodePacket_noFrame {s : State} {y : List Byte} (hin : s.inLen ≤ s.cfg.inSize)
    (hcap : s.pktCap ≤ s.cfg.pktSize) (hy : y = writtenRun s .inp 0 s.inLen) (he : closeAt s.cfg.seekMode y = none) :
    execDecodePacket s = bufferEnd (sought s y (commandAt s.cfg.seekMode y)) y 0 := by
  rw [execDecodePacket_eq_commandOutcome hin hcap hy]
  cases hc : commandAt s.cfg.seekMode y with
  | none => rfl
  | some c =>
    rw [closeAt_of_commandAt hc] at he
    simp only [commandOutcome, Option.elim, he, closeOutcome]

/-- A call whose buffer holds a whole frame completes it, and reads on to the first byte that is no delimiter. -/
theorem execDecodePacket_frame_found {s : State} {y : List Byte} {c e : Nat} (hin : s.inLen ≤ s.cfg.inSize)
    (hcap : s.pktCap ≤ s.cfg.pktSize) (hy : y = writtenRun s .inp 0 s.inLen)
    (hc : commandAt s.cfg.seekMode y = some c) (he : closeAt s.cfg.seekMode y = some e) :
    execDecodePacket s = stopOutcome (completed (sought s y (some c)) y c e) y (nextAt s.cfg.seekMode y) := by
  rw [execDecodePacket_eq_commandOutcome hin hcap hy, nextAt_of_closeAt he, hc]
  rw [closeAt_of_commandAt hc] at he
  simp only [commandOutcome, Option.elim, he, closeOutcome]

/-! ### The next states written out -/

/-- The state a call leaves that finds a whole frame, with its command byte at `c` and its closing delimiter at `e`. -/
def foundState (s : State) (y : List Byte) (c e : Nat) : State :=
  { putBytes s .pkt 0 (framePayload s y c e) with
    pktCmd := (y.getD c 0#8).extractLsb' 0 4
    pktPort := (y.getD c 0#8).extractLsb' 4 4
    pktLen := (framePayload s y c e).length
    pktComplete := true
    result := (nextAt s.cfg.seekMode y).getD s.inLen }

/-- The state a call leaves that finds no whole frame, with its command byte at `c`, if it met one. -/
def missedState (s : State) (y : List Byte) (c : Option Nat) : State :=
  { sought s y c with result := 0 }

theorem framePayload_length_le (s : State) (y : List Byte) (c e : Nat) :
    (framePayload s y c e).length ≤ s.pktCap := List.length_take_le _ _

/-- Completing a frame after its command byte sets five registers and PKT_MEM. -/
theorem completed_sought {s : State} (hs : StateInv s) (y : List Byte) (c e : Nat) :
    completed (sought s y (some c)) y c e =
      { putBytes s .pkt 0 (framePayload s y c e) with
        pktCmd := (y.getD c 0#8).extractLsb' 0 4
        pktPort := (y.getD c 0#8).extractLsb' 4 4
        pktLen := (framePayload s y c e).length
        pktComplete := true } := by
  have hcmd : sought s y (some c) = takeCommand (clearComplete s) (y.getD c 0#8) := rfl
  have hpay : framePayload (sought s y (some c)) y c e = framePayload s y c e := rfl
  have hlen : toCount s.cfg (framePayload s y c e).length = (framePayload s y c e).length :=
    toCount_eq hs.cfg (.inr (.inr ((framePayload_length_le s y c e).trans hs.packet.2)))
  rw [completed, hpay, hcmd, takeCommand, clearComplete, ← regSet_putBytes, ← regSet_putBytes, ← regSet_putBytes,
    setComplete, ← takeCommand, takeCommand_eq]
  simp only [regSet_pktLen, regSet_pktComplete, putBytes_keeps_cfg, hlen]
  rfl

/-- The byte after the trailing padding lies inside the buffer. -/
theorem nextAt_getD_le {m : SeekMode} {y : List Byte} {n : Nat} (hy : y.length ≤ n) : (nextAt m y).getD n ≤ n := by
  cases ht : nextAt m y with
  | none => exact Nat.le_refl n
  | some t =>
    obtain ⟨e, -, ht⟩ := Option.bind_eq_some_iff.1 ht
    exact (firstFrom_spec ht).2.1.le.trans hy

section
variable {s : State} {y : List Byte} (hs : StateInv s) (hin : s.inLen ≤ s.cfg.inSize)
  (hy : y = writtenRun s .inp 0 s.inLen)
include hs hin hy

/-- DECODE_PACKET on a buffer with a whole frame (R173, R176, R177): it is refused only if it meets an unwritten byte
before the byte that stops it. -/
theorem execDecodePacket_found {c e : Nat} (hc : commandAt s.cfg.seekMode y = some c)
    (he : closeAt s.cfg.seekMode y = some e) :
    execDecodePacket s =
      if y.length = s.inLen ∨ (nextAt s.cfg.seekMode y).isSome then .next (foundState s y c e)
      else .refused .unwrittenByte := by
  have hle : y.length ≤ s.inLen := hy ▸ writtenRun_length_le s .inp 0 s.inLen
  have hres : toCount s.cfg ((nextAt s.cfg.seekMode y).getD s.inLen) = (nextAt s.cfg.seekMode y).getD s.inLen :=
    toCount_eq hs.cfg (.inl ((nextAt_getD_le hle).trans hin))
  have hlen : (putBytes s .pkt 0 (framePayload s y c e)).inLen = s.inLen := regRead_putBytes s .pkt 0 _ .inLen
  rw [execDecodePacket_frame_found hin hs.packet.2 hy hc he, completed_sought hs, foundState]
  cases ht : nextAt s.cfg.seekMode y with
  | some t =>
    rw [ht, Option.getD_some] at hres
    simp only [stopOutcome, Option.elim_some, Option.getD_some, Option.isSome_some, or_true, if_true, regSet_result,
      putBytes_keeps_cfg, hres]
  | none =>
    rw [ht, Option.getD_none] at hres
    simp only [stopOutcome, Option.elim_none, Option.getD_none, Option.isSome_none, Bool.false_eq_true, or_false,
      bufferEnd, hlen, regSet_result, putBytes_keeps_cfg, hres]

/-- DECODE_PACKET on a buffer with no whole frame (R173, R177): it reads all of the buffer. -/
theorem execDecodePacket_missed (he : closeAt s.cfg.seekMode y = none) :
    execDecodePacket s =
      if y.length = s.inLen then .next (missedState s y (commandAt s.cfg.seekMode y))
      else .refused .unwrittenByte := by
  rw [execDecodePacket_noFrame hin hs.packet.2 hy he]
  cases commandAt s.cfg.seekMode y <;> rfl

end

/-- A DECODE_PACKET that ends has a buffer that exists. -/
theorem inLen_le_of_execDecodePacket {s t : State} (h : execDecodePacket s = .next t) : s.inLen ≤ s.cfg.inSize := by
  by_contra hin
  rw [execDecodePacket, runDecodePacket, if_pos (Nat.lt_of_not_le hin)] at h
  cases h

/-- Everything a DECODE_PACKET can do that ends in a next state. -/
theorem execDecodePacket_next {s t : State} (hs : StateInv s) (h : execDecodePacket s = .next t) :
    (closeAt s.cfg.seekMode (writtenRun s .inp 0 s.inLen) = none ∧
      (writtenRun s .inp 0 s.inLen).length = s.inLen ∧
      t = missedState s (writtenRun s .inp 0 s.inLen) (commandAt s.cfg.seekMode (writtenRun s .inp 0 s.inLen))) ∨
    ∃ c e, commandAt s.cfg.seekMode (writtenRun s .inp 0 s.inLen) = some c ∧
      closeAt s.cfg.seekMode (writtenRun s .inp 0 s.inLen) = some e ∧
      ((writtenRun s .inp 0 s.inLen).length = s.inLen ∨
        (nextAt s.cfg.seekMode (writtenRun s .inp 0 s.inLen)).isSome) ∧
      t = foundState s (writtenRun s .inp 0 s.inLen) c e := by
  have hin := inLen_le_of_execDecodePacket h
  cases he : closeAt s.cfg.seekMode (writtenRun s .inp 0 s.inLen) with
  | none =>
    rw [execDecodePacket_missed hs hin rfl he] at h
    split at h
    case isTrue hlen =>
      cases h
      exact .inl ⟨rfl, hlen, rfl⟩
    · cases h
  | some e =>
    obtain ⟨c, hc, -⟩ := Option.bind_eq_some_iff.1 he
    rw [execDecodePacket_found hs hin rfl hc he] at h
    split at h
    case isTrue hlen =>
      cases h
      exact .inr ⟨c, e, hc, rfl, hlen, rfl⟩
    · cases h

/-! ### The statements -/

/-- Settles O31: `execDecodePacket_found`, where the scan ends. -/
theorem decodePacketFindsTheFrame : Obligations.DecodePacketFindsTheFrame := by
  unfold Obligations.DecodePacketFindsTheFrame
  refine ⟨by decide, fun s y c e p hs hin hy hc he hend hp => ?_⟩
  subst hp
  exact (execDecodePacket_found hs hin hy hc he).trans (if_pos hend)

/-- Settles O32: `execDecodePacket_missed`, on a buffer written to its end. -/
theorem decodePacketFindsNoFrame : Obligations.DecodePacketFindsNoFrame := by
  unfold Obligations.DecodePacketFindsNoFrame
  intro s y hs hin hy hlen he
  have hrun : exec .decodePacket s = .next (missedState s y (commandAt s.cfg.seekMode y)) :=
    (execDecodePacket_missed hs hin hy he).trans (if_pos hlen)
  refine ⟨fun hc => ?_, fun c hc => ?_⟩
  · rw [hrun, hc]
    rfl
  · rw [hrun, hc, missedState, sought, Option.elim, takeCommand_eq, clearComplete_eq]

/-- Settles O33: on a buffer that is not written to its end the scan needs a byte that stops it, `nextAt`. -/
theorem decodePacketRefusals : Obligations.DecodePacketRefusals := by
  unfold Obligations.DecodePacketRefusals
  refine fun s => ⟨fun hin => ?_, fun hs hin hlen hnext => ?_⟩
  · show execDecodePacket s = _
    rw [execDecodePacket, runDecodePacket, if_pos hin]
    rfl
  · cases he : closeAt s.cfg.seekMode (writtenRun s .inp 0 s.inLen) with
    | none => exact (execDecodePacket_missed hs hin rfl he).trans (if_neg hlen.ne)
    | some e =>
      obtain ⟨c, hc, -⟩ := Option.bind_eq_some_iff.1 he
      exact (execDecodePacket_found hs hin rfl hc he).trans (if_neg (by simp [hlen.ne, hnext]))

end Sys2Proof.Machine
end

section
/-! PROOF. What the indices of 43_stream_decoder.md R184 say of the buffer, in a longer buffer too, and from that what
RESULT and the packet registers say after a DECODE_PACKET. -/

namespace Sys2Proof.Machine

/-! ### The first index of a byte class -/

/-- A longer sequence has the same first index, where the shorter one has one. -/
theorem firstFrom_append_left {p : Byte → Bool} {y : List Byte} {h c : Nat} (hf : firstFrom p y h = some c)
    (z : List Byte) : firstFrom p (y ++ z) h = some c := by
  obtain ⟨n, hn, rfl⟩ := firstFrom_eq_some.1 hf
  obtain ⟨hle, hlt, -⟩ := firstFrom_spec hf
  refine firstFrom_eq_some.2 ⟨n, ?_, rfl⟩
  rw [List.drop_append_of_le_length (by omega), List.findIdx?_append, hn, Option.some_or]

/-- Every byte before the first index of a class, or all of them if there is none, is outside the class. -/
theorem not_of_lt_firstFrom {p : Byte → Bool} {y : List Byte} {h k : Nat} (hk : h ≤ k)
    (hlt : k < (firstFrom p y h).getD y.length) : p (y.getD k 0#8) = false := by
  cases hf : firstFrom p y h with
  | some c =>
    rw [hf] at hlt
    exact (firstFrom_spec hf).2.2.2 k hk hlt
  | none =>
    rw [hf, Option.getD_none] at hlt
    refine List.findIdx?_eq_none_iff.1 (firstFrom_eq_none.1 hf) _ ?_
    rw [List.getD_eq_getElem _ _ hlt]
    exact List.mem_iff_getElem.2 ⟨k - h, by rw [List.length_drop]; omega, by simp [Nat.add_sub_cancel' hk]⟩

/-- Where a sequence has no byte of a class from `h` on, a longer one has none before its end either. -/
theorem length_le_firstFrom_append {p : Byte → Bool} {y z : List Byte} {h : Nat} (hf : firstFrom p y h = none) :
    y.length ≤ (firstFrom p (y ++ z) h).getD (y ++ z).length := by
  cases hf' : firstFrom p (y ++ z) h with
  | none => simp
  | some t =>
    obtain ⟨hle, -, hp, -⟩ := firstFrom_spec hf'
    by_contra hlt
    have hlt : t < y.length := Nat.lt_of_not_le hlt
    have hno : p (y.getD t 0#8) = false := not_of_lt_firstFrom hle (by rwa [hf])
    rw [List.getD_append _ _ _ _ hlt, hno] at hp
    cases hp

/-- After bytes outside a class, the first byte of it is found. -/
theorem firstFrom_span {p : Byte → Bool} {mid : List Byte} {b : Byte} (hmid : ∀ a ∈ mid, p a = false)
    (hb : p b = true) (pre rest : List Byte) :
    firstFrom p (pre ++ (mid ++ b :: rest)) pre.length = some (pre.length + mid.length) := by
  refine firstFrom_eq_some.2 ⟨mid.length, ?_, rfl⟩
  rw [List.drop_left, List.findIdx?_append, List.findIdx?_eq_none_iff.2 hmid, List.findIdx?_cons, if_pos hb]
  simp

/-- Bytes outside a class up to the end hold none of it. -/
theorem firstFrom_span_none {p : Byte → Bool} {mid : List Byte} (hmid : ∀ a ∈ mid, p a = false) (pre : List Byte) :
    firstFrom p (pre ++ mid) pre.length = none := by
  rw [firstFrom_eq_none, List.drop_left]
  exact List.findIdx?_eq_none_iff.2 hmid

/-! ### The three indices -/

/-- What the index of a command byte says: under BUFFER_DELIMITER a delimiter stands before it. -/
theorem commandAt_spec {m : SeekMode} {y : List Byte} {c : Nat} (hc : commandAt m y = some c) :
    c < y.length ∧ (m = .bufferDelimiter → 1 ≤ c) := by
  obtain ⟨h, hh, hc⟩ := Option.bind_eq_some_iff.1 hc
  obtain ⟨hle, hlt, -⟩ := firstFrom_spec hc
  refine ⟨hlt, fun hm => ?_⟩
  subst hm
  obtain ⟨d, -, rfl⟩ := Option.map_eq_some_iff.1 hh
  omega

/-- What the index of the closing delimiter says. -/
theorem closeAt_spec {m : SeekMode} {y : List Byte} {c e : Nat} (hc : commandAt m y = some c)
    (he : closeAt m y = some e) : c < e ∧ e < y.length ∧ y.getD e 0#8 = FEND := by
  rw [closeAt_of_commandAt hc] at he
  obtain ⟨hle, hlt, hp, -⟩ := firstFrom_spec he
  exact ⟨hle, hlt, by simpa using hp⟩

/-- What the index of the byte that stops the scan says. -/
theorem nextAt_spec {m : SeekMode} {y : List Byte} {e t : Nat} (he : closeAt m y = some e)
    (ht : nextAt m y = some t) : e < t ∧ t < y.length ∧ y.getD t 0#8 ≠ FEND := by
  rw [nextAt_of_closeAt he] at ht
  obtain ⟨hle, hlt, hp, -⟩ := firstFrom_spec ht
  exact ⟨hle, hlt, by simpa using hp⟩

/-- What a call consumes after the closing delimiter is trailing padding. -/
theorem getD_eq_FEND_of_lt_next {m : SeekMode} {y : List Byte} {c e k : Nat} (hc : commandAt m y = some c)
    (he : closeAt m y = some e) (hk : e ≤ k) (hlt : k < (nextAt m y).getD y.length) : y.getD k 0#8 = FEND := by
  rcases Nat.eq_or_lt_of_le hk with rfl | hk
  · exact (closeAt_spec hc he).2.2
  · rw [nextAt_of_closeAt he] at hlt
    simpa using not_of_lt_firstFrom hk hlt

theorem seekFrom_append {m : SeekMode} {y : List Byte} {h : Nat} (hh : seekFrom m y = some h) (z : List Byte) :
    seekFrom m (y ++ z) = some h := by
  cases m with
  | streamBoundary => exact hh
  | bufferDelimiter =>
    obtain ⟨d, hd, rfl⟩ := Option.map_eq_some_iff.1 hh
    rw [seekFrom, firstFrom_append_left hd, Option.map_some]

/-- A command byte once met is met at the same index in a longer buffer. -/
theorem commandAt_append {m : SeekMode} {y : List Byte} {c : Nat} (hc : commandAt m y = some c) (z : List Byte) :
    commandAt m (y ++ z) = some c := by
  obtain ⟨h, hh, hc⟩ := Option.bind_eq_some_iff.1 hc
  rw [commandAt, seekFrom_append hh, Option.bind_some, firstFrom_append_left hc]

/-- A frame once closed is closed at the same index in a longer buffer. -/
theorem closeAt_append {m : SeekMode} {y : List Byte} {e : Nat} (he : closeAt m y = some e) (z : List Byte) :
    closeAt m (y ++ z) = some e := by
  obtain ⟨c, hc, he⟩ := Option.bind_eq_some_iff.1 he
  rw [closeAt, commandAt_append hc, Option.bind_some, firstFrom_append_left he]

theorem nextAt_append {m : SeekMode} {y : List Byte} {t : Nat} (ht : nextAt m y = some t) (z : List Byte) :
    nextAt m (y ++ z) = some t := by
  obtain ⟨e, he, ht⟩ := Option.bind_eq_some_iff.1 ht
  rw [nextAt, closeAt_append he, Option.bind_some, firstFrom_append_left ht]

/-! ### The packet found -/

/-- The packet of a frame with its command byte at `c` and its closing delimiter at `e`, its payload cut to `cap`. -/
def packetAt (cap : Nat) (y : List Byte) (c e : Nat) : Packet where
  cmd := (y.getD c 0#8).extractLsb' 0 4
  port := (y.getD c 0#8).extractLsb' 4 4
  payload := (dec (slice y (c + 1) e)).take cap

/-- The packet is that of the frame's bytes, whatever follows them. -/
theorem packetAt_append {cap : Nat} {y : List Byte} {c e : Nat} (hc : c < y.length) (he : e < y.length)
    (z : List Byte) : packetAt cap (y ++ z) c e = packetAt cap y c e := by
  have hslice : slice (y ++ z) (c + 1) e = slice y (c + 1) e := by
    rw [slice, slice, List.drop_append_of_le_length hc, List.take_append_of_le_length (by rw [List.length_drop]; omega)]
  rw [packetAt, packetAt, hslice, List.getD_append _ _ _ _ hc]

/-- The payload found stands in PKT_MEM. -/
theorem writtenRun_foundState (s : State) (y : List Byte) (c e : Nat) :
    writtenRun (foundState s y c e) .pkt 0 (foundState s y c e).pktLen = framePayload s y c e :=
  calc writtenRun (foundState s y c e) .pkt 0 (framePayload s y c e).length
    _ = writtenRun (putBytes s .pkt 0 (framePayload s y c e)) .pkt 0 (framePayload s y c e).length :=
        writtenRun_congr _ fun _ _ => rfl
    _ = framePayload s y c e := writtenRun_putBytes ..

/-- A call that finds a frame leaves its packet in the packet registers and PKT_MEM. -/
theorem packetOf_foundState (s : State) (y : List Byte) (c e : Nat) :
    packetOf (foundState s y c e) = packetAt s.pktCap y c e := by
  rw [packetOf, writtenRun_foundState]
  rfl

/-! ### RESULT -/

/-- On a buffer on which the call ends, RESULT counts written bytes alone. -/
theorem foundState_result {s : State} {y : List Byte} {c e : Nat}
    (h : y.length = s.inLen ∨ (nextAt s.cfg.seekMode y).isSome) :
    (foundState s y c e).result = (nextAt s.cfg.seekMode y).getD y.length := by
  show (nextAt s.cfg.seekMode y).getD s.inLen = _
  rcases h with h | h
  · rw [h]
  · obtain ⟨t, ht⟩ := Option.isSome_iff_exists.1 h
    rw [ht]
    rfl

/-- RESULT goes beyond the closing delimiter. -/
theorem closeAt_lt_next {m : SeekMode} {y : List Byte} {c e : Nat} (hc : commandAt m y = some c)
    (he : closeAt m y = some e) : e < (nextAt m y).getD y.length := by
  cases ht : nextAt m y with
  | none => exact (closeAt_spec hc he).2.1
  | some t => exact (nextAt_spec he ht).1

/-- A written run read by index. -/
theorem byteAt_eq_getD {s : State} {sp : Space} {n k : Nat} (hk : k < (writtenRun s sp 0 n).length) :
    byteAt s sp k = some ((writtenRun s sp 0 n).getD k 0#8) := by
  rw [List.getD_eq_getElem _ _ hk, ← byteAt_of_writtenRun hk, Nat.zero_add]

theorem missedState_result (s : State) (y : List Byte) (c : Option Nat) : (missedState s y c).result = 0 := rfl

theorem missedState_pktComplete (s : State) (y : List Byte) (c : Option Nat) :
    (missedState s y c).pktComplete = false := by
  cases c <;> rfl

theorem foundState_pktComplete (s : State) (y : List Byte) (c e : Nat) : (foundState s y c e).pktComplete = true := rfl

/-- RESULT and PKT_COMPLETE tell alike whether a frame was found. -/
theorem execDecodePacket_result_ne_zero {s t : State} (hs : StateInv s) (h : execDecodePacket s = .next t) :
    t.result ≠ 0 ↔ t.pktComplete = true := by
  rcases execDecodePacket_next hs h with ⟨-, -, rfl⟩ | ⟨c, e, hc, he, hend, rfl⟩
  · rw [missedState_pktComplete, missedState_result]
    simp
  · have hlt := closeAt_lt_next hc he
    rw [foundState_result hend, foundState_pktComplete]
    exact ⟨fun _ => rfl, fun _ => Nat.ne_zero_of_lt hlt⟩

/-- A nonzero RESULT comes from a frame found. -/
theorem execDecodePacket_found_of_result {s t : State} (hs : StateInv s) (h : execDecodePacket s = .next t)
    (hpos : 0 < t.result) :
    ∃ c e, commandAt s.cfg.seekMode (writtenRun s .inp 0 s.inLen) = some c ∧
      closeAt s.cfg.seekMode (writtenRun s .inp 0 s.inLen) = some e ∧
      ((writtenRun s .inp 0 s.inLen).length = s.inLen ∨
        (nextAt s.cfg.seekMode (writtenRun s .inp 0 s.inLen)).isSome) ∧
      t = foundState s (writtenRun s .inp 0 s.inLen) c e := by
  rcases execDecodePacket_next hs h with ⟨-, -, rfl⟩ | hfound
  · exact absurd hpos (Nat.lt_irrefl 0)
  · exact hfound

/-- RESULT is at most IN_LEN (R183). -/
theorem execDecodePacket_result_le {s t : State} (hs : StateInv s) (h : execDecodePacket s = .next t) :
    t.result ≤ s.inLen := by
  have hle := writtenRun_length_le s .inp 0 s.inLen
  rcases execDecodePacket_next hs h with ⟨-, -, rfl⟩ | ⟨c, e, -, -, -, rfl⟩
  · exact Nat.zero_le _
  · exact nextAt_getD_le hle

/-- Settles O34: RESULT is the index after the closing delimiter and its padding, so the byte before it is a delimiter and
the byte at it, if there is one, is none; the command byte and, under BUFFER_DELIMITER, a delimiter before it come
first. -/
theorem decodePacketPostconditions : Obligations.DecodePacketPostconditions := by
  unfold Obligations.DecodePacketPostconditions
  intro s t hs h
  have hfound := execDecodePacket_found_of_result hs h
  refine ⟨execDecodePacket_result_ne_zero hs h, execDecodePacket_result_le hs h, fun hpos => ?_, fun hpos hlt => ?_,
    (execDecodePacket_keeps_packetInv hs.packet h).1, fun hpos hm => ?_, fun hpos hm => ?_⟩
  all_goals
    obtain ⟨c, e, hc, he, hend, rfl⟩ := hfound hpos
    have hlast := closeAt_lt_next hc he
    obtain ⟨hce, -⟩ := closeAt_spec hc he
  · have hle := nextAt_getD_le (m := s.cfg.seekMode) (Nat.le_refl (writtenRun s .inp 0 s.inLen).length)
    rw [foundState_result hend, byteAt_eq_getD (n := s.inLen) (by omega),
      getD_eq_FEND_of_lt_next hc he (by omega) (by omega)]
  · cases hn : nextAt s.cfg.seekMode (writtenRun s .inp 0 s.inLen) with
    | none => exact absurd hlt (by simp [foundState, hn])
    | some t =>
      obtain ⟨-, ht, hne⟩ := nextAt_spec he hn
      have hres : (foundState s (writtenRun s .inp 0 s.inLen) c e).result = t := by rw [foundState_result hend, hn]; rfl
      rw [hres]
      exact ⟨_, byteAt_eq_getD ht, hne⟩
  · rw [foundState_result hend]
    omega
  · have hpre := (commandAt_spec hc).2 hm
    rw [foundState_result hend]
    omega

/-! ### A longer buffer -/

/-- A buffer that agrees with another on its first bytes is that one, lengthened. -/
theorem writtenRun_eq_append {s s' : State} (hlen : s.inLen ≤ s'.inLen)
    (hb : ∀ k < s.inLen, byteAt s' .inp k = byteAt s .inp k) :
    ∃ z, writtenRun s' .inp 0 s'.inLen = writtenRun s .inp 0 s.inLen ++ z := by
  have hrun : writtenRun s' .inp 0 s.inLen = writtenRun s .inp 0 s.inLen :=
    writtenRun_congr _ fun k hk => by simpa using hb k hk
  exact ⟨_, by rw [← hrun, ← writtenRun_take hlen, List.take_append_drop]⟩

/-- In a longer buffer more is consumed only when the shorter one was consumed to its end. -/
theorem next_append {m : SeekMode} {y z : List Byte} {e : Nat} (he : closeAt m y = some e) :
    (nextAt m (y ++ z)).getD (y ++ z).length = (nextAt m y).getD y.length ∨
      (nextAt m y).getD y.length = y.length ∧ y.length ≤ (nextAt m (y ++ z)).getD (y ++ z).length := by
  cases ht : nextAt m y with
  | some t => exact .inl (by rw [nextAt_append ht]; rfl)
  | none =>
    rw [nextAt_of_closeAt he] at ht
    rw [nextAt_of_closeAt (closeAt_append he z)]
    exact .inr ⟨rfl, length_le_firstFrom_append ht⟩

/-- Settles O36: the indices of the command byte and of the closing delimiter are the same in a longer buffer, and so is
the packet they give; only the padding after it may go on. -/
theorem partialDataSafety : Obligations.PartialDataSafety := by
  unfold Obligations.PartialDataSafety
  refine fun s t hs h hw => ⟨fun _ => ?_, fun hpos s' hs' hcfg hcap hlen hin' hw' hb => ?_⟩
  · have hframe := (execDecodePacket_frame h).regs
    exact ⟨by rw [hframe], by rw [hframe]⟩
  obtain ⟨c, e, hc, he, hend, rfl⟩ := execDecodePacket_found_of_result hs h hpos
  obtain ⟨z, hz⟩ := writtenRun_eq_append hlen hb
  have hc' := commandAt_append hc z
  have he' := closeAt_append he z
  obtain ⟨hce, hey, -⟩ := closeAt_spec hc he
  have hmode : s'.cfg.seekMode = s.cfg.seekMode := by rw [hcfg]
  rw [← hz, ← hmode] at hc' he'
  have hrun := (execDecodePacket_found hs' hin' rfl hc' he').trans (if_pos (.inl hw'))
  have hpay : packetAt s'.pktCap (writtenRun s' .inp 0 s'.inLen) c e =
      packetAt s.pktCap (writtenRun s .inp 0 s.inLen) c e := by
    rw [hcap, hz, packetAt_append (hce.trans hey) hey]
  refine ⟨_, hrun, ?_, congrArg (·.payload.length) hpay, rfl, ?_⟩
  · rw [packetOf_foundState, packetOf_foundState, hpay]
  rw [foundState_result hend, foundState_result (.inl hw')]
  have hnext := next_append (z := z) he
  rw [← hz, ← hmode] at hnext
  rw [← hmode]
  refine ⟨?_, fun hmore => ⟨?_, fun k hk hkt => ?_⟩⟩
  · omega
  · omega
  · have hle := nextAt_getD_le (m := s'.cfg.seekMode) (Nat.le_refl (writtenRun s' .inp 0 s'.inLen).length)
    have hlast := closeAt_lt_next hc he
    rw [← hmode] at hlast
    rw [byteAt_eq_getD (n := s'.inLen) (by omega), getD_eq_FEND_of_lt_next hc' he' (by omega) hkt]

end Sys2Proof.Machine
end

section
/-! PROOF. The frame round trip (43_stream_decoder.md R185), and the one command byte for which it fails (R268 in
70_reset_and_hazards.md). -/

namespace Sys2Proof.Machine

/-! ### A buffer with one frame in it -/

/-- An encoded byte holds no delimiter. -/
theorem FEND_notMem_esc (b : Byte) : FEND ∉ esc b := by
  by_cases hfend : b = FEND
  · subst hfend
    decide
  by_cases hesc : b = ESC
  · subst hesc
    decide
  rw [esc_of_ne hfend hesc, List.mem_singleton]
  exact Ne.symm hfend

/-- An encoded payload holds no delimiter (R74). -/
theorem FEND_notMem_escAll (x : List Byte) : FEND ∉ escAll x := by
  induction x with
  | nil => exact List.not_mem_nil
  | cons b x ih =>
    rw [escAll_cons, List.mem_append, not_or]
    exact ⟨FEND_notMem_esc b, ih⟩

/-- Settles O9: `FEND_notMem_escAll`, byte by byte. -/
theorem encodedPayloadHoldsNoDelimiter : Obligations.EncodedPayloadHoldsNoDelimiter := FEND_notMem_escAll

theorem ne_FEND_eq_false {P : List Byte} (hP : ∀ b ∈ P, b = FEND) : ∀ b ∈ P, (b != FEND) = false := fun b hb => by
  rw [hP b hb, bne_self_eq_false]

/-- A buffer that begins with delimiters has its command byte right after them, under both seek modes. -/
theorem commandAt_delimiters {m : SeekMode} {P : List Byte} {b : Byte} (hne : P ≠ []) (hP : ∀ a ∈ P, a = FEND)
    (hb : b ≠ FEND) (rest : List Byte) : commandAt m (P ++ b :: rest) = some P.length := by
  have hb' : (b != FEND) = true := bne_iff_ne.2 hb
  cases m with
  | streamBoundary =>
    have hspan := firstFrom_span (ne_FEND_eq_false hP) hb' [] rest
    rwa [List.nil_append, List.length_nil, Nat.zero_add] at hspan
  | bufferDelimiter =>
    obtain ⟨d, P, rfl⟩ := List.exists_cons_of_ne_nil hne
    obtain ⟨hd, htail⟩ := List.forall_mem_cons.1 hP
    subst hd
    have hfirst : firstFrom (· == FEND) (FEND :: P ++ b :: rest) 0 = some 0 :=
      firstFrom_span (mid := []) (fun _ h => absurd h List.not_mem_nil) rfl [] (P ++ b :: rest)
    have hspan := firstFrom_span (ne_FEND_eq_false htail) hb' [FEND] rest
    rw [commandAt, seekFrom, hfirst]
    rwa [List.length_singleton, Nat.add_comm] at hspan

/-- A buffer of delimiters alone has no command byte. -/
theorem commandAt_delimiters_none {m : SeekMode} {P : List Byte} (hP : ∀ a ∈ P, a = FEND) : commandAt m P = none := by
  cases h : commandAt m P with
  | none => rfl
  | some c =>
    obtain ⟨h, -, hc⟩ := Option.bind_eq_some_iff.1 h
    obtain ⟨-, hlt, hp, -⟩ := firstFrom_spec hc
    rw [List.getD_eq_getElem _ _ hlt, hP _ (List.getElem_mem hlt)] at hp
    cases hp

section
variable {m : SeekMode} {pre body rest : List Byte} {b : Byte}

/-- The first delimiter after the command byte closes the frame. -/
theorem closeAt_of_body (hc : commandAt m (pre ++ b :: (body ++ FEND :: rest)) = some pre.length)
    (hbody : FEND ∉ body) :
    closeAt m (pre ++ b :: (body ++ FEND :: rest)) = some (pre.length + 1 + body.length) := by
  have hmid : ∀ a ∈ body, (a == FEND) = false := fun a ha => beq_eq_false_iff_ne.2 fun h => hbody (h ▸ ha)
  have hspan := firstFrom_span hmid (beq_self_eq_true FEND) (pre ++ [b]) rest
  rw [closeAt_of_commandAt hc]
  rwa [List.append_assoc, List.length_append] at hspan

/-- The packet between a command byte and the delimiter that closes it. -/
theorem packetAt_of_body (cap : Nat) :
    packetAt cap (pre ++ b :: (body ++ FEND :: rest)) pre.length (pre.length + 1 + body.length) =
      { cmd := b.extractLsb' 0 4, port := b.extractLsb' 4 4, payload := (dec body).take cap } := by
  have hbyte : (pre ++ b :: (body ++ FEND :: rest)).getD pre.length 0#8 = b := by
    rw [List.getD_append_right _ _ _ _ (Nat.le_refl _), Nat.sub_self]
    rfl
  have hslice : slice (pre ++ b :: (body ++ FEND :: rest)) (pre.length + 1) (pre.length + 1 + body.length) = body := by
    rw [slice, ← List.drop_drop, List.drop_left, List.drop_succ_cons, List.drop_zero, Nat.add_sub_cancel_left,
      List.take_left]
  rw [packetAt, hbyte, hslice]

/-- What follows the closing delimiter. -/
theorem drop_after_body : (pre ++ b :: (body ++ FEND :: rest)).drop (pre.length + 1 + body.length + 1) = rest := by
  have hsplit : pre ++ b :: (body ++ FEND :: rest) = (pre ++ b :: body ++ [FEND]) ++ rest := by simp
  rw [hsplit]
  refine List.drop_left' ?_
  simp only [List.length_append, List.length_cons, List.length_nil]
  omega

end

/-- A call consumes the delimiters right after the closing one, and no more. -/
theorem nextAt_of_padding {m : SeekMode} {y P z : List Byte} {c e : Nat} (hc : commandAt m y = some c)
    (he : closeAt m y = some e) (hy : y.drop (e + 1) = P ++ z) (hP : ∀ a ∈ P, a = FEND)
    (hz : ∀ b, z.head? = some b → b ≠ FEND) : (nextAt m y).getD y.length = e + 1 + P.length := by
  obtain ⟨-, hlt, -⟩ := closeAt_spec hc he
  have hlen : y.length = e + 1 + P.length + z.length := by
    have := congrArg List.length hy
    rw [List.length_drop, List.length_append] at this
    omega
  have htake : (y.take (e + 1)).length = e + 1 := List.length_take_of_le hlt
  rw [nextAt_of_closeAt he]
  cases z with
  | nil =>
    have hspan := firstFrom_span_none (ne_FEND_eq_false hP) (y.take (e + 1))
    rw [List.append_nil] at hy
    rw [htake, ← hy, List.take_append_drop] at hspan
    rw [hspan, hlen]
    rfl
  | cons b z =>
    have hspan := firstFrom_span (ne_FEND_eq_false hP) (bne_iff_ne.2 (hz b rfl)) (y.take (e + 1)) z
    rw [htake, ← hy, List.take_append_drop] at hspan
    rw [hspan]
    rfl

/-- DECODE_PACKET on a written buffer with a whole frame: the packet it leaves, and RESULT. -/
theorem exec_decodePacket_packet {s : State} {y : List Byte} {c e : Nat} (hs : StateInv s)
    (hin : s.inLen ≤ s.cfg.inSize) (hy : writtenRun s .inp 0 s.inLen = y) (hlen : y.length = s.inLen)
    (hc : commandAt s.cfg.seekMode y = some c) (he : closeAt s.cfg.seekMode y = some e) :
    ∃ t, exec .decodePacket s = .next t ∧ t.result = (nextAt s.cfg.seekMode y).getD y.length ∧
      packetOf t = packetAt s.pktCap y c e ∧ t.pktComplete = true ∧ t.pktCap = s.pktCap ∧
      t.pktLen = (packetOf t).payload.length :=
  ⟨foundState s y c e, (execDecodePacket_found hs hin hy.symm hc he).trans (if_pos (.inl hlen)),
    foundState_result (.inl hlen), packetOf_foundState s y c e, rfl, regRead_putBytes s .pkt 0 _ .pktCap,
    by rw [packetOf_foundState]; rfl⟩

/-! ### The round trip -/

/-- A frame, as the scanner sees it. -/
theorem frame_eq (c p : Nibble) (x : List Byte) :
    frame c p x = [FEND] ++ packByte (zext8 c) (zext8 p) :: (escAll x ++ [FEND]) := by
  rw [frame, List.append_assoc, List.append_assoc]
  rfl

theorem frame_length (c p : Nibble) (x : List Byte) : (frame c p x).length = (escAll x).length + 3 := by
  rw [frame_eq]
  simp only [List.length_append, List.length_cons, List.length_nil]
  omega

/-- The low nibble of a nibble as a byte is that nibble. -/
theorem extractLsb'_zext8 (n : Nibble) : (zext8 n).extractLsb' 0 4 = n := by
  apply BitVec.eq_of_toNat_eq
  rw [BitVec.extractLsb'_toNat, zext8, BitVec.toNat_setWidth]
  omega

/-- The low nibble of a frame's command byte is the command. -/
theorem packByte_zext8_low (c p : Nibble) : (packByte (zext8 c) (zext8 p)).extractLsb' 0 4 = c := by
  rw [packByte_low, extractLsb'_zext8]

/-- The high nibble of a frame's command byte is the port. -/
theorem packByte_zext8_high (c p : Nibble) : (packByte (zext8 c) (zext8 p)).extractLsb' 4 4 = p := by
  rw [packByte_high, extractLsb'_zext8]

/-- Settles O35: the frame's command byte is the first byte after the padding, its payload holds no delimiter, and
`dec_escAll` decodes it. -/
theorem frameRoundTrip : Obligations.FrameRoundTrip := by
  unfold Obligations.FrameRoundTrip
  intro s c p x P1 P2 z hs hin hcmd hP1 hP2 hz hy hlen
  have hsplit : P1 ++ frame c p x ++ P2 ++ z =
      (P1 ++ [FEND]) ++ packByte (zext8 c) (zext8 p) :: (escAll x ++ FEND :: (P2 ++ z)) := by
    rw [frame_eq]
    simp only [List.append_assoc, List.cons_append, List.nil_append]
  rw [hsplit] at hy hlen
  have hc := commandAt_delimiters (m := s.cfg.seekMode) (P := P1 ++ [FEND]) (by simp)
    (List.forall_mem_append.2 ⟨hP1, by simp⟩) hcmd (escAll x ++ FEND :: (P2 ++ z))
  have he := closeAt_of_body hc (FEND_notMem_escAll x)
  obtain ⟨t, hrun, hres, hpkt, hcomplete, -, hpktLen⟩ := exec_decodePacket_packet hs hin hy hlen hc he
  have hnext := nextAt_of_padding hc he drop_after_body hP2 hz
  rw [packetAt_of_body, dec_escAll, packByte_zext8_low, packByte_zext8_high] at hpkt
  refine ⟨t, hrun, ?_, congrArg Packet.cmd hpkt, congrArg Packet.port hpkt, hcomplete, ?_, congrArg Packet.payload hpkt⟩
  · rw [hres, hnext, frame_length, List.length_append, List.length_singleton]
    omega
  · rw [hpktLen, hpkt]

/-! ### The command byte that is a delimiter -/

/-- Settles O29: command 0 on port 12 packs to the delimiter, so the scanner takes it for padding and the first byte of
the payload for the command byte. -/
theorem delimiterCommandByteBreaksTheFrame : Obligations.DelimiterCommandByteBreaksTheFrame := by
  unfold Obligations.DelimiterCommandByteBreaksTheFrame
  intro u x hu hin hy hlen
  refine ⟨fun hx => ?_, fun b rest hx => ?_⟩
  · subst hx
    rw [show frame 0#4 12#4 [] = [FEND, FEND, FEND] from rfl] at hy hlen
    have hc : commandAt u.cfg.seekMode [FEND, FEND, FEND] = none := commandAt_delimiters_none (by simp)
    have he : closeAt u.cfg.seekMode [FEND, FEND, FEND] = none := by rw [closeAt, hc]; rfl
    exact ⟨_, (execDecodePacket_missed hu hin hy.symm he).trans (if_pos hlen), rfl⟩
  · have hno := FEND_notMem_escAll x
    rw [hx, List.mem_cons, not_or] at hno
    have hframe : frame 0#4 12#4 x = [FEND, FEND] ++ b :: (rest ++ [FEND]) := by
      rw [frame_eq, hx]
      rfl
    rw [hframe] at hy hlen
    have hc := commandAt_delimiters (m := u.cfg.seekMode) (P := [FEND, FEND]) (by simp) (by simp) (Ne.symm hno.1)
      (rest ++ [FEND])
    have he := closeAt_of_body hc hno.2
    obtain ⟨v, hrun, hres, hpkt, -, hcap, hpktLen⟩ := exec_decodePacket_packet hu hin hy hlen hc he
    have hnext := nextAt_of_padding hc he (P := []) drop_after_body (by simp) (by simp)
    rw [packetAt_of_body] at hpkt
    refine ⟨v, hrun, ?_, ?_, ?_⟩
    · rw [hres, hnext, ← hlen]
      simp only [List.length_append, List.length_cons, List.length_nil]
      omega
    · exact congrArg (fun f : Packet => (f.cmd, f.port)) hpkt
    · rw [hpktLen, hpkt, hcap, List.length_take]

end Sys2Proof.Machine
end

section
/-! PROOF. The machine's invariant: power-on has it, and every operation, host action and step keeps it. The packet
invariant is kept by `step_keeps_packetInv`; the registers and the memories are the other two parts. -/

namespace Sys2Proof.Machine

/-! ### The part about registers -/

/-- The invariant's clauses on the parameters and on the registers outside the packet register set. -/
structure RegInv (s : State) : Prop where
  cfg : s.cfg.wellFormed = true
  opsel : ∃ i, decode s.opsel = .ok i
  inLen : s.inLen < 2 ^ s.cfg.cntW
  outCap : s.outCap < 2 ^ s.cfg.cntW
  argCap : s.argCap < 2 ^ s.cfg.cntW
  result : s.result ≤ max s.cfg.inSize s.cfg.outSize

/-- The invariant in its three parts. -/
theorem stateInv_iff {s : State} : StateInv s ↔ RegInv s ∧ PacketInv s ∧ MemsWithin s :=
  ⟨fun h => ⟨⟨h.cfg, h.opsel, h.inLen, h.outCap, h.argCap, h.result⟩, h.packet, h.memsWithin⟩,
    fun ⟨hreg, hpkt, hmem⟩ => { hreg with packet := hpkt, inMem := hmem .inp, outMem := hmem .out, pktMem := hmem .pkt }⟩

theorem StateInv.regInv {s : State} (h : StateInv s) : RegInv s := (stateInv_iff.1 h).1

/-- The first part depends on the parameters and on five registers alone. -/
theorem RegInv.congr {s t : State} (h : RegInv s) (hcfg : t.cfg = s.cfg)
    (hregs : ∀ r ∈ [Reg.opsel, .inLen, .outCap, .argCap, .result], regRead t r = regRead s r) : RegInv t := by
  have hopsel : t.opsel = s.opsel := BitVec.eq_of_toNat_eq (hregs .opsel (by decide))
  have hinLen : t.inLen = s.inLen := hregs .inLen (by decide)
  have houtCap : t.outCap = s.outCap := hregs .outCap (by decide)
  have hargCap : t.argCap = s.argCap := hregs .argCap (by decide)
  have hresult : t.result = s.result := hregs .result (by decide)
  obtain ⟨h1, h2, h3, h4, h5, h6⟩ := h
  exact ⟨hcfg ▸ h1, hopsel ▸ h2, by rwa [hinLen, hcfg], by rwa [houtCap, hcfg], by rwa [hargCap, hcfg],
    by rwa [hresult, hcfg]⟩

theorem RegInv.putBytes {s : State} (h : RegInv s) (sp : Space) (a : Nat) (vs : List Byte) :
    RegInv (putBytes s sp a vs) :=
  h.congr (putBytes_keeps_cfg ..) fun _ _ => regRead_putBytes ..

/-- A register write keeps the first part, when OPSEL takes the code of an operation and RESULT no more than a buffer
holds. -/
theorem RegInv.regSet {s : State} (h : RegInv s) (r : Reg) {v : Nat}
    (hopsel : r = .opsel → ∃ i, decode (BitVec.ofNat 8 v) = .ok i)
    (hresult : r = .result → v ≤ max s.cfg.inSize s.cfg.outSize) : RegInv (regSet s r v) := by
  cases r with
  | opsel => exact { h with opsel := hopsel rfl }
  | inLen => exact { h with inLen := toCount_lt _ _ }
  | outCap => exact { h with outCap := toCount_lt _ _ }
  | argCap => exact { h with argCap := toCount_lt _ _ }
  | result => exact { h with result := (toCount_le _ _).trans (hresult rfl) }
  | _ => exact { h with }

theorem RegInv.packetReset {s : State} (h : RegInv s) : RegInv (packetReset s) := by
  rw [packetReset_eq]
  exact { h with }

/-! ### Every operation keeps the registers' part and the memories' part -/

/-- The memories' part depends on the parameters and on the memories alone. -/
theorem MemsWithin.congr {s t : State} (h : MemsWithin s) (hcfg : t.cfg = s.cfg) (hmem : ∀ sp, memOf t sp = memOf s sp) :
    MemsWithin t := fun sp => by
  rw [hmem, hcfg]
  exact h sp

theorem MemsWithin.packetReset {s : State} (h : MemsWithin s) : MemsWithin (packetReset s) :=
  memsWithin_regSet (memsWithin_regSet (memsWithin_regSet (memsWithin_regSet h .pktLen 0) .pktCmd 0) .pktPort 0)
    .pktComplete 0

/-- Bytes put in OUT_MEM from offset 0, and their count set in RESULT, keep both parts. -/
theorem keeps_of_putBytes_result {s : State} {T : List Byte} (hreg : RegInv s) (hmem : MemsWithin s)
    (hT : T.length ≤ s.outCap) (hout : s.outCap ≤ s.cfg.outSize) :
    RegInv (regSet (putBytes s .out 0 T) .result T.length) ∧
      MemsWithin (regSet (putBytes s .out 0 T) .result T.length) := by
  have hsize : T.length ≤ s.cfg.outSize := hT.trans hout
  refine ⟨(hreg.putBytes .out 0 T).regSet .result nofun fun _ => ?_, memsWithin_regSet ?_ .result _⟩
  · rw [putBytes_keeps_cfg]
    exact le_max_of_le_right hsize
  · exact memsWithin_putBytes hmem T (.inr (by rw [Nat.zero_add]; exact hsize))

theorem execDecodePacket_keeps_regInv {s t : State} (hs : StateInv s) (h : execDecodePacket s = .next t) :
    RegInv t := by
  have hresult := execDecodePacket_result_le hs h
  have hin := inLen_le_of_execDecodePacket h
  rw [(execDecodePacket_frame h).regs]
  exact { hs.regInv with result := le_max_of_le_left (hresult.trans hin) }

theorem execDecodePacket_keeps_memsWithin {s t : State} (hs : StateInv s) (h : execDecodePacket s = .next t) :
    MemsWithin t := by
  rcases execDecodePacket_next hs h with ⟨-, -, rfl⟩ | ⟨c, e, -, -, -, rfl⟩
  · refine hs.memsWithin.congr ?_ fun sp => ?_
    all_goals cases commandAt s.cfg.seekMode (writtenRun s .inp 0 s.inLen) <;> rfl
  · have hlen := (framePayload_length_le s (writtenRun s .inp 0 s.inLen) c e).trans hs.packet.2
    refine (memsWithin_putBytes hs.memsWithin (sp := .pkt) (a := 0) (framePayload s _ c e) (.inr ?_)).congr rfl ?_
    · rw [Nat.zero_add]
      exact hlen
    · intro sp
      cases sp <;> rfl

theorem exec_keeps_regInv_memsWithin {i : Instr} {s t : State} (hs : StateInv s) (h : exec i s = .next t) :
    RegInv t ∧ MemsWithin t := by
  have hreg := hs.regInv
  have hmem := hs.memsWithin
  cases i with
  | encodeData =>
    obtain ⟨T, rfl, hT, -, hout⟩ := execEncodeData_next h
    exact keeps_of_putBytes_result hreg hmem hT hout
  | decodeData =>
    obtain ⟨T, rfl, hT, -, hout⟩ := execDecodeData_next h
    exact keeps_of_putBytes_result hreg hmem hT hout
  | pack =>
    cases h
    exact ⟨hreg.regSet .resByte nofun nofun, memsWithin_regSet hmem _ _⟩
  | unpack =>
    cases h
    exact ⟨(hreg.regSet .resCmd nofun nofun).regSet .resPort nofun nofun, memsWithin_regSet (memsWithin_regSet hmem _ _) _ _⟩
  | encodePacket =>
    obtain ⟨T, rfl, hT, hout, -⟩ := execEncodePacket_next h
    exact keeps_of_putBytes_result hreg hmem hT hout
  | decodePacket => exact ⟨execDecodePacket_keeps_regInv hs h, execDecodePacket_keeps_memsWithin hs h⟩
  | pktInit =>
    obtain ⟨-, rfl⟩ := execPktInit_eq_next.1 h
    exact ⟨(hreg.regSet .pktCap nofun nofun).packetReset, (memsWithin_regSet hmem .pktCap _).packetReset⟩
  | pktReset =>
    cases h
    exact ⟨hreg.packetReset, hmem.packetReset⟩

/-- Every operation keeps the invariant. -/
theorem exec_keeps_stateInv {i : Instr} {s t : State} (hs : StateInv s) (h : exec i s = .next t) : StateInv t := by
  obtain ⟨hreg, hmem⟩ := exec_keeps_regInv_memsWithin hs h
  exact stateInv_iff.2 ⟨hreg, exec_keeps_packetInv hs.packet h, hmem⟩

/-! ### Every host action and every step -/

/-- OPSEL may take the code of any operation. -/
theorem StateInv.regSet_opsel {s : State} {v : Nat} {i : Instr} (hs : StateInv s)
    (hi : decode (BitVec.ofNat 8 v) = .ok i) : StateInv (regSet s .opsel v) :=
  { hs with opsel := ⟨i, hi⟩ }

/-- The queue of host actions and the two other fields of the model's own play no part in the invariant. -/
theorem StateInv.with_pending {s : State} (hs : StateInv s) (rest : List HostAction) :
    StateInv { s with pending := rest } :=
  { hs with }

theorem StateInv.with_readData {s : State} (hs : StateInv s) (v : Nat) : StateInv { s with readData := v } :=
  { hs with }

theorem hostWriteReg_keeps_stateInv {s t : State} {idx v : Nat} (hs : StateInv s) (h : hostWriteReg s idx v = .next t) :
    StateInv t := by
  have hpkt := hostWriteReg_keeps_packetInv hs.packet h
  rcases hostWriteReg_next h with ⟨-, hop⟩ | ⟨r, -, hro, hopsel, -, rfl⟩
  · obtain ⟨i, hi, hexec⟩ := startOperation_eq_next.1 hop
    exact exec_keeps_stateInv (hs.regSet_opsel hi) hexec
  · have hresult : r ≠ .result := by
      rintro rfl
      cases hro
    exact stateInv_iff.2 ⟨hs.regInv.regSet r (absurd · hopsel) (absurd · hresult), hpkt,
      memsWithin_regSet hs.memsWithin r v⟩

theorem hostShift_keeps_stateInv {s t : State} {k : Nat} (hs : StateInv s) (h : hostShift s k = .next t) :
    StateInv t := by
  unfold hostShift at h
  split at h
  · obtain ⟨s', hmove, ht⟩ := andThen_eq_next.1 h
    obtain ⟨hs', hmem⟩ := hostMoveDown_next hmove
    cases ht
    have hreg : RegInv s' := hs.regInv.congr (by rw [hs']) fun r _ => by rw [hs']; cases r <;> rfl
    have hpkt : PacketInv s' := (packetInv_congr (by rw [hs']) (by rw [hs']; rfl) (by rw [hs']; rfl)).2 hs.packet
    exact stateInv_iff.2 ⟨hreg.regSet .inLen nofun nofun, (packetInv_regSet (by decide) (by decide)).2 hpkt,
      memsWithin_regSet (hmem hs.memsWithin) _ _⟩
  · cases h

theorem hostWriteBytes_keeps_stateInv {s t : State} {sp : Space} {a : Nat} {vs : List Byte} (hs : StateInv s)
    (h : hostWriteBytes s sp a vs = .next t) : StateInv t := by
  have hmem := memsWithin_hostWriteBytes hs.memsWithin h
  obtain ⟨-, rfl⟩ := hostWriteBytes_eq_next.1 h
  exact stateInv_iff.2 ⟨hs.regInv.putBytes _ _ _, packetInv_putBytes.2 hs.packet, hmem⟩

theorem hostAppend_keeps_stateInv {s t : State} {bytes : List Byte} (hs : StateInv s)
    (h : hostAppend s bytes = .next t) : StateInv t := by
  obtain ⟨s', hw, ht⟩ := andThen_eq_next.1 h
  obtain ⟨hreg, hpkt, hmem⟩ := stateInv_iff.1 (hostWriteBytes_keeps_stateInv hs hw)
  cases ht
  exact stateInv_iff.2 ⟨hreg.regSet .inLen nofun nofun, (packetInv_regSet (by decide) (by decide)).2 hpkt,
    memsWithin_regSet hmem _ _⟩

theorem hostAct_keeps_stateInv {s t : State} {act : HostAction} (hs : StateInv s) (h : hostAct s act = .next t) :
    StateInv t := by
  cases act with
  | writeReg idx v => exact hostWriteReg_keeps_stateInv hs h
  | readReg idx =>
    obtain ⟨r, -, rfl⟩ := hostReadReg_next h
    exact hs.with_readData _
  | writeMem sp off bytes => exact hostWriteBytes_keeps_stateInv hs h
  | readMem sp off =>
    obtain ⟨-, rfl⟩ := hostReadMem_next h
    exact hs.with_readData _
  | shift k => exact hostShift_keeps_stateInv hs h
  | append bytes => exact hostAppend_keeps_stateInv hs h

/-- Settles O56: a step is idle or one host action, and every host action keeps the three parts of `stateInv_iff`. -/
theorem everyStepKeepsTheInvariant : Obligations.EveryStepKeepsTheInvariant := by
  unfold Obligations.EveryStepKeepsTheInvariant
  intro s t hs h
  rcases step_next h with ⟨-, rfl⟩ | ⟨act, rest, -, hact⟩
  · exact hs
  · exact hostAct_keeps_stateInv (hs.with_pending rest) hact

/-! ### Power-on -/

/-- Power-on satisfies the invariant: every register is 0 and every memory empty. -/
theorem stateInv_resetWith {c : Config} (hc : c.wellFormed = true) : StateInv (State.resetWith c) := by
  have hpos : 0 < 2 ^ c.cntW := Nat.two_pow_pos _
  exact stateInv_iff.2 ⟨⟨hc, ⟨.encodeData, (by decide : decode 0x00#8 = .ok .encodeData)⟩, hpos, hpos, hpos, Nat.zero_le _⟩, ⟨Nat.le_refl _, Nat.zero_le _⟩,
    memsWithin_reset c⟩

/-- Settles O55: `stateInv_resetWith`; the model's own parameters are well-formed. -/
theorem powerOnSatisfiesTheInvariant : Obligations.PowerOnSatisfiesTheInvariant := by
  unfold Obligations.PowerOnSatisfiesTheInvariant
  have hchip : Config.chip.wellFormed = true := by decide
  exact ⟨fun _ => stateInv_resetWith, hchip, stateInv_resetWith hchip⟩

end Sys2Proof.Machine
end

section
/-! PROOF. The host's streaming loop (43_stream_decoder.md R186): what append, DECODE_PACKET and shift do to the buffer,
then a whole feed, for any account of the stream that each packet found keeps up. -/

namespace Sys2Proof.Machine

/-! ### The buffer under the loop's three actions -/

/-- The state of a loop that works with the parameters `g` and the capacity `cap`, when its buffer holds `B`. -/
structure Ready (g : Config) (cap : Nat) (s : State) (B : List Byte) : Prop where
  inv : StateInv s
  cfg : s.cfg = g
  cap : s.pktCap = cap
  written : writtenRun s .inp 0 s.inLen = B
  length : B.length = s.inLen
  fits : s.inLen ≤ g.inSize

/-- An empty buffer is ready. -/
theorem ready_nil {s : State} (hs : StateInv s) (h : s.inLen = 0) : Ready s.cfg s.pktCap s [] where
  inv := hs
  cfg := rfl
  cap := rfl
  written := by rw [h]; rfl
  length := h.symm
  fits := h ▸ Nat.zero_le _

/-- A buffer of bytes that stand in IN_MEM one by one. -/
theorem writtenRun_of_byteAt {s : State} {x : List Byte} (hlen : x.length = s.inLen)
    (h : ∀ k < x.length, byteAt s .inp k = some (x.getD k 0#8)) : writtenRun s .inp 0 s.inLen = x := by
  rw [← hlen]
  refine writtenRun_eq_iff.2 fun k hk => ?_
  rw [Nat.zero_add, h k hk, List.getD_eq_getElem _ _ hk]

section
variable {g : Config} {cap : Nat} {s : State} {B : List Byte}

theorem Ready.byteAt (h : Ready g cap s B) {k : Nat} (hk : k < B.length) : byteAt s .inp k = some (B.getD k 0#8) := by
  rw [← h.written] at hk ⊢
  exact byteAt_eq_getD hk

/-- A DECODE_PACKET keeps the buffer. -/
theorem Ready.of_decodePacket {t : State} (h : Ready g cap s B) (hrun : exec .decodePacket s = .next t) :
    Ready g cap t B := by
  have hframe := (execDecodePacket_frame hrun).regs
  have hcfg : t.cfg = s.cfg := by rw [hframe]
  have hcap : t.pktCap = s.pktCap := by rw [hframe]
  have hlen : t.inLen = s.inLen := by rw [hframe]
  have hrunEq : writtenRun t .inp 0 s.inLen = writtenRun s .inp 0 s.inLen :=
    writtenRun_congr _ fun _ _ => by rw [hframe]; rfl
  exact ⟨exec_keeps_stateInv h.inv hrun, hcfg.trans h.cfg, hcap.trans h.cap, by rw [hlen, hrunEq, h.written],
    h.length.trans hlen.symm, hlen ▸ h.fits⟩

/-- A call on a buffer with no whole frame. -/
theorem Ready.decode_missed (h : Ready g cap s B) (he : closeAt g.seekMode B = none) :
    ∃ t, exec .decodePacket s = .next t ∧ t.result = 0 ∧ Ready g cap t B := by
  have hrun : exec .decodePacket s = .next _ :=
    (execDecodePacket_missed h.inv (h.cfg ▸ h.fits) h.written.symm (h.cfg ▸ he)).trans (if_pos h.length)
  exact ⟨_, hrun, rfl, h.of_decodePacket hrun⟩

/-- A call on a buffer with a whole frame. -/
theorem Ready.decode_found {c e : Nat} (h : Ready g cap s B) (hc : commandAt g.seekMode B = some c)
    (he : closeAt g.seekMode B = some e) :
    ∃ t, exec .decodePacket s = .next t ∧ t.result = (nextAt g.seekMode B).getD B.length ∧
      packetOf t = packetAt cap B c e ∧ Ready g cap t B := by
  obtain ⟨t, hrun, hres, hpkt, -⟩ :=
    exec_decodePacket_packet h.inv (h.cfg ▸ h.fits) h.written h.length (h.cfg ▸ hc) (h.cfg ▸ he)
  rw [h.cfg] at hres
  rw [h.cap] at hpkt
  exact ⟨t, hrun, hres, hpkt, h.of_decodePacket hrun⟩

/-- A shift drops bytes from the front of the buffer. -/
theorem Ready.shift (h : Ready g cap s B) {r : Nat} (hr : r ≤ B.length) :
    ∃ u, hostShift s r = .next u ∧ Ready g cap u (B.drop r) := by
  have hr' : r ≤ s.inLen := h.length ▸ hr
  have hfits : s.inLen ≤ s.cfg.inSize := h.cfg.symm ▸ h.fits
  obtain ⟨t, hmove, ht, hb, -⟩ := hostMoveDown_spec r (s.inLen - r) 0 s (by omega)
  have hrun : hostShift s r = .next (regSet t .inLen (s.inLen - r)) := by
    rw [hostShift, if_pos hr', hmove, andThen_next]
  have hcfg : t.cfg = s.cfg := by rw [ht]
  have hcap : t.pktCap = s.pktCap := by rw [ht]
  have hlen : (regSet t .inLen (s.inLen - r)).inLen = s.inLen - r :=
    toCount_eq (hcfg ▸ h.inv.cfg) (.inl (by rw [hcfg]; omega))
  have hdrop : (B.drop r).length = s.inLen - r := by rw [List.length_drop, h.length]
  refine ⟨_, hrun, hostShift_keeps_stateInv h.inv hrun, hcfg.trans h.cfg, hcap.trans h.cap,
    writtenRun_of_byteAt (hdrop.trans hlen.symm) fun k hk => ?_, hdrop.trans hlen.symm, ?_⟩
  · rw [hdrop] at hk
    rw [regSet_keeps_byteAt, ← Nat.zero_add k]
    refine hb k _ hk ?_
    rw [Nat.zero_add, h.byteAt (by rw [h.length]; omega), List.getD_eq_getElem?_getD, List.getD_eq_getElem?_getD,
      List.getElem?_drop, Nat.add_comm]
  · rw [hlen]
    exact (Nat.sub_le _ _).trans h.fits

/-- An append that fits lengthens the buffer. -/
theorem Ready.append (h : Ready g cap s B) {ch : List Byte} (hfit : B.length + ch.length ≤ g.inSize) :
    ∃ t, hostAppend s ch = .next t ∧ Ready g cap t (B ++ ch) := by
  rw [h.length] at hfit
  have hfit' : s.inLen + ch.length ≤ s.cfg.inSize := h.cfg.symm ▸ hfit
  have hrun : hostAppend s ch = .next (regSet (putBytes s .inp s.inLen ch) .inLen (s.inLen + ch.length)) := by
    rw [hostAppend, hostWriteBytes_eq_next.2 ⟨.inr hfit', rfl⟩, andThen_next]
  have hcap : (putBytes s .inp s.inLen ch).pktCap = s.pktCap := regRead_putBytes s .inp s.inLen ch .pktCap
  have hcfg : (putBytes s .inp s.inLen ch).cfg = s.cfg := putBytes_keeps_cfg ..
  have hlen : (regSet (putBytes s .inp s.inLen ch) .inLen (s.inLen + ch.length)).inLen = s.inLen + ch.length :=
    toCount_eq (hcfg ▸ h.inv.cfg) (.inl (hcfg ▸ hfit'))
  have hlenB : (B ++ ch).length = s.inLen + ch.length := by rw [List.length_append, h.length]
  refine ⟨_, hrun, hostAppend_keeps_stateInv h.inv hrun, hcfg.trans h.cfg, hcap.trans h.cap,
    writtenRun_of_byteAt (hlenB.trans hlen.symm) fun k hk => ?_, hlenB.trans hlen.symm, hlen.symm ▸ hfit⟩
  rw [regSet_keeps_byteAt]
  rcases Nat.lt_or_ge k B.length with hkB | hkB
  · rw [byteAt_putBytes_other _ _ (.inr (.inl (h.length ▸ hkB))), h.byteAt hkB, List.getD_append _ _ _ _ hkB]
  · obtain ⟨j, rfl⟩ := Nat.exists_eq_add_of_le hkB
    have hj : j < ch.length := by rw [List.length_append] at hk; omega
    rw [h.length, byteAt_putBytes_same _ _ _ _ hj, ← h.length, List.getD_append_right _ _ _ _ (Nat.le_add_right _ _),
      Nat.add_sub_cancel_left, List.getD_eq_getElem _ _ hj]

end

/-! ### A feed -/

/-- `Q R es W` accounts for a stream under seek mode `m`: with `W` the bytes not yet consumed and `R` the chunks not yet
appended, the packets still to be found are `es`. -/
structure StreamLaw (m : SeekMode) (Q : List (List Byte) → List Packet → List Byte → Prop) : Prop where
  /-- a frame found in the buffer is the next packet, and the account goes on after what the call consumes -/
  found : ∀ {R es B c e}, Q R es (B ++ R.flatten) → commandAt m B = some c → closeAt m B = some e →
    ∃ f es', es = f :: es' ∧ (∀ cap, packetAt cap B c e = f.cut cap) ∧
      Q R es' (B.drop ((nextAt m B).getD B.length) ++ R.flatten)
  /-- appending a chunk consumes nothing -/
  appended : ∀ {ch R es W}, Q (ch :: R) es W → Q R es W
  /-- at the end of the stream a buffer with no whole frame leaves no packet to be found -/
  ended : ∀ {es B}, Q [] es B → closeAt m B = none → es = []

/-- Between two chunks: the buffer `B` holds no whole frame, and `Q` accounts for the rest of the stream. -/
structure Waiting (g : Config) (cap : Nat) (Q : List (List Byte) → List Packet → List Byte → Prop)
    (R : List (List Byte)) (es : List Packet) (s : State) (B : List Byte) : Prop extends Ready g cap s B where
  noFrame : closeAt g.seekMode B = none
  account : Q R es (B ++ R.flatten)

section
variable {g : Config} {cap : Nat} {Q : List (List Byte) → List Packet → List Byte → Prop}
  (law : StreamLaw g.seekMode Q)
include law

/-- Draining finds packets in order until the buffer holds no whole frame: each round consumes a byte at least, so the
fuel is enough. -/
theorem drain_waits {R : List (List Byte)} {k : Nat} {s : State} {B : List Byte} {es : List Packet}
    (hs : Ready g cap s B) (hk : B.length < k) (hQ : Q R es (B ++ R.flatten)) :
    ∃ t B' ps es', drain k s = .next (t, ps.map (Packet.cut cap)) ∧ es = ps ++ es' ∧ B'.length ≤ B.length ∧
      Waiting g cap Q R es' t B' := by
  induction k generalizing s B es with
  | zero => exact absurd hk (Nat.not_lt_zero _)
  | succ k ih =>
    cases he : closeAt g.seekMode B with
    | none =>
      obtain ⟨t, hrun, hres, ht⟩ := hs.decode_missed he
      refine ⟨t, B, [], es, ?_, rfl, Nat.le_refl _, ht, he, hQ⟩
      rw [drain, hrun, andThen_next, if_pos hres]
      rfl
    | some e =>
      obtain ⟨c, hc, -⟩ := Option.bind_eq_some_iff.1 he
      obtain ⟨t, hrun, hres, hpkt, ht⟩ := hs.decode_found hc he
      have hpos := closeAt_lt_next hc he
      have hle := nextAt_getD_le (m := g.seekMode) (Nat.le_refl B.length)
      obtain ⟨u, hshift, hu⟩ := ht.shift (r := t.result) (hres ▸ hle)
      obtain ⟨f, es', rfl, hf, hQ'⟩ := law.found hQ hc he
      have hdrop : (B.drop t.result).length = B.length - t.result := List.length_drop
      obtain ⟨v, B', ps, es'', hdrain, rfl, hB', hv⟩ := ih hu (by omega) (hres ▸ hQ')
      refine ⟨v, B', f :: ps, es'', ?_, rfl, by omega, hv⟩
      rw [drain, hrun, andThen_next, if_neg (by omega), hshift, andThen_next, hdrain, andThen_next, hpkt, hf]
      rfl

theorem feedChunk_waits {R : List (List Byte)} {s : State} {B ch : List Byte} {es : List Packet}
    (hs : Waiting g cap Q (ch :: R) es s B) (hfit : B.length + ch.length ≤ g.inSize) :
    ∃ t B' ps es', feedChunk s ch = .next (t, ps.map (Packet.cut cap)) ∧ es = ps ++ es' ∧
      B'.length ≤ B.length + ch.length ∧ Waiting g cap Q R es' t B' := by
  obtain ⟨t, happend, ht⟩ := hs.toReady.append hfit
  have hQ : Q R es (B ++ ch ++ R.flatten) := by
    rw [List.append_assoc]
    exact law.appended hs.account
  obtain ⟨u, B', ps, es', hdrain, hes, hB', hu⟩ := drain_waits law (k := t.inLen + 1) ht (by rw [ht.length]; omega) hQ
  rw [List.length_append] at hB'
  exact ⟨u, B', ps, es', by rw [feedChunk, happend, andThen_next, hdrain], hes, hB', hu⟩

/-- A feed whose chunks fit finds the packets of the stream in order, and ends with none left. -/
theorem feed_decodes {R : List (List Byte)} {s : State} {B : List Byte} {es : List Packet}
    (hs : Waiting g cap Q R es s B) (hfit : appendsFit R s = true) :
    ∃ t B', feed R s = .next (t, es.map (Packet.cut cap)) ∧ Waiting g cap Q [] [] t B' := by
  induction R generalizing s B es with
  | nil =>
    have hes : es = [] := law.ended (by simpa using hs.account) hs.noFrame
    subst hes
    exact ⟨s, B, rfl, hs⟩
  | cons ch R ih =>
    rw [appendsFit, Bool.and_eq_true, decide_eq_true_eq, ← hs.length, hs.cfg] at hfit
    obtain ⟨hch, hrest⟩ := hfit
    obtain ⟨t, B', ps, es', hfeed, rfl, -, ht⟩ := feedChunk_waits law hs hch
    rw [hfeed] at hrest
    obtain ⟨u, B'', hmore, hu⟩ := ih ht hrest
    refine ⟨u, B'', ?_, hu⟩
    rw [feed, hfeed, andThen_next, hmore, andThen_next, List.map_append]

end

end Sys2Proof.Machine
end

section
/-! PROOF. Streams of frames under the two seek modes (43_stream_decoder.md R186): where in the rest of a stream the next
packet is found, and what is left of the stream after it. -/

namespace Sys2Proof.Machine

/-! ### The stream's bytes -/

/-- The command byte of a packet's frame. -/
def commandByte (f : Packet) : Byte := packByte (zext8 f.cmd) (zext8 f.port)

/-- The bytes after the command byte of a stream's first frame. -/
def afterCommand (f : Packet) (fs : List Packet) : List Byte := escAll f.payload ++ FEND :: streamOf fs

theorem streamOf_cons (f : Packet) (fs : List Packet) :
    streamOf (f :: fs) = FEND :: commandByte f :: afterCommand f fs := by
  rw [streamOf, List.map_cons, List.flatten_cons, frame_eq]
  simp only [afterCommand, commandByte, streamOf, List.append_assoc, List.cons_append, List.nil_append]

theorem streamOf_append (fs fs' : List Packet) : streamOf (fs ++ fs') = streamOf fs ++ streamOf fs' := by
  rw [streamOf, List.map_append, List.flatten_append]
  rfl

theorem packetAt_command (f : Packet) (pre : List Byte) (fs : List Packet) (cap : Nat) :
    packetAt cap (pre ++ commandByte f :: afterCommand f fs) pre.length
      (pre.length + 1 + (escAll f.payload).length) = f.cut cap := by
  rw [afterCommand, packetAt_of_body, dec_escAll, commandByte, packByte_zext8_low, packByte_zext8_high]
  rfl

/-! ### Where the next packet is found -/

/-- The scanner under `m` that is given all of `W` finds the first of `es` in it, and then the rest of their stream
follows; or `es` is empty, and it meets no command byte. -/
def Ahead (m : SeekMode) (W : List Byte) : List Packet → Prop
  | [] => commandAt m W = none
  | f :: fs => ∃ pre, W = pre ++ commandByte f :: afterCommand f fs ∧ commandAt m W = some pre.length

section
variable {m : SeekMode}

/-- The frame of the packet ahead is closed after its payload. -/
theorem Ahead.closeAt_eq {f : Packet} {fs : List Packet} {pre : List Byte}
    (hc : commandAt m (pre ++ commandByte f :: afterCommand f fs) = some pre.length) :
    closeAt m (pre ++ commandByte f :: afterCommand f fs) = some (pre.length + 1 + (escAll f.payload).length) :=
  closeAt_of_body hc (FEND_notMem_escAll f.payload)

/-- With no frame in all of `W` there is no packet ahead. -/
theorem Ahead.eq_nil {W : List Byte} {es : List Packet} (h : Ahead m W es) (hnone : closeAt m W = none) :
    es = [] := by
  cases es with
  | nil => rfl
  | cons f fs =>
    obtain ⟨pre, rfl, hc⟩ := h
    rw [Ahead.closeAt_eq hc] at hnone
    cases hnone

/-- A call on the first part of `W` that finds a frame finds the packet ahead, and the rest of the stream follows the
closing delimiter. -/
theorem Ahead.found {B r : List Byte} {es : List Packet} {c e : Nat} (h : Ahead m (B ++ r) es)
    (hc : commandAt m B = some c) (he : closeAt m B = some e) :
    ∃ f fs, es = f :: fs ∧ (∀ cap, packetAt cap B c e = f.cut cap) ∧ B.drop (e + 1) ++ r = streamOf fs := by
  have hc' := commandAt_append hc r
  have he' := closeAt_append he r
  obtain ⟨hce, heB, -⟩ := closeAt_spec hc he
  cases es with
  | nil => exact absurd (hc'.symm.trans h) nofun
  | cons f fs =>
    obtain ⟨pre, hW, hpre⟩ := h
    have hc'' : c = pre.length := Option.some.inj (hc'.symm.trans hpre)
    have he'' : e = pre.length + 1 + (escAll f.payload).length := by
      rw [hW] at he' hpre
      exact Option.some.inj (he'.symm.trans (Ahead.closeAt_eq hpre))
    refine ⟨f, fs, rfl, fun cap => ?_, ?_⟩
    · rw [← packetAt_append (hce.trans heB) heB r, hW, hc'', he'', packetAt_command]
    · rw [← List.drop_append_of_le_length heB, hW, he'', afterCommand, drop_after_body]

/-- What a call consumes after a frame: nothing more, if its buffer ends there; else the opening delimiter of the next
frame, for that frame's command byte is none. -/
theorem rest_after_frame {B r : List Byte} {fs : List Packet} {c e : Nat} (hc : commandAt m B = some c)
    (he : closeAt m B = some e) (hrest : B.drop (e + 1) ++ r = streamOf fs)
    (hgood : ∀ f ∈ fs, commandByte f ≠ FEND) :
    (B.drop ((nextAt m B).getD B.length) = [] ∧ r = streamOf fs) ∨
      ∃ f fs', fs = f :: fs' ∧ FEND :: (B.drop ((nextAt m B).getD B.length) ++ r) = streamOf fs := by
  cases hD : B.drop (e + 1) with
  | nil =>
    have hnext := nextAt_of_padding hc he (P := []) (z := []) hD (by simp) (by simp)
    rw [hD] at hrest
    exact .inl ⟨by rw [hnext]; exact hD, hrest⟩
  | cons d z =>
    rw [hD] at hrest
    cases fs with
    | nil => exact absurd hrest nofun
    | cons f fs =>
      rw [streamOf_cons, List.cons_append, List.cons.injEq] at hrest
      obtain ⟨rfl, hrest⟩ := hrest
      have hz : ∀ b, z.head? = some b → b ≠ FEND := fun b hb => by
        obtain ⟨z', rfl⟩ := List.head?_eq_some_iff.1 hb
        rw [(List.cons.inj hrest).1]
        exact hgood f List.mem_cons_self
      have hnext := nextAt_of_padding hc he (P := [FEND]) hD (by simp) hz
      have hdrop : B.drop ((nextAt m B).getD B.length) = z := by
        rw [hnext, ← List.drop_drop, hD]
        rfl
      exact .inr ⟨f, fs, rfl, by rw [hdrop, hrest, streamOf_cons]⟩

end

/-! ### STREAM_BOUNDARY -/

/-- The account of a stream under STREAM_BOUNDARY: the frames of `es` follow, but for the opening delimiter of the first,
if the call that found the packet before consumed it. -/
structure FramesFollow (es : List Packet) (W : List Byte) : Prop where
  good : ∀ f ∈ es, commandByte f ≠ FEND
  rest : W = streamOf es ∨ FEND :: W = streamOf es

theorem FramesFollow.nil {W : List Byte} (h : FramesFollow [] W) : W = [] :=
  h.rest.resolve_right nofun

/-- The next command byte stands at the front of the rest, or right after one delimiter. -/
theorem FramesFollow.cons {f : Packet} {fs : List Packet} {W : List Byte} (h : FramesFollow (f :: fs) W) :
    ∃ pre, pre.length ≤ 1 ∧ W = pre ++ commandByte f :: afterCommand f fs ∧
      commandAt .streamBoundary W = some pre.length := by
  have hgood : commandByte f ≠ FEND := h.good f List.mem_cons_self
  have hW := h.rest
  rw [streamOf_cons] at hW
  rcases hW with rfl | hW
  · exact ⟨[FEND], Nat.le_refl 1, rfl, commandAt_delimiters (P := [FEND]) (by simp) (by simp) hgood _⟩
  · obtain rfl := (List.cons.inj hW).2
    have hfront := firstFrom_span (p := (· != FEND)) (mid := []) (by simp) (bne_iff_ne.2 hgood) [] (afterCommand f fs)
    exact ⟨[], Nat.zero_le 1, rfl, hfront⟩

theorem FramesFollow.ahead {es : List Packet} {W : List Byte} (h : FramesFollow es W) :
    Ahead .streamBoundary W es := by
  cases es with
  | nil =>
    rw [h.nil]
    rfl
  | cons f fs =>
    obtain ⟨pre, -, hW, hc⟩ := h.cons
    exact ⟨pre, hW, hc⟩

theorem streamLaw_framesFollow : StreamLaw .streamBoundary fun _ => FramesFollow where
  found h hc he := by
    obtain ⟨f, fs, rfl, hf, hrest⟩ := h.ahead.found hc he
    have hgood := (List.forall_mem_cons.1 h.good).2
    refine ⟨f, fs, rfl, hf, hgood, ?_⟩
    rcases rest_after_frame hc he hrest hgood with ⟨hnil, hr⟩ | ⟨_, _, -, hr⟩
    · exact .inl (by rw [hnil, hr]; rfl)
    · exact .inr hr
  appended := id
  ended h := h.ahead.eq_nil

/-- An index found in a longer sequence is found in a shorter one that reaches beyond it. -/
theorem firstFrom_of_append {p : Byte → Bool} {y z : List Byte} {h c : Nat} (hf : firstFrom p (y ++ z) h = some c)
    (hc : c < y.length) : firstFrom p y h = some c := by
  cases hy : firstFrom p y h with
  | none =>
    have hle := length_le_firstFrom_append (z := z) hy
    rw [hf, Option.getD_some] at hle
    omega
  | some d => exact (firstFrom_append_left hy z).symm.trans hf

/-- A buffer in which no frame is closed is shorter than the first frame that follows. -/
theorem length_lt_frame {B r : List Byte} {f : Packet} {fs : List Packet} (h : FramesFollow (f :: fs) (B ++ r))
    (hnone : closeAt .streamBoundary B = none) : B.length < (frame f.cmd f.port f.payload).length := by
  obtain ⟨pre, hpre, hW, hc⟩ := h.cons
  have he := Ahead.closeAt_eq (hW ▸ hc)
  rw [← hW, closeAt_of_commandAt hc] at he
  by_contra hlong
  rw [frame_length] at hlong
  have hcB : commandAt .streamBoundary B = some pre.length := firstFrom_of_append hc (by omega)
  have heB := firstFrom_of_append he (by omega)
  rw [closeAt_of_commandAt hcB, heB] at hnone
  cases hnone

/-- The chunks of a stream fit one by one when all the rest of it does, or when a chunk and a frame always fit
together. -/
theorem appendsFit_of_waiting {g : Config} {cap : Nat} (hm : g.seekMode = .streamBoundary) {R : List (List Byte)}
    {s : State} {B : List Byte} {es : List Packet} (hs : Waiting g cap (fun _ => FramesFollow) R es s B)
    (hfit : B.length + R.flatten.length ≤ g.inSize ∨
      ∀ f ∈ es, ∀ ch ∈ R, (frame f.cmd f.port f.payload).length + ch.length ≤ g.inSize) :
    appendsFit R s = true := by
  induction R generalizing s B es with
  | nil => rfl
  | cons ch R ih =>
    rw [List.flatten_cons, List.length_append] at hfit
    have hch : B.length + ch.length ≤ g.inSize := by
      rcases hfit with hall | hone
      · omega
      · cases es with
        | nil =>
          have hempty := congrArg List.length hs.account.nil
          simp only [List.flatten_cons, List.length_append, List.length_nil] at hempty
          omega
        | cons f fs =>
          have hlt := length_lt_frame hs.account (hm ▸ hs.noFrame)
          have hf := hone f List.mem_cons_self ch List.mem_cons_self
          omega
    obtain ⟨t, B', ps, es', hfeed, rfl, hB', ht⟩ := feedChunk_waits (hm ▸ streamLaw_framesFollow) hs hch
    rw [appendsFit, Bool.and_eq_true, decide_eq_true_eq, ← hs.length, hs.cfg, hfeed]
    refine ⟨hch, ih ht ?_⟩
    refine hfit.imp (fun hall => by omega) fun hone f hf d hd => ?_
    exact hone f (List.mem_append_right ps hf) d (List.mem_cons_of_mem ch hd)

/-- Settles O37: the loop's account is `FramesFollow`; at the end of the stream it leaves an empty buffer. -/
theorem streamOfFramesIsDecodedInOrder : Obligations.StreamOfFramesIsDecodedInOrder := by
  unfold Obligations.StreamOfFramesIsDecodedInOrder
  intro s fs chunks hs hm hlen hgood hstream
  have hstart : Waiting s.cfg s.pktCap (fun _ => FramesFollow) chunks fs s [] :=
    { ready_nil hs hlen with
      noFrame := by rw [hm]; rfl
      account := ⟨hgood, .inl hstream⟩ }
  refine ⟨fun hfit => ?_, fun hfit => appendsFit_of_waiting hm hstart (hfit.imp_left fun h => ?_)⟩
  · obtain ⟨t, B, hfeed, ht⟩ := feed_decodes (hm ▸ streamLaw_framesFollow) hstart hfit
    refine ⟨t, hfeed, ?_⟩
    have hB : B = [] := by simpa using ht.account.nil
    rw [← ht.length, hB]
    rfl
  · rwa [List.length_nil, Nat.zero_add]

/-! ### BUFFER_DELIMITER -/

/-- Under BUFFER_DELIMITER the scanner passes over all bytes before the first delimiter. -/
theorem seekFrom_bufferDelimiter {junk : List Byte} (hjunk : FEND ∉ junk) (rest : List Byte) :
    seekFrom .bufferDelimiter (junk ++ FEND :: rest) = some (junk.length + 1) := by
  have hmid : ∀ a ∈ junk, (a == FEND) = false := fun a ha => beq_eq_false_iff_ne.2 fun h => hjunk (h ▸ ha)
  have hspan := firstFrom_span hmid (beq_self_eq_true FEND) [] rest
  rw [List.nil_append, List.length_nil, Nat.zero_add] at hspan
  rw [seekFrom, hspan]
  rfl

/-- No chunk of `R` ends at the end of the first, third, fifth, ... frame of `es`, but the stream's last (log 21). -/
def NoCutAfterFound (R : List (List Byte)) (es : List Packet) : Prop :=
  ∀ n i, (R.drop n).flatten = streamOf (es.drop (2 * i + 1)) → es.length ≤ 2 * i + 1

/-- The account of a stream under BUFFER_DELIMITER: the frames of `fs` follow, of which every second is found, all of
them or after what the call that found the packet before left of the frame `f`. -/
structure EverySecondFollows (R : List (List Byte)) (es : List Packet) (W : List Byte) : Prop where
  frames : ∃ fs, es = everySecond fs ∧ NoCutAfterFound R fs ∧ (∀ f ∈ fs, commandByte f ≠ FEND) ∧
    (W = streamOf fs ∨ ∃ f, commandByte f ≠ FEND ∧ FEND :: W = streamOf (f :: fs))

theorem everySecond_cons (f : Packet) (fs : List Packet) : everySecond (f :: fs) = f :: everySecond fs.tail := by
  cases fs <;> rfl

theorem NoCutAfterFound.tail_tail {R : List (List Byte)} {f f' : Packet} {fs : List Packet}
    (h : NoCutAfterFound R (f :: f' :: fs)) : NoCutAfterFound R fs := fun n i hcut => by
  have hlen := h n (i + 1) hcut
  simp only [List.length_cons] at hlen
  omega

/-- Where a chunk ends right after a frame that is found, that frame is the last. -/
theorem NoCutAfterFound.eq_nil {R : List (List Byte)} {f : Packet} {fs : List Packet}
    (h : NoCutAfterFound R (f :: fs)) (hcut : R.flatten = streamOf fs) : fs = [] :=
  List.eq_nil_of_length_eq_zero (Nat.le_zero.1 (Nat.le_of_succ_le_succ (h 0 0 hcut)))

/-- From the start of a frame on, the next packet is that frame's. -/
theorem ahead_streamOf {fs : List Packet} (hgood : ∀ f ∈ fs, commandByte f ≠ FEND) :
    Ahead .bufferDelimiter (streamOf fs) fs := by
  cases fs with
  | nil => rfl
  | cons f fs =>
    rw [streamOf_cons]
    exact ⟨[FEND], rfl, commandAt_delimiters (P := [FEND]) (by simp) (by simp) (hgood f List.mem_cons_self) _⟩

/-- From inside a frame on, the scanner passes over that frame: it takes its closing delimiter for an opening one. -/
theorem ahead_afterOpening {f : Packet} {fs : List Packet} {W : List Byte} (hf : commandByte f ≠ FEND)
    (hgood : ∀ f ∈ fs, commandByte f ≠ FEND) (hW : FEND :: W = streamOf (f :: fs)) :
    Ahead .bufferDelimiter W fs := by
  have hjunk : FEND ∉ commandByte f :: escAll f.payload :=
    List.not_mem_cons_of_ne_of_not_mem (Ne.symm hf) (FEND_notMem_escAll f.payload)
  have hseek := seekFrom_bufferDelimiter hjunk (streamOf fs)
  have hW' : W = commandByte f :: escAll f.payload ++ FEND :: streamOf fs := by
    rw [streamOf_cons] at hW
    exact (List.cons.inj hW).2
  cases fs with
  | nil =>
    have hnone := firstFrom_span_none (p := (· != FEND)) (mid := []) (by simp)
      (commandByte f :: escAll f.payload ++ [FEND])
    rw [List.append_nil, List.length_append] at hnone
    subst hW'
    exact (congrArg (Option.bind · _) hseek).trans hnone
  | cons f' fs =>
    have hsome := firstFrom_span (p := (· != FEND)) (mid := [FEND]) (by simp)
      (bne_iff_ne.2 (hgood f' List.mem_cons_self)) (commandByte f :: escAll f.payload ++ [FEND]) (afterCommand f' fs)
    have hsplit : commandByte f :: escAll f.payload ++ FEND :: streamOf (f' :: fs) =
        (commandByte f :: escAll f.payload ++ [FEND]) ++ ([FEND] ++ commandByte f' :: afterCommand f' fs) := by
      rw [streamOf_cons, List.append_assoc]
      rfl
    refine ⟨commandByte f :: escAll f.payload ++ [FEND] ++ [FEND], by rw [hW', hsplit, ← List.append_assoc], ?_⟩
    rw [hW', commandAt, hseek, Option.bind_some, hsplit]
    simpa only [List.length_append, List.length_singleton] using hsome

/-- Either way the next packet is the first of `fs`. -/
theorem ahead_everySecond {fs : List Packet} {W : List Byte} (hgood : ∀ f ∈ fs, commandByte f ≠ FEND)
    (hW : W = streamOf fs ∨ ∃ f, commandByte f ≠ FEND ∧ FEND :: W = streamOf (f :: fs)) :
    Ahead .bufferDelimiter W fs := by
  rcases hW with rfl | ⟨f, hf, hW⟩
  · exact ahead_streamOf hgood
  · exact ahead_afterOpening hf hgood hW

theorem streamLaw_everySecondFollows : StreamLaw .bufferDelimiter EverySecondFollows where
  found h hc he := by
    obtain ⟨fs, rfl, hcut, hgood, hW⟩ := h.frames
    obtain ⟨g, fs, rfl, hg, hrest⟩ := (ahead_everySecond hgood hW).found hc he
    refine ⟨g, everySecond fs.tail, everySecond_cons g fs, hg, ?_⟩
    have hgood' := (List.forall_mem_cons.1 hgood).2
    rcases rest_after_frame hc he hrest hgood' with ⟨hnil, hr⟩ | ⟨f, fs', rfl, hr⟩
    · have hfs := hcut.eq_nil hr
      subst hfs
      exact ⟨[], rfl, fun _ _ _ => Nat.zero_le _, nofun, .inl (by rw [hnil, hr]; rfl)⟩
    · obtain ⟨hf, hgood''⟩ := List.forall_mem_cons.1 hgood'
      exact ⟨fs', rfl, hcut.tail_tail, hgood'', .inr ⟨f, hf, hr⟩⟩
  appended h := by
    obtain ⟨fs, hes, hcut, hrest⟩ := h.frames
    exact ⟨fs, hes, fun n i => hcut (n + 1) i, hrest⟩
  ended h hnone := by
    obtain ⟨fs, rfl, -, hgood, hW⟩ := h.frames
    rw [(ahead_everySecond hgood hW).eq_nil hnone]
    rfl

/-- The statement's premise on the chunks that have been appended, as one on those that have not. -/
theorem noCutAfterFound_of_take {fs : List Packet} {chunks : List (List Byte)} (hstream : chunks.flatten = streamOf fs)
    (h : ∀ n i, (chunks.take n).flatten = streamOf (fs.take (2 * i + 1)) → fs.length ≤ 2 * i + 1) :
    NoCutAfterFound chunks fs := fun n i hcut => by
  refine h n i (List.append_cancel_right (bs := (chunks.drop n).flatten) ?_)
  rw [← List.flatten_append, List.take_append_drop, hcut, ← streamOf_append, List.take_append_drop, hstream]

/-- Settles O59: the loop's account is `EverySecondFollows`. The call that finds a frame leaves the scanner inside the
next one, as no chunk ends between the two. -/
theorem bufferDelimiterLosesEverySecondFrame : Obligations.BufferDelimiterLosesEverySecondFrame := by
  unfold Obligations.BufferDelimiterLosesEverySecondFrame
  intro s fs chunks hs hm hlen hgood hstream hcut hfit
  have hstart : Waiting s.cfg s.pktCap EverySecondFollows chunks (everySecond fs) s [] :=
    { ready_nil hs hlen with
      noFrame := by rw [hm]; rfl
      account := ⟨fs, rfl, noCutAfterFound_of_take hstream hcut, hgood, .inl hstream⟩ }
  obtain ⟨t, -, hfeed, -⟩ := feed_decodes (hm ▸ streamLaw_everySecondFollows) hstart hfit
  exact ⟨t, hfeed⟩

end Sys2Proof.Machine
end

section
/-! PROOF. The escape encoder's closed form (40_escape_codec.md R102, R103, R111): what it writes is the beginning of
the expansion, and `encFit`, the shape of its loop, is the closed form under both policies. -/

namespace Sys2Proof.Machine

/-! ### The length of an encoding -/

/-- A byte's expansion is one byte longer exactly for the two bytes that are escaped. -/
theorem esc_length_eq (b : Byte) : (esc b).length = 1 + if (b == FEND || b == ESC) = true then 1 else 0 := by
  by_cases hfend : b = FEND
  · subst hfend
    rfl
  by_cases hesc : b = ESC
  · subst hesc
    rfl
  rw [esc_of_ne hfend hesc, if_neg (by simp [hfend, hesc])]
  rfl

theorem escAll_length (x : List Byte) : (escAll x).length = x.length + x.countP fun b => b == FEND || b == ESC := by
  induction x with
  | nil => rfl
  | cons b x ih =>
    rw [escAll_cons, List.length_append, esc_length_eq, ih, List.length_cons, List.countP_cons]
    omega

theorem escAll_length_le (x : List Byte) : (escAll x).length ≤ 2 * x.length := by
  have hcount := List.countP_le_length (p := fun b : Byte => b == FEND || b == ESC) (l := x)
  rw [escAll_length]
  omega

/-- Settles O8: the exact length is `escAll_length`, and a count is at most the length. -/
theorem expansionBound : Obligations.ExpansionBound := by
  unfold Obligations.ExpansionBound
  exact fun x => ⟨escAll_length_ge x, escAll_length_le x, escAll_length x⟩

/-! ### The closed form under ATOMIC -/

/-- `k` is the largest count of bytes of `x` whose expansion fits in `cap` (R102). -/
structure LargestFit (cap : Nat) (x : List Byte) (k : Nat) : Prop where
  le : k ≤ x.length
  fits : (escAll (x.take k)).length ≤ cap
  largest : ∀ m ≤ x.length, (escAll (x.take m)).length ≤ cap → m ≤ k

/-- The search from `n` down finds the largest count up to `n`. -/
theorem fitCount_spec (cap : Nat) (x : List Byte) (n : Nat) :
    fitCount cap x n ≤ n ∧ (escAll (x.take (fitCount cap x n))).length ≤ cap ∧
      ∀ m ≤ n, (escAll (x.take m)).length ≤ cap → m ≤ fitCount cap x n := by
  induction n with
  | zero => exact ⟨Nat.le_refl 0, Nat.zero_le _, fun _ hm _ => hm⟩
  | succ n ih =>
    obtain ⟨hle, hfits, hlargest⟩ := ih
    rw [fitCount]
    split
    case isTrue h => exact ⟨Nat.le_refl _, h, fun _ hm _ => hm⟩
    case isFalse h =>
      refine ⟨Nat.le_succ_of_le hle, hfits, fun m hm hmfits => ?_⟩
      rcases Nat.le_succ_iff.1 hm with hm | rfl
      · exact hlargest m hm hmfits
      · exact absurd hmfits h

theorem largestFit_fitCount (cap : Nat) (x : List Byte) : LargestFit cap x (fitCount cap x x.length) := by
  obtain ⟨hle, hfits, hlargest⟩ := fitCount_spec cap x x.length
  exact ⟨hle, hfits, hlargest⟩

/-- A first byte whose expansion fits belongs to the largest part that fits. -/
theorem LargestFit.of_cons {cap : Nat} {b : Byte} {x : List Byte} {k : Nat} (h : LargestFit cap (b :: x) k)
    (hb : (esc b).length ≤ cap) : ∃ j, k = j + 1 ∧ LargestFit (cap - (esc b).length) x j := by
  have htake (m : Nat) : (escAll ((b :: x).take (m + 1))).length = (esc b).length + (escAll (x.take m)).length := by
    rw [List.take_succ_cons, escAll_cons, List.length_append]
  have hpos : 1 ≤ k := h.largest 1 (by simp) (by rw [htake 0]; simpa using hb)
  obtain ⟨j, rfl⟩ := Nat.exists_eq_add_of_le' hpos
  have hfits := h.fits
  rw [htake] at hfits
  refine ⟨j, rfl, by simpa using h.le, by omega, fun m hm hmfits => ?_⟩
  exact Nat.le_of_succ_le_succ (h.largest (m + 1) (by simpa using hm) (by rw [htake]; omega))

/-- A first byte whose expansion does not fit leaves nothing that fits. -/
theorem LargestFit.eq_zero {cap : Nat} {b : Byte} {x : List Byte} {k : Nat} (h : LargestFit cap (b :: x) k)
    (hb : ¬(esc b).length ≤ cap) : k = 0 := by
  by_contra hk
  obtain ⟨j, rfl⟩ := Nat.exists_eq_succ_of_ne_zero hk
  have hfits := h.fits
  rw [List.take_succ_cons, escAll_cons, List.length_append] at hfits
  omega

theorem encFit_atomic {cap : Nat} {x : List Byte} {k : Nat} (h : LargestFit cap x k) :
    encFit .atomic cap x = escAll (x.take k) := by
  induction x generalizing cap k with
  | nil => rw [List.take_nil]; rfl
  | cons b x ih =>
    rw [encFit]
    split
    case isTrue hb =>
      obtain ⟨j, rfl, hj⟩ := h.of_cons hb
      rw [List.take_succ_cons, escAll_cons, ih hj]
    case isFalse hb =>
      rw [h.eq_zero hb]
      rfl

/-! ### The closed form under SPLIT -/

theorem encFit_split (cap : Nat) (x : List Byte) : encFit .split cap x = (escAll x).take cap := by
  induction x generalizing cap with
  | nil => rw [escAll_nil, List.take_nil]; rfl
  | cons b x ih =>
    rw [encFit, escAll_cons]
    split
    case isTrue hb => rw [ih, List.take_append, List.take_of_length_le hb]
    case isFalse hb => exact (List.take_append_of_le_length (Nat.le_of_not_le hb)).symm

/-! ### Both policies -/

/-- The encoder's loop writes the closed form. -/
theorem encFit_eq_encOut (t : EncTrunc) (cap : Nat) (x : List Byte) : encFit t cap x = encOut t cap x := by
  cases t with
  | split => exact encFit_split cap x
  | atomic => exact encFit_atomic (largestFit_fitCount cap x)

theorem encOut_length_le (t : EncTrunc) (cap : Nat) (x : List Byte) : (encOut t cap x).length ≤ cap :=
  encFit_eq_encOut t cap x ▸ encFit_length_le t cap x

theorem encOut_of_fits (t : EncTrunc) {cap : Nat} {x : List Byte} (h : (escAll x).length ≤ cap) :
    encOut t cap x = escAll x := encFit_eq_encOut t cap x ▸ encFit_of_fits t h

/-- What the encoder writes is the beginning of the expansion. -/
theorem encOut_prefix (t : EncTrunc) (cap : Nat) (x : List Byte) : encOut t cap x <+: escAll x := by
  cases t with
  | split => exact List.take_prefix cap _
  | atomic =>
    refine ⟨escAll (x.drop (fitCount cap x x.length)), ?_⟩
    rw [encOut, ← escAll_append, List.take_append_drop]

/-- Settles O13: `encFit_eq_encOut` carries the loop's bounds over to the closed form, and `fitCount` is the largest
fit. -/
theorem encoderTruncationPolicies : Obligations.EncoderTruncationPolicies := by
  unfold Obligations.EncoderTruncationPolicies
  refine fun cap x => ⟨fun t => encOut_length_le t cap x, fun h t => encOut_of_fits t h, ⟨rfl, List.length_take⟩, ?_⟩
  obtain ⟨hle, hfits, hlargest⟩ := largestFit_fitCount cap x
  exact ⟨_, hle, rfl, hfits, hlargest⟩

/-- What is decoded of a sequence's beginning is the beginning of what is decoded of the sequence. -/
theorem decFrom_prefix (pend : Bool) (x y : List Byte) : decFrom pend x <+: decFrom pend (x ++ y) := by
  induction x generalizing pend with
  | nil => exact List.nil_prefix
  | cons b x ih =>
    rw [List.cons_append, decFrom_cons, decFrom_cons]
    exact (List.prefix_append_right_inj _).2 (ih _)

/-- Settles O14: what is written is the beginning of the expansion, and the expansion decodes to the input. -/
theorem truncatedEncodingDecodesToAPrefix : Obligations.TruncatedEncodingDecodesToAPrefix := by
  unfold Obligations.TruncatedEncodingDecodesToAPrefix
  intro t cap x
  obtain ⟨z, hz⟩ := encOut_prefix t cap x
  have hprefix := decFrom_prefix false (encOut t cap x) z
  rwa [hz, ← dec, ← dec, dec_escAll] at hprefix

end Sys2Proof.Machine
end

section
/-! PROOF. ENCODE_DATA, DECODE_DATA and ENCODE_PACKET (40_escape_codec.md R101, R107; 42_packet_framer.md R151): where
each completes, with what result, and where it is refused. -/

namespace Sys2Proof.Machine

/-! ### The two units on input that is not all written -/

/-- EncodeInto is refused when it meets an unwritten byte before its output fills. -/
theorem encodeInto_unwritten {s : State} {src dst : Space} {a n o cap : Nat} (hsd : src ≠ dst)
    (hsrc : a + n ≤ spaceSize s.cfg src) (hdst : o + cap ≤ spaceSize s.cfg dst)
    (h : ¬((writtenRun s src a n).length = n ∨ cap ≤ (escAll (writtenRun s src a n)).length)) :
    encodeInto s src a n dst o cap = .refused .unwrittenByte :=
  (encodeLoop_spec hsd n { i := 0, j := 0, reads := 0, writes := 0 } s (Nat.zero_le cap) hdst hsrc).2 h

/-- DecodeInto is refused when it meets an unwritten byte before its output fills. -/
theorem decodeInto_unwritten {s : State} {src dst : Space} {a n o cap : Nat} (hsd : src ≠ dst)
    (hsrc : a + n ≤ spaceSize s.cfg src) (hdst : o + cap ≤ spaceSize s.cfg dst)
    (h : ¬((writtenRun s src a n).length = n ∨ cap ≤ (dec (writtenRun s src a n)).length)) :
    decodeInto s src a n dst o cap = .refused .unwrittenByte :=
  (decodeLoop_spec hsd n { i := 0, j := 0, pend := false, reads := 0, writes := 0 } s (Nat.zero_le cap) hdst hsrc).2 h

/-! ### Bytes counted in RESULT -/

/-- The state of an operation that has put `T` in OUT_MEM and counted it in RESULT. -/
def wroteOut (s : State) (T : List Byte) : State := { putBytes s .out 0 T with result := T.length }

theorem regSet_putBytes_eq_wroteOut {s : State} {T : List Byte} (hcfg : s.cfg.wellFormed = true)
    (hT : T.length ≤ s.cfg.outSize) : regSet (putBytes s .out 0 T) .result T.length = wroteOut s T := by
  have hcount : toCount (putBytes s .out 0 T).cfg T.length = T.length := by
    rw [putBytes_keeps_cfg]
    exact toCount_eq hcfg (.inr (.inl hT))
  rw [regSet_result, hcount]
  rfl

/-- RESULT counts the bytes found in OUT_MEM. -/
theorem writtenRun_wroteOut (s : State) (T : List Byte) :
    writtenRun (wroteOut s T) .out 0 (wroteOut s T).result = T :=
  (writtenRun_congr (s := wroteOut s T) (t := putBytes s .out 0 T) (a' := 0) T.length fun _ _ => rfl).trans
    (writtenRun_putBytes s .out 0 T)

/-! ### ENCODE_DATA -/

theorem execEncodeData_inputOverrun {s : State} (h : s.cfg.inSize < s.inLen) :
    execEncodeData s = .refused .inputOverrun := by
  rw [execEncodeData, runEncodeData, if_pos h]
  rfl

theorem execEncodeData_outputOverrun {s : State} (hin : s.inLen ≤ s.cfg.inSize) (h : s.cfg.outSize < s.outCap) :
    execEncodeData s = .refused .outputOverrun := by
  rw [execEncodeData, runEncodeData, if_neg (Nat.not_lt.2 hin), if_pos h]
  rfl

theorem execEncodeData_unwritten {s : State} (hin : s.inLen ≤ s.cfg.inSize) (hout : s.outCap ≤ s.cfg.outSize)
    (h : ¬((writtenRun s .inp 0 s.inLen).length = s.inLen ∨
      s.outCap ≤ (escAll (writtenRun s .inp 0 s.inLen)).length)) :
    execEncodeData s = .refused .unwrittenByte := by
  have hrun := encodeInto_unwritten (s := s) (src := .inp) (dst := .out) (a := 0) (o := 0) (by decide)
    (by simpa [spaceSize] using hin) (by simpa [spaceSize] using hout) h
  rw [execEncodeData, runEncodeData, if_neg (Nat.not_lt.2 hin), if_neg (Nat.not_lt.2 hout), hrun]
  rfl

/-- ENCODE_DATA completes with the closed form of its input (R102). -/
theorem execEncodeData_eq_wroteOut {s : State} (hcfg : s.cfg.wellFormed = true) (hin : s.inLen ≤ s.cfg.inSize)
    (hout : s.outCap ≤ s.cfg.outSize)
    (h : (writtenRun s .inp 0 s.inLen).length = s.inLen ∨
      s.outCap ≤ (escAll (writtenRun s .inp 0 s.inLen)).length) :
    execEncodeData s = .next (wroteOut s (encOut s.cfg.encTrunc s.outCap (writtenRun s .inp 0 s.inLen))) := by
  rw [execEncodeData_ends hin hout h, encFit_eq_encOut,
    regSet_putBytes_eq_wroteOut hcfg ((encOut_length_le ..).trans hout)]

/-- Settles O15: `execEncodeData_eq_wroteOut`. -/
theorem encodeDataResult : Obligations.EncodeDataResult := by
  unfold Obligations.EncodeDataResult
  refine ⟨by decide, fun s y hs hin hout hy hend => ?_⟩
  subst hy
  exact execEncodeData_eq_wroteOut hs.cfg hin hout hend

/-- Settles O16: the checks come first, and then only an unwritten byte met before the output fills is refused. -/
theorem encodeDataRefusals : Obligations.EncodeDataRefusals := by
  unfold Obligations.EncodeDataRefusals
  exact fun s => ⟨execEncodeData_inputOverrun, execEncodeData_outputOverrun, fun hin hout hlen hroom =>
    execEncodeData_unwritten hin hout (not_or.2 ⟨hlen.ne, Nat.not_le.2 hroom⟩)⟩

/-- Settles O17: an expansion is at most twice as long as its input, so it fits. -/
theorem sizedEncodeNeverTruncates : Obligations.SizedEncodeNeverTruncates := by
  unfold Obligations.SizedEncodeNeverTruncates
  intro s x hs hin hout hroom hx hlen
  have hfit := escAll_length_le x
  exact exec_encodeData_of_fits hs hin hx hlen (by omega) hout

/-! ### DECODE_DATA -/

theorem execDecodeData_inputOverrun {s : State} (h : s.cfg.inSize < s.inLen) :
    execDecodeData s = .refused .inputOverrun := by
  rw [execDecodeData, runDecodeData, if_pos h]
  rfl

theorem execDecodeData_outputOverrun {s : State} (hin : s.inLen ≤ s.cfg.inSize) (h : s.cfg.outSize < s.outCap) :
    execDecodeData s = .refused .outputOverrun := by
  rw [execDecodeData, runDecodeData, if_neg (Nat.not_lt.2 hin), if_pos h]
  rfl

theorem execDecodeData_unwritten {s : State} (hin : s.inLen ≤ s.cfg.inSize) (hout : s.outCap ≤ s.cfg.outSize)
    (h : ¬((writtenRun s .inp 0 s.inLen).length = s.inLen ∨ s.outCap ≤ (dec (writtenRun s .inp 0 s.inLen)).length)) :
    execDecodeData s = .refused .unwrittenByte := by
  have hrun := decodeInto_unwritten (s := s) (src := .inp) (dst := .out) (a := 0) (o := 0) (by decide)
    (by simpa [spaceSize] using hin) (by simpa [spaceSize] using hout) h
  rw [execDecodeData, runDecodeData, if_neg (Nat.not_lt.2 hin), if_neg (Nat.not_lt.2 hout), hrun]
  rfl

/-- DECODE_DATA completes with what is decoded of its input, up to the capacity (R107). -/
theorem execDecodeData_eq_wroteOut {s : State} (hcfg : s.cfg.wellFormed = true) (hin : s.inLen ≤ s.cfg.inSize)
    (hout : s.outCap ≤ s.cfg.outSize)
    (h : (writtenRun s .inp 0 s.inLen).length = s.inLen ∨ s.outCap ≤ (dec (writtenRun s .inp 0 s.inLen)).length) :
    execDecodeData s = .next (wroteOut s ((dec (writtenRun s .inp 0 s.inLen)).take s.outCap)) := by
  rw [execDecodeData_ends hin hout h,
    regSet_putBytes_eq_wroteOut hcfg ((List.length_take_le _ _).trans hout)]

/-- Settles O18: `execDecodeData_eq_wroteOut`. -/
theorem decodeDataResult : Obligations.DecodeDataResult := by
  unfold Obligations.DecodeDataResult
  refine ⟨by decide, fun s y hs hin hout hy hend => ?_⟩
  subst hy
  rw [← List.length_take]
  exact execDecodeData_eq_wroteOut hs.cfg hin hout hend

/-- Settles O19: the checks come first, and then only an unwritten byte met before the output fills is refused. -/
theorem decodeDataRefusals : Obligations.DecodeDataRefusals := by
  unfold Obligations.DecodeDataRefusals
  exact fun s => ⟨execDecodeData_inputOverrun, execDecodeData_outputOverrun, fun hin hout hlen hroom =>
    execDecodeData_unwritten hin hout (not_or.2 ⟨hlen.ne, Nat.not_le.2 hroom⟩)⟩

/-! ### ENCODE_PACKET -/

theorem execEncodePacket_outputOverrun {s : State} (h : s.cfg.outSize < s.outCap) :
    execEncodePacket s = .refused .outputOverrun := by
  rw [execEncodePacket, runEncodePacket, if_pos h]
  rfl

/-- With room for the framing ENCODE_PACKET is refused when it meets an unwritten byte before its output fills. -/
theorem execEncodePacket_unwritten {s : State} (hpkt : PacketInv s) (hout : s.outCap ≤ s.cfg.outSize)
    (hroom : s.pktLen + 3 ≤ s.outCap)
    (h : ¬((writtenRun s .pkt 0 s.pktLen).length = s.pktLen ∨
      s.outCap - 3 ≤ (escAll (writtenRun s .pkt 0 s.pktLen)).length)) :
    execEncodePacket s = .refused .unwrittenByte := by
  have h0 : memWrite s .out 0 FEND = .next (putByte s .out 0 FEND) :=
    memWrite_below _ (show 0 < s.cfg.outSize by omega)
  have h1 (b : Byte) : memWrite (putByte s .out 0 FEND) .out 1 b = .next (putByte (putByte s .out 0 FEND) .out 1 b) :=
    memWrite_below _ (by rw [putByte_keeps_cfg]; show 1 < s.cfg.outSize; omega)
  have hhead : putByte (putByte s .out 0 FEND) .out 1 (packByte (zext8 s.pktCmd) (zext8 s.pktPort)) =
    putBytes s .out 0 (frameHead s) := rfl
  have hrun := encodeInto_unwritten (s := putBytes s .out 0 (frameHead s)) (src := .pkt) (dst := .out) (a := 0)
    (n := s.pktLen) (o := 2) (cap := s.outCap - 3) (by decide)
    (by rw [Nat.zero_add, putBytes_keeps_cfg]; exact hpkt.1.trans hpkt.2)
    (by rw [putBytes_keeps_cfg]; show 2 + (s.outCap - 3) ≤ s.cfg.outSize; omega)
    (by rwa [writtenRun_putBytes_other s (by decide)])
  rw [execEncodePacket, runEncodePacket, if_neg (Nat.not_lt.2 hout), if_neg (Nat.not_lt.2 hroom), h0, andThen_next, h1,
    andThen_next, hhead, hrun]
  rfl

/-- The frame ENCODE_PACKET writes of the payload `y` in the capacity it has (R151). -/
def frameOut (s : State) (y : List Byte) : List Byte :=
  frameHead s ++ encOut s.cfg.encTrunc (s.outCap - 3) y ++ [FEND]

theorem frameOut_length (s : State) (y : List Byte) :
    (frameOut s y).length = (encOut s.cfg.encTrunc (s.outCap - 3) y).length + 3 := by
  simp only [frameOut, frameHead, List.length_append, List.length_cons, List.length_nil]
  omega

/-- With room for the framing ENCODE_PACKET completes with a frame. -/
theorem execEncodePacket_eq_wroteOut {s : State} (hs : StateInv s) (hout : s.outCap ≤ s.cfg.outSize)
    (hroom : s.pktLen + 3 ≤ s.outCap)
    (h : (writtenRun s .pkt 0 s.pktLen).length = s.pktLen ∨
      s.outCap - 3 ≤ (escAll (writtenRun s .pkt 0 s.pktLen)).length) :
    execEncodePacket s = .next (wroteOut s (frameOut s (writtenRun s .pkt 0 s.pktLen))) := by
  have hlen := encOut_length_le s.cfg.encTrunc (s.outCap - 3) (writtenRun s .pkt 0 s.pktLen)
  have hfits : (frameOut s (writtenRun s .pkt 0 s.pktLen)).length ≤ s.cfg.outSize := by rw [frameOut_length]; omega
  rw [execEncodePacket_ends hs.packet hout hroom h, frameBody, encFit_eq_encOut, ← frameOut, ← frameOut_length,
    regSet_putBytes_eq_wroteOut hs.cfg hfits]

/-- Settles O25: too small a capacity writes nothing, any other gives `execEncodePacket_eq_wroteOut`. -/
theorem encodePacketResult : Obligations.EncodePacketResult := by
  unfold Obligations.EncodePacketResult
  refine ⟨by decide, fun s hs hout => ⟨fun hshort => ?_, fun hroom y f hy hend hf => ?_⟩⟩
  · have hzero : toCount s.cfg 0 = 0 := Nat.zero_mod _
    show execEncodePacket s = _
    rw [execEncodePacket_short hout hshort, regSet_result, hzero]
  · subst hy hf
    exact execEncodePacket_eq_wroteOut hs hout hroom hend

/-- Settles O26: the capacity is checked first, and then only an unwritten byte met before the output fills is
refused. -/
theorem encodePacketRefusals : Obligations.EncodePacketRefusals := by
  unfold Obligations.EncodePacketRefusals
  exact fun s => ⟨execEncodePacket_outputOverrun, fun hs hout hroom hlen hfull =>
    execEncodePacket_unwritten hs.packet hout hroom (not_or.2 ⟨hlen.ne, Nat.not_le.2 hfull⟩)⟩

/-- Where the whole encoding fits, what is written is the packet's frame. -/
theorem frameOut_of_fits {s : State} {y : List Byte} (h : (escAll y).length ≤ s.outCap - 3) :
    frameOut s y = frame s.pktCmd s.pktPort y := by
  rw [frameOut, encOut_of_fits _ h]
  rfl

/-- Settles O27: an expansion is at most twice as long as the payload, so the whole frame fits. -/
theorem sizedFrameIsExact : Obligations.SizedFrameIsExact := by
  unfold Obligations.SizedFrameIsExact
  intro s x hs hout hroom hx hlen
  have hfit := escAll_length_le x
  subst hx
  refine ⟨_, execEncodePacket_eq_wroteOut hs hout (by omega) (.inl hlen), ?_, ?_⟩
  · show (frameOut s _).length = _
    rw [frameOut_of_fits (by omega), frame_length, Nat.add_comm]
  · rw [writtenRun_wroteOut, frameOut_of_fits (by omega)]

end Sys2Proof.Machine
end

section
/-! PROOF. What RESULT, PKT_COMPLETE and PKT_LEN tell after an operation: which bytes it has not written (20_memory.md R55,
R57), and whether its output is all there (60_exceptions.md R226). -/

namespace Sys2Proof.Machine

/-! ### Bytes beyond the count -/

/-- An operation that fills OUT_MEM and ends has put some bytes there and counted them in RESULT. -/
theorem exec_eq_wroteOut {i : Instr} {s t : State} (hs : StateInv s)
    (hi : i = .encodeData ∨ i = .decodeData ∨ i = .encodePacket) (h : exec i s = .next t) : ∃ T, t = wroteOut s T := by
  rcases hi with rfl | rfl | rfl
  · obtain ⟨T, rfl, hT, -, hout⟩ := execEncodeData_next h
    exact ⟨T, regSet_putBytes_eq_wroteOut hs.cfg (hT.trans hout)⟩
  · obtain ⟨T, rfl, hT, -, hout⟩ := execDecodeData_next h
    exact ⟨T, regSet_putBytes_eq_wroteOut hs.cfg (hT.trans hout)⟩
  · obtain ⟨T, rfl, hT, hout, -⟩ := execEncodePacket_next h
    exact ⟨T, regSet_putBytes_eq_wroteOut hs.cfg (hT.trans hout)⟩

theorem byteAt_wroteOut (s : State) (T : List Byte) (sp : Space) (a : Nat) :
    byteAt (wroteOut s T) sp a = byteAt (putBytes s .out 0 T) sp a := by
  cases sp <;> rfl

theorem byteAt_foundState (s : State) (y : List Byte) (c e : Nat) (sp : Space) (a : Nat) :
    byteAt (foundState s y c e) sp a = byteAt (putBytes s .pkt 0 (framePayload s y c e)) sp a := by
  cases sp <;> rfl

theorem byteAt_missedState (s : State) (y : List Byte) (c : Option Nat) (sp : Space) (a : Nat) :
    byteAt (missedState s y c) sp a = byteAt s sp a := by
  cases c <;> cases sp <;> rfl

/-- A byte that is not among those put from offset 0 on is unchanged. -/
theorem byteAt_putBytes_beyond (s : State) {sp sp' : Space} {a : Nat} {vs : List Byte}
    (h : sp' = sp → vs.length ≤ a) : byteAt (putBytes s sp 0 vs) sp' a = byteAt s sp' a := by
  refine byteAt_putBytes_other s vs ?_
  by_cases hsp : sp' = sp
  · exact .inr (.inr (by rw [Nat.zero_add]; exact h hsp))
  · exact .inl hsp

/-- Settles O41: each operation puts bytes from offset 0 on and counts them, in RESULT or, for a frame found, in
PKT_LEN. -/
theorem bytesBeyondTheCountAreUnchanged : Obligations.BytesBeyondTheCountAreUnchanged := by
  unfold Obligations.BytesBeyondTheCountAreUnchanged
  refine fun s t hs => ⟨fun i hi h sp a ha => ?_, fun h sp a ha => ?_⟩
  · obtain ⟨T, rfl⟩ := exec_eq_wroteOut hs hi h
    rw [byteAt_wroteOut, byteAt_putBytes_beyond s ha]
  · rcases execDecodePacket_next hs h with ⟨-, -, rfl⟩ | ⟨c, e, -, -, -, rfl⟩
    · exact byteAt_missedState ..
    · rw [byteAt_foundState, byteAt_putBytes_beyond s fun hsp => ha hsp rfl]

/-! ### Truncation -/

/-- The beginning of a sequence is shorter exactly when it is not all of it. -/
theorem length_lt_iff_ne_of_prefix {x y : List Byte} (h : x <+: y) : x.length < y.length ↔ x ≠ y :=
  ⟨fun hlt heq => Nat.lt_irrefl _ (heq ▸ hlt), fun hne =>
    Nat.lt_of_le_of_ne h.length_le fun heq => hne (h.eq_of_length heq)⟩

theorem encodeData_shows_truncation {s t : State} (hs : StateInv s) (h : execEncodeData s = .next t)
    (hlen : (writtenRun s .inp 0 s.inLen).length = s.inLen) :
    t.result < (escAll (writtenRun s .inp 0 s.inLen)).length ↔
      writtenRun t .out 0 t.result ≠ escAll (writtenRun s .inp 0 s.inLen) := by
  obtain ⟨-, -, -, hin, hout⟩ := execEncodeData_next h
  rw [execEncodeData_eq_wroteOut hs.cfg hin hout (.inl hlen)] at h
  cases h
  rw [writtenRun_wroteOut]
  exact length_lt_iff_ne_of_prefix (encOut_prefix ..)

theorem decodeData_whole {s t : State} (hs : StateInv s) (h : execDecodeData s = .next t) (hroom : t.result < s.outCap) :
    writtenRun t .out 0 t.result = dec (writtenRun s .inp 0 s.inLen) := by
  obtain ⟨-, -, -, hin, hout⟩ := execDecodeData_next h
  by_cases hend : (writtenRun s .inp 0 s.inLen).length = s.inLen ∨
      s.outCap ≤ (dec (writtenRun s .inp 0 s.inLen)).length
  · rw [execDecodeData_eq_wroteOut hs.cfg hin hout hend] at h
    cases h
    rw [writtenRun_wroteOut, List.take_of_length_le]
    have hcount : ((dec (writtenRun s .inp 0 s.inLen)).take s.outCap).length < s.outCap := hroom
    rw [List.length_take] at hcount
    omega
  · rw [execDecodeData_unwritten hin hout hend] at h
    cases h

/-- RESULT is 0 exactly when OUT_CAP is too small for the framing, and then OUT_MEM is as it was. -/
theorem encodePacket_result_eq_zero {s t : State} (hs : StateInv s) (h : execEncodePacket s = .next t) :
    (t.result = 0 ↔ s.outCap < s.pktLen + 3) ∧ (t.result = 0 → t.outMem = s.outMem) := by
  obtain ⟨T, rfl, hT, hout, hnil⟩ := execEncodePacket_next h
  rw [regSet_putBytes_eq_wroteOut hs.cfg (hT.trans hout)]
  have hzero : (wroteOut s T).result = 0 ↔ T = [] := List.length_eq_zero_iff
  refine ⟨hzero.trans hnil, fun h0 => ?_⟩
  rw [hzero.1 h0]
  rfl

theorem encodePacket_shows_truncation {s t : State} (hs : StateInv s) (h : execEncodePacket s = .next t)
    (hlen : (writtenRun s .pkt 0 s.pktLen).length = s.pktLen) (hne : t.result ≠ 0) :
    t.result < (escAll (writtenRun s .pkt 0 s.pktLen)).length + 3 ↔
      writtenRun t .out 0 t.result ≠ frame s.pktCmd s.pktPort (writtenRun s .pkt 0 s.pktLen) := by
  obtain ⟨-, -, -, hout, -⟩ := execEncodePacket_next h
  have hroom := Nat.le_of_not_lt fun hshort => hne ((encodePacket_result_eq_zero hs h).1.2 hshort)
  rw [execEncodePacket_eq_wroteOut hs hout hroom (.inl hlen)] at h
  cases h
  have hres : (wroteOut s (frameOut s (writtenRun s .pkt 0 s.pktLen))).result = _ := frameOut_length s _
  have hframe : frameOut s (writtenRun s .pkt 0 s.pktLen) = frame s.pktCmd s.pktPort (writtenRun s .pkt 0 s.pktLen) ↔
      encOut s.cfg.encTrunc (s.outCap - 3) (writtenRun s .pkt 0 s.pktLen) = escAll (writtenRun s .pkt 0 s.pktLen) := by
    rw [frameOut, frame, List.append_left_inj]
    exact List.append_right_inj _
  rw [writtenRun_wroteOut, hres, Nat.add_lt_add_iff_right, ne_eq, hframe]
  exact length_lt_iff_ne_of_prefix (encOut_prefix ..)

theorem decodePacket_shows_frame {s t : State} (hs : StateInv s) (h : execDecodePacket s = .next t)
    (hcomplete : t.pktComplete = true) :
    ∃ c e, commandAt s.cfg.seekMode (writtenRun s .inp 0 s.inLen) = some c ∧
      closeAt s.cfg.seekMode (writtenRun s .inp 0 s.inLen) = some e ∧
      writtenRun t .pkt 0 t.pktLen = (dec (slice (writtenRun s .inp 0 s.inLen) (c + 1) e)).take s.pktCap ∧
      (t.pktLen < t.pktCap →
        writtenRun t .pkt 0 t.pktLen = dec (slice (writtenRun s .inp 0 s.inLen) (c + 1) e)) := by
  have hpos := Nat.pos_of_ne_zero ((execDecodePacket_result_ne_zero hs h).2 hcomplete)
  obtain ⟨c, e, hc, he, -, rfl⟩ := execDecodePacket_found_of_result hs h hpos
  have hcap : (foundState s (writtenRun s .inp 0 s.inLen) c e).pktCap = s.pktCap :=
    regRead_putBytes s .pkt 0 (framePayload s _ c e) .pktCap
  refine ⟨c, e, hc, he, writtenRun_foundState .., fun hlt => ?_⟩
  have hcount : (framePayload s (writtenRun s .inp 0 s.inLen) c e).length < s.pktCap := hcap ▸ hlt
  rw [framePayload, List.length_take] at hcount
  rw [writtenRun_foundState, framePayload, List.take_of_length_le (by omega)]

/-- Settles O45: each encoder's output is the beginning of the whole, so RESULT tells whether it is all of it; a count below
the capacity tells that nothing was cut. -/
theorem resultsShowTruncation : Obligations.ResultsShowTruncation := by
  unfold Obligations.ResultsShowTruncation
  refine fun s t hs => ⟨encodeData_shows_truncation hs, decodeData_whole hs, fun h => ?_, fun h => ⟨?_, ?_⟩⟩
  · obtain ⟨hzero, hmem⟩ := encodePacket_result_eq_zero hs h
    refine ⟨hzero, hmem, fun x hx hlen => ?_⟩
    subst hx
    exact encodePacket_shows_truncation hs h hlen
  · rw [← Bool.not_eq_true, ← execDecodePacket_result_ne_zero hs h, not_not]
  · intro y hy
    subst hy
    exact decodePacket_shows_frame hs h

end Sys2Proof.Machine
end

section
/-! PROOF. The frame of every operation (30_encoding.md R82, the column "writes"), and who changes PKT_CAP and
PKT_COMPLETE (44_packet_control.md R200; 10_state.md R32). -/

namespace Sys2Proof.Machine

/-- What of `s` an operation leaves as it was: every register but those in `regs`, every memory but `sp`, the parameters
and the model's own fields. -/
structure FrameOf (regs : List Reg) (sp : Option Space) (s t : State) : Prop where
  reg : ∀ r, r ∉ regs → regRead t r = regRead s r
  mem : ∀ sp', sp ≠ some sp' → memOf t sp' = memOf s sp'
  cfg : t.cfg = s.cfg
  pending : t.pending = s.pending
  readData : t.readData = s.readData
  powerOn : t.powerOn = s.powerOn

theorem FrameOf.trans {regs : List Reg} {sp : Option Space} {s t u : State} (h : FrameOf regs sp s t)
    (h' : FrameOf regs sp t u) : FrameOf regs sp s u where
  reg r hr := (h'.reg r hr).trans (h.reg r hr)
  mem sp' hsp := (h'.mem sp' hsp).trans (h.mem sp' hsp)
  cfg := h'.cfg.trans h.cfg
  pending := h'.pending.trans h.pending
  readData := h'.readData.trans h.readData
  powerOn := h'.powerOn.trans h.powerOn

theorem frameOf_regSet (sp : Option Space) (s : State) {r : Reg} {regs : List Reg} (hr : r ∈ regs) (v : Nat) :
    FrameOf regs sp s (regSet s r v) where
  reg _ hr' := regRead_regSet_other s v fun h => hr' (h ▸ hr)
  mem sp' _ := regSet_keeps_memOf s v r sp'
  cfg := regSet_keeps_cfg s v r
  pending := regSet_keeps_pending s v r
  readData := regSet_keeps_readData s v r
  powerOn := regSet_keeps_powerOn s v r

theorem frameOf_putBytes_out (regs : List Reg) (s : State) (a : Nat) (vs : List Byte) :
    FrameOf regs (some .out) s (putBytes s .out a vs) where
  reg r _ := regRead_putBytes s .out a vs r
  mem sp' hsp := by
    rw [putBytes_out]
    cases sp' with
    | out => exact absurd rfl hsp
    | _ => rfl
  cfg := putBytes_keeps_cfg s .out a vs
  pending := by rw [putBytes_out]
  readData := by rw [putBytes_out]
  powerOn := by rw [putBytes_out]

/-- PKT_RESET's effects write four packet registers. -/
theorem frameOf_packetReset (s : State) : FrameOf (writesOf .pktReset) none s (packetReset s) :=
  (((frameOf_regSet none s (r := .pktLen) (by decide) 0).trans
    (frameOf_regSet none _ (r := .pktCmd) (by decide) 0)).trans
    (frameOf_regSet none _ (r := .pktPort) (by decide) 0)).trans
    (frameOf_regSet none _ (r := .pktComplete) (by decide) 0)

theorem FrameOf.mono {regs regs' : List Reg} {sp : Option Space} {s t : State} (h : FrameOf regs sp s t)
    (hregs : regs ⊆ regs') : FrameOf regs' sp s t :=
  { h with reg := fun r hr => h.reg r fun hr' => hr (hregs hr') }

theorem ScanFrame.frameOf {s t : State} (h : ScanFrame s t) :
    FrameOf (writesOf .decodePacket) (some .pkt) s t := by
  rw [h.regs]
  refine ⟨fun r hr => ?_, fun sp' hsp => ?_, rfl, rfl, rfl, rfl⟩
  · cases r with
    | pktCmd | pktPort | pktLen | pktComplete | result => exact absurd (by decide) hr
    | _ => rfl
  · cases sp' with
    | pkt => exact absurd rfl hsp
    | _ => rfl

/-- Every operation writes only what the column "writes" names. -/
theorem exec_frameOf {i : Instr} {s t : State} (h : exec i s = .next t) : FrameOf (writesOf i) (writesSpace i) s t := by
  cases i with
  | encodeData =>
    obtain ⟨T, rfl, -⟩ := execEncodeData_next h
    exact (frameOf_putBytes_out _ s 0 T).trans (frameOf_regSet _ _ (by decide) _)
  | decodeData =>
    obtain ⟨T, rfl, -⟩ := execDecodeData_next h
    exact (frameOf_putBytes_out _ s 0 T).trans (frameOf_regSet _ _ (by decide) _)
  | pack =>
    cases h
    exact frameOf_regSet _ s (by decide) _
  | unpack =>
    cases h
    exact (frameOf_regSet _ s (by decide) _).trans (frameOf_regSet _ _ (by decide) _)
  | encodePacket =>
    obtain ⟨T, rfl, -⟩ := execEncodePacket_next h
    exact (frameOf_putBytes_out _ s 0 T).trans (frameOf_regSet _ _ (by decide) _)
  | decodePacket => exact (execDecodePacket_frame h).frameOf
  | pktInit =>
    obtain ⟨-, rfl⟩ := execPktInit_eq_next.1 h
    exact (frameOf_regSet _ s (by decide) _).trans ((frameOf_packetReset _).mono (by decide))
  | pktReset =>
    cases h
    exact frameOf_packetReset s

/-- Settles O40: `exec_frameOf`. -/
theorem operationsWriteOnlyWhatTheyName : Obligations.OperationsWriteOnlyWhatTheyName := by
  unfold Obligations.OperationsWriteOnlyWhatTheyName
  intro i s t h
  have hframe := exec_frameOf h
  exact ⟨hframe.reg, fun sp a hsp => congrArg (Memory.read · a) (hframe.mem sp hsp), hframe.cfg, hframe.pending,
    hframe.readData, hframe.powerOn⟩

/-! ### Steps -/

/-- The queue of host actions is in no register. -/
@[simp] theorem regRead_with_pending (s : State) (rest : List HostAction) (r : Reg) :
    regRead { s with pending := rest } r = regRead s r := by
  cases r <;> rfl

/-- What the host's last read returned is in no register. -/
@[simp] theorem regRead_with_readData (s : State) (v : Nat) (r : Reg) :
    regRead { s with readData := v } r = regRead s r := by
  cases r <;> rfl

/-- Everything a host action that ends can do to the parameters and to the registers the host may only read: nothing,
but by the operation that an OPSEL write runs. -/
theorem hostAct_readOnly {s t : State} {act : HostAction} (h : hostAct s act = .next t) :
    (t.cfg = s.cfg ∧ ∀ r, regReadOnly r = true → regRead t r = regRead s r) ∨
      ∃ v i, act = .writeReg 0 v ∧ decode (BitVec.ofNat 8 v) = .ok i ∧ exec i (regSet s .opsel v) = .next t := by
  cases act with
  | writeReg idx v =>
    rcases hostWriteReg_next h with ⟨rfl, hop⟩ | ⟨r, -, hro, -, -, rfl⟩
    · obtain ⟨i, hi, hexec⟩ := startOperation_eq_next.1 hop
      exact .inr ⟨v, i, rfl, hi, hexec⟩
    · refine .inl ⟨regSet_keeps_cfg .., fun r' hr' => regRead_regSet_other s v fun hrr => ?_⟩
      rw [hrr, hro] at hr'
      cases hr'
  | readReg idx =>
    obtain ⟨r, -, rfl⟩ := hostReadReg_next h
    exact .inl ⟨rfl, fun r _ => regRead_with_readData s _ r⟩
  | writeMem sp off bytes =>
    obtain ⟨-, rfl⟩ := hostWriteBytes_eq_next.1 h
    exact .inl ⟨putBytes_keeps_cfg .., fun r _ => regRead_putBytes ..⟩
  | readMem sp off =>
    obtain ⟨-, rfl⟩ := hostReadMem_next h
    exact .inl ⟨rfl, fun r _ => regRead_with_readData s _ r⟩
  | shift k =>
    obtain ⟨-, m, rfl⟩ := hostShift_next h
    refine .inl ⟨rfl, fun r hr => ?_⟩
    cases r with
    | inLen => cases hr
    | _ => rfl
  | append bytes =>
    rw [hostAppend_next h]
    refine .inl ⟨by rw [regSet_keeps_cfg, putBytes_keeps_cfg], fun r hr => ?_⟩
    have hne : r ≠ .inLen := by
      rintro rfl
      cases hr
    rw [regRead_regSet_other _ _ hne, regRead_putBytes]

/-- A step that changes a register the host may only read runs an operation that writes it. -/
theorem step_readOnly {s t : State} (h : step s = .next t) :
    t.cfg = s.cfg ∧ ∀ r, regReadOnly r = true → regRead t r ≠ regRead s r →
      ∃ v rest i, s.pending = .writeReg 0 v :: rest ∧ decode (BitVec.ofNat 8 v) = .ok i ∧ r ∈ writesOf i ∧
        exec i (regSet { s with pending := rest } .opsel v) = .next t := by
  rcases step_next h with ⟨-, rfl⟩ | ⟨act, rest, hp, hact⟩
  · exact ⟨rfl, fun r _ hne => absurd rfl hne⟩
  rcases hostAct_readOnly hact with ⟨hcfg, hkeep⟩ | ⟨v, i, rfl, hi, hexec⟩
  · exact ⟨hcfg, fun r hr hne => absurd ((hkeep r hr).trans (regRead_with_pending s rest r)) hne⟩
  · have hframe := exec_frameOf hexec
    refine ⟨hframe.cfg, fun r hr hne => ⟨v, rest, i, hp, hi, ?_, hexec⟩⟩
    have hopsel : r ≠ .opsel := by
      rintro rfl
      cases hr
    by_contra hnot
    exact hne (((hframe.reg r hnot).trans (regRead_regSet_other _ v hopsel)).trans (regRead_with_pending s rest r))

/-- Settles O57: PKT_CAP is read-only to the host, and PKT_INIT alone names it in the column "writes". -/
theorem onlyPktInitChangesTheCapacity : Obligations.OnlyPktInitChangesTheCapacity := by
  unfold Obligations.OnlyPktInitChangesTheCapacity
  intro s t h
  obtain ⟨hcfg, hchange⟩ := step_readOnly h
  refine ⟨hcfg, fun hne => ?_⟩
  obtain ⟨v, rest, i, hp, hi, hwrites, -⟩ := hchange .pktCap rfl hne
  have hinit : i = .pktInit := by
    cases i with
    | pktInit => rfl
    | _ => exact absurd hwrites (by decide)
  exact ⟨v, rest, hp, hinit ▸ hi⟩

/-- The three operations that name PKT_COMPLETE in the column "writes". -/
theorem pktComplete_mem_writesOf {i : Instr} (h : Reg.pktComplete ∈ writesOf i) :
    i = .decodePacket ∨ i = .pktInit ∨ i = .pktReset := by
  cases i with
  | decodePacket => exact .inl rfl
  | pktInit => exact .inr (.inl rfl)
  | pktReset => exact .inr (.inr rfl)
  | _ => exact absurd h (by decide)

theorem packetReset_pktComplete (s : State) : (packetReset s).pktComplete = false := by rw [packetReset_eq]

/-- Settles O58: PKT_COMPLETE is read-only to the host; of the three operations that name it PKT_INIT and PKT_RESET only
clear it. -/
theorem onlyPacketOperationsChangeComplete : Obligations.OnlyPacketOperationsChangeComplete := by
  unfold Obligations.OnlyPacketOperationsChangeComplete
  intro s t h hne
  have hread : regRead t .pktComplete ≠ regRead s .pktComplete := fun heq => hne (Function.LeftInverse.injective Bool.ofNat_toNat heq)
  obtain ⟨v, rest, i, hp, hi, hwrites, hexec⟩ := (step_readOnly h).2 .pktComplete rfl hread
  refine ⟨v, rest, i, hp, hi, ?_⟩
  rcases pktComplete_mem_writesOf hwrites with rfl | rfl | rfl
  · exact .inl rfl
  · obtain ⟨-, rfl⟩ := execPktInit_eq_next.1 hexec
    exact .inr ⟨packetReset_pktComplete _, .inl rfl⟩
  · cases hexec
    exact .inr ⟨packetReset_pktComplete _, .inr rfl⟩

end Sys2Proof.Machine
end

section
/-! PROOF. Setting a register that an operation names in neither column of 30_encoding.md R82 commutes with its run: the
decoder's loop, the scan, then every operation. -/

namespace Sys2Proof.Machine

section
variable (s : State) (r : Reg) (v : Nat)

theorem emit_regSet (dst : Space) (a : Nat) (b : Option Byte) :
    emit (regSet s r v) dst a b = andThen (emit s dst a b) fun t => .next (regSet t r v) := by
  cases b with
  | none => rfl
  | some b => exact memWrite_regSet s r v dst a b

/-- The decoder's loop passes every register through. -/
theorem decodeLoop_regSet (src dst : Space) (a o cap k : Nat) (u : Decoder) :
    decodeLoop src dst a o cap k u (regSet s r v) =
      andThen (decodeLoop src dst a o cap k u s) fun p => .next (regSet p.1 r v, p.2) := by
  induction k generalizing u s with
  | zero => rfl
  | succ k ih =>
    simp only [decodeLoop, memRead_regSet, emit_regSet]
    split
    · rfl
    simp only [andThen_assoc, andThen_next, ih]

end

/-! ### The scan -/

theorem takeCommand_regSet {r : Reg} (hw : r ∉ writesOf .decodePacket) (s : State) (v : Nat) (b : Byte) :
    takeCommand (regSet s r v) b = regSet (takeCommand s b) r v := by
  have hcmd : r ≠ .pktCmd := fun h => hw (h ▸ by decide)
  have hport : r ≠ .pktPort := fun h => hw (h ▸ by decide)
  rw [takeCommand, takeCommand, regSet_comm s hcmd, regSet_comm _ hport]

section
variable {r : Reg} (hr : r ∉ readsOf .decodePacket) (hw : r ∉ writesOf .decodePacket)
include hr hw

theorem completeFrame_regSet (s : State) (v start plen : Nat) :
    completeFrame (regSet s r v) start plen =
      andThen (completeFrame s start plen) fun p => .next (regSet p.1 r v, p.2) := by
  have hcap : (regSet s r v).pktCap = s.pktCap :=
    regRead_regSet_other s v (r' := .pktCap) fun h => hr (h ▸ by decide)
  have hlen : r ≠ .pktLen := fun h => hw (h ▸ by decide)
  have hcomplete : r ≠ .pktComplete := fun h => hw (h ▸ by decide)
  simp only [completeFrame, decodeInto, hcap, decodeLoop_regSet, andThen_assoc, andThen_next, setComplete,
    regSet_comm _ hlen, regSet_comm _ hcomplete]

theorem scanEnd_regSet (st : ScanSt) (s : State) (v : Nat) :
    scanEnd st (regSet s r v) = regSet (scanEnd st s) r v := by
  have hres : r ≠ .result := fun h => hw (h ▸ by decide)
  have hlen : (regSet s r v).inLen = s.inLen :=
    regRead_regSet_other s v (r' := .inLen) fun h => hr (h ▸ by decide)
  cases st <;> simp only [scanEnd, hlen, regSet_comm s hres]

theorem scanLoop_regSet (k : Nat) (u : Scanner) (s : State) (v : Nat) :
    scanLoop k u (regSet s r v) = andThen (scanLoop k u s) fun p => .next (regSet p.1 r v, p.2) := by
  have hres : r ≠ .result := fun h => hw (h ▸ by decide)
  induction k generalizing u s with
  | zero => rw [scanLoop, scanLoop, scanEnd_regSet hr hw, andThen_next]
  | succ k ih =>
    simp only [scanLoop, memRead_regSet, andThen_assoc]
    congr 1
    funext b
    obtain ⟨act, st⟩ := scanStep u.st b
    cases act with
    | skip => exact ih _ _
    | command =>
      dsimp only
      rw [takeCommand_regSet hw]
      exact ih _ _
    | count => exact ih _ _
    | complete => simp only [completeFrame_regSet hr hw, andThen_assoc, andThen_next, ih]
    | stop =>
      dsimp only
      rw [regSet_comm s hres, andThen_next]

end

/-! ### Every operation -/

section
variable {r : Reg} (s : State) (v : Nat)

theorem execEncodeData_regSet (hr : r ∉ readsOf .encodeData) (hw : r ∉ writesOf .encodeData) :
    execEncodeData (regSet s r v) = andThen (execEncodeData s) fun t => .next (regSet t r v) := by
  have hlen : (regSet s r v).inLen = s.inLen := regRead_regSet_other s v (r' := .inLen) fun h => hr (h ▸ by decide)
  have hcap : (regSet s r v).outCap = s.outCap := regRead_regSet_other s v (r' := .outCap) fun h => hr (h ▸ by decide)
  have hres : r ≠ .result := fun h => hw (h ▸ by decide)
  simp only [execEncodeData, runEncodeData, regSet_keeps_cfg, hlen, hcap]
  split
  · rfl
  split
  · rfl
  simp only [encodeInto, encodeLoop_regSet, andThen_assoc, andThen_next, regSet_comm _ hres]

theorem execDecodeData_regSet (hr : r ∉ readsOf .decodeData) (hw : r ∉ writesOf .decodeData) :
    execDecodeData (regSet s r v) = andThen (execDecodeData s) fun t => .next (regSet t r v) := by
  have hlen : (regSet s r v).inLen = s.inLen := regRead_regSet_other s v (r' := .inLen) fun h => hr (h ▸ by decide)
  have hcap : (regSet s r v).outCap = s.outCap := regRead_regSet_other s v (r' := .outCap) fun h => hr (h ▸ by decide)
  have hres : r ≠ .result := fun h => hw (h ▸ by decide)
  simp only [execDecodeData, runDecodeData, regSet_keeps_cfg, hlen, hcap]
  split
  · rfl
  split
  · rfl
  simp only [decodeInto, decodeLoop_regSet, andThen_assoc, andThen_next, regSet_comm _ hres]

theorem execPack_regSet (hr : r ∉ readsOf .pack) (hw : r ∉ writesOf .pack) :
    execPack (regSet s r v) = andThen (execPack s) fun t => .next (regSet t r v) := by
  have hcmd : (regSet s r v).argCmd = s.argCmd :=
    BitVec.eq_of_toNat_eq (regRead_regSet_other s v (r' := .argCmd) fun h => hr (h ▸ by decide))
  have hport : (regSet s r v).argPort = s.argPort :=
    BitVec.eq_of_toNat_eq (regRead_regSet_other s v (r' := .argPort) fun h => hr (h ▸ by decide))
  have hbyte : r ≠ .resByte := fun h => hw (h ▸ by decide)
  rw [execPack, execPack, hcmd, hport, andThen_next, regSet_comm s hbyte]

theorem execUnpack_regSet (hr : r ∉ readsOf .unpack) (hw : r ∉ writesOf .unpack) :
    execUnpack (regSet s r v) = andThen (execUnpack s) fun t => .next (regSet t r v) := by
  have hbyte : (regSet s r v).argByte = s.argByte :=
    BitVec.eq_of_toNat_eq (regRead_regSet_other s v (r' := .argByte) fun h => hr (h ▸ by decide))
  have hcmd : r ≠ .resCmd := fun h => hw (h ▸ by decide)
  have hport : r ≠ .resPort := fun h => hw (h ▸ by decide)
  rw [execUnpack, execUnpack, hbyte, andThen_next, regSet_comm s hcmd, regSet_comm _ hport]

theorem execDecodePacket_regSet (hr : r ∉ readsOf .decodePacket) (hw : r ∉ writesOf .decodePacket) :
    execDecodePacket (regSet s r v) = andThen (execDecodePacket s) fun t => .next (regSet t r v) := by
  have hlen : (regSet s r v).inLen = s.inLen := regRead_regSet_other s v (r' := .inLen) fun h => hr (h ▸ by decide)
  have hcomplete : r ≠ .pktComplete := fun h => hw (h ▸ by decide)
  simp only [execDecodePacket, runDecodePacket, regSet_keeps_cfg, hlen]
  split
  · rfl
  simp only [clearComplete, regSet_comm s hcomplete, scanLoop_regSet hr hw, andThen_assoc, andThen_next]

theorem packetReset_regSet (hw : r ∉ writesOf .pktReset) :
    packetReset (regSet s r v) = regSet (packetReset s) r v := by
  have hlen : r ≠ .pktLen := fun h => hw (h ▸ by decide)
  have hcmd : r ≠ .pktCmd := fun h => hw (h ▸ by decide)
  have hport : r ≠ .pktPort := fun h => hw (h ▸ by decide)
  have hcomplete : r ≠ .pktComplete := fun h => hw (h ▸ by decide)
  rw [packetReset, packetReset, clearComplete, clearComplete, regSet_comm s hlen, regSet_comm _ hcmd,
    regSet_comm _ hport, regSet_comm _ hcomplete]

theorem execPktInit_regSet (hr : r ∉ readsOf .pktInit) (hw : r ∉ writesOf .pktInit) :
    execPktInit (regSet s r v) = andThen (execPktInit s) fun t => .next (regSet t r v) := by
  have harg : (regSet s r v).argCap = s.argCap := regRead_regSet_other s v (r' := .argCap) fun h => hr (h ▸ by decide)
  have hcap : r ≠ .pktCap := fun h => hw (h ▸ by decide)
  have hreset : r ∉ writesOf .pktReset := fun h => hw (List.mem_cons_of_mem Reg.pktCap h)
  rw [execPktInit, execPktInit, regSet_keeps_cfg, harg]
  split
  · rfl
  · rw [regSet_comm s hcap, packetReset_regSet _ v hreset, andThen_next]

/-- Every operation passes through every register it names in neither column of R82. -/
theorem exec_regSet {i : Instr} (hr : r ∉ readsOf i) (hw : r ∉ writesOf i) :
    exec i (regSet s r v) = andThen (exec i s) fun t => .next (regSet t r v) := by
  cases i with
  | encodeData => exact execEncodeData_regSet s v hr hw
  | decodeData => exact execDecodeData_regSet s v hr hw
  | pack => exact execPack_regSet s v hr hw
  | unpack => exact execUnpack_regSet s v hr hw
  | encodePacket => exact execEncodePacket_regSet s v hr hw
  | decodePacket => exact execDecodePacket_regSet s v hr hw
  | pktInit => exact execPktInit_regSet s v hr hw
  | pktReset => exact congrArg Host.Outcome.next (packetReset_regSet s v hw)

end

/-- Settles O43: `exec_regSet`, read off for a next state and for a refusal. -/
theorem operationsIgnoreOtherRegisters : Obligations.OperationsIgnoreOtherRegisters := by
  unfold Obligations.OperationsIgnoreOtherRegisters
  intro i s r v hr hw
  have hrun := exec_regSet s v hr hw
  exact ⟨fun t h => by rwa [h] at hrun, fun e h => by rwa [h] at hrun⟩

end Sys2Proof.Machine
end

section
/-! PROOF. The byte steps an operation takes (70_reset_and_hazards.md R262). -/

namespace Sys2Proof.Machine

theorem stepsOf_eq_some {q : Res (State × Steps)} {k : Steps} : stepsOf q = some k ↔ ∃ t, q = .next (t, k) := by
  cases q with
  | next p =>
    obtain ⟨t, k'⟩ := p
    simp [stepsOf]
  | fault e => simp [stepsOf]
  | refused e => simp [stepsOf]

/-! ### The two data operations and the framer -/

theorem runEncodeData_steps {s t : State} {k : Steps} (h : runEncodeData s = .next (t, k)) :
    k.reads ≤ s.inLen ∧ k.writes ≤ min s.outCap (2 * s.inLen) := by
  unfold runEncodeData at h
  split at h
  · cases h
  split at h
  · cases h
  obtain ⟨⟨t', u⟩, hloop, ht⟩ := andThen_eq_next.1 h
  obtain ⟨T, -, hj, hcap, hwrites, hT, hreads⟩ := encodeLoop_puts _ _ _ (Nat.zero_le _) hloop
  cases ht
  dsimp only at *
  omega

theorem runDecodeData_steps {s t : State} {k : Steps} (h : runDecodeData s = .next (t, k)) :
    k.reads ≤ s.inLen ∧ k.writes ≤ min s.outCap s.inLen := by
  unfold runDecodeData at h
  split at h
  · cases h
  split at h
  · cases h
  obtain ⟨⟨t', u⟩, hloop, ht⟩ := andThen_eq_next.1 h
  obtain ⟨T, -, hj, hcap, hwrites, hT, hreads⟩ := decodeLoop_puts _ _ _ (Nat.zero_le _) hloop
  cases ht
  dsimp only at *
  omega

theorem runEncodePacket_steps {s t : State} {k : Steps} (h : runEncodePacket s = .next (t, k)) :
    k.reads ≤ s.pktLen ∧ k.writes ≤ min s.outCap (2 * s.pktLen + 3) := by
  unfold runEncodePacket at h
  split at h
  · cases h
  split at h
  · cases h
    exact ⟨Nat.zero_le _, Nat.zero_le _⟩
  obtain ⟨s1, -, h⟩ := andThen_eq_next.1 h
  obtain ⟨s2, -, h⟩ := andThen_eq_next.1 h
  obtain ⟨⟨t', u⟩, hloop, h⟩ := andThen_eq_next.1 h
  obtain ⟨s3, -, ht⟩ := andThen_eq_next.1 h
  obtain ⟨T, -, hj, hcap, hwrites, hT, hreads⟩ := encodeLoop_puts _ _ _ (Nat.zero_le _) hloop
  cases ht
  dsimp only at *
  omega

/-! ### The scanner's transitions -/

/-- Settles O30: each line of the table is a branch of the byte step's definition. -/
theorem scannerByteStepTable : Obligations.ScannerByteStepTable := by
  unfold Obligations.ScannerByteStepTable
  exact ⟨rfl, rfl, rfl, rfl, fun b hb => ⟨if_neg hb, if_neg hb, if_neg hb, if_neg hb⟩⟩

/-- Every transition of the scanner: its action, the state before and the state after. -/
theorem scanStep_transition {st st' : ScanSt} {act : ScanAct} {b : Byte} (h : scanStep st b = (act, st')) :
    (act, st, st') ∈ [(ScanAct.skip, ScanSt.hunt, ScanSt.hunt), (.skip, .hunt, .seek), (.skip, .seek, .seek),
      (.command, .seek, .inframe), (.count, .inframe, .inframe), (.complete, .inframe, .trail),
      (.skip, .trail, .trail), (.stop, .trail, .done), (.stop, .done, .done)] := by
  cases st with
  | done =>
    cases h
    decide
  | _ =>
    simp only [scanStep] at h
    split at h <;> cases h <;> decide

/-! ### The scan -/

/-- How long the span of a frame can get that the scanner has not completed yet, with `k` bytes of the buffer still to
come: a command byte and a closing delimiter are no part of it, and after a frame there is no other. -/
def spanBound (st : ScanSt) (plen k : Nat) : Nat :=
  match st with
  | .hunt => k - 2
  | .seek => k - 2
  | .inframe => plen + k - 1
  | .trail => 0
  | .done => 0

theorem completeFrame_steps {s t : State} {start plen : Nat} {d : Decoder}
    (h : completeFrame s start plen = .next (t, d)) :
    d.reads ≤ plen ∧ d.writes ≤ min s.pktCap plen ∧ t.pktCap = s.pktCap := by
  have hkeep := (completeFrame_next h).2
  obtain ⟨⟨s', u⟩, hloop, ht⟩ := andThen_eq_next.1 h
  obtain ⟨T, -, hj, hcap, hwrites, hT, hreads⟩ := decodeLoop_puts _ _ _ (Nat.zero_le _) hloop
  cases ht
  dsimp only at *
  omega

/-- A scan reads each byte once, and the bytes of one span a second time. -/
theorem scanLoop_steps (k : Nat) (u : Scanner) (s : State) {t : State} {u' : Scanner}
    (h : scanLoop k u s = .next (t, u')) :
    u'.steps.reads ≤ u.steps.reads + k + spanBound u.st u.plen k ∧
      u'.steps.writes ≤ u.steps.writes + min s.pktCap (spanBound u.st u.plen k) := by
  induction k generalizing u s with
  | zero =>
    cases h
    exact ⟨Nat.le_add_right _ _, Nat.le_add_right _ _⟩
  | succ k ih =>
    obtain ⟨b, -, h⟩ := andThen_eq_next.1 h
    obtain ⟨st, i, start, plen, steps⟩ := u
    split at h
    case h_1 st' hstep =>
      have hrest := ih _ _ h
      have htrans : st = .hunt ∧ st' = .hunt ∨ st = .hunt ∧ st' = .seek ∨ st = .seek ∧ st' = .seek ∨
          st = .trail ∧ st' = .trail := by
        simpa using scanStep_transition hstep
      rcases htrans with ⟨rfl, rfl⟩ | ⟨rfl, rfl⟩ | ⟨rfl, rfl⟩ | ⟨rfl, rfl⟩ <;>
        simp only [spanBound] at hrest ⊢ <;> omega
    case h_2 st' hstep =>
      obtain ⟨rfl, rfl⟩ : st = .seek ∧ st' = .inframe := by simpa using scanStep_transition hstep
      have hrest := ih _ _ h
      rw [takeCommand_eq] at hrest
      simp only [spanBound] at hrest ⊢
      omega
    case h_3 st' hstep =>
      obtain ⟨rfl, rfl⟩ : st = .inframe ∧ st' = .inframe := by simpa using scanStep_transition hstep
      have hrest := ih _ _ h
      simp only [spanBound] at hrest ⊢
      omega
    case h_4 st' hstep =>
      obtain ⟨rfl, rfl⟩ : st = .inframe ∧ st' = .trail := by simpa using scanStep_transition hstep
      obtain ⟨⟨s', d⟩, hframe, h⟩ := andThen_eq_next.1 h
      obtain ⟨hreads, hwrites, hcap⟩ := completeFrame_steps hframe
      have hrest := ih _ _ h
      simp only [spanBound] at hrest hreads hwrites ⊢
      omega
    case h_5 st' hstep =>
      cases h
      simp only
      omega

theorem runDecodePacket_steps {s t : State} {k : Steps} (h : runDecodePacket s = .next (t, k)) :
    k.reads ≤ s.inLen + (s.inLen - 2) ∧ k.writes ≤ min s.pktCap (s.inLen - 2) := by
  unfold runDecodePacket at h
  split at h
  · cases h
  obtain ⟨⟨t', u⟩, hscan, ht⟩ := andThen_eq_next.1 h
  have hsteps := scanLoop_steps _ _ _ hscan
  cases ht
  have hspan : spanBound (scanStart s.cfg.seekMode).st (scanStart s.cfg.seekMode).plen s.inLen = s.inLen - 2 := by
    cases s.cfg.seekMode <;> rfl
  have hstart : (scanStart s.cfg.seekMode).steps = { reads := 0, writes := 0 } := rfl
  rw [hspan, hstart, clearComplete_eq] at hsteps
  simp only [Nat.zero_add] at hsteps
  exact hsteps

/-- Settles O44: the loops' counts, and for the scan `scanLoop_steps`, whose span leaves out two bytes of the buffer at
least. -/
theorem byteStepBounds : Obligations.ByteStepBounds := by
  unfold Obligations.ByteStepBounds
  refine fun s k => ⟨fun h => ?_, fun h => ?_, fun i hi => ?_, fun h => ?_, fun h => ?_⟩
  · obtain ⟨t, ht⟩ := stepsOf_eq_some.1 h
    exact runEncodeData_steps ht
  · obtain ⟨t, ht⟩ := stepsOf_eq_some.1 h
    exact runDecodeData_steps ht
  · rcases hi with rfl | rfl | rfl | rfl <;> rfl
  · obtain ⟨t, ht⟩ := stepsOf_eq_some.1 h
    exact runEncodePacket_steps ht
  · obtain ⟨t, ht⟩ := stepsOf_eq_some.1 h
    exact runDecodePacket_steps ht

end Sys2Proof.Machine
end

section
/-! PROOF. No step from a state that keeps the packet invariant ends in a fault (60_exceptions.md R220, R222). -/

namespace Sys2Proof.Machine

/-- It ends in a next state or in a refusal. -/
def NoFault {α : Type} (q : Res α) : Prop := ∀ e, q ≠ .fault e

theorem noFault_next {α : Type} (a : α) : NoFault (.next a : Res α) := nofun

theorem noFault_refused {α : Type} (e : Refusal) : NoFault (.refused e : Res α) := nofun

theorem NoFault.andThen {α β : Type} {q : Res α} {f : α → Res β} (hq : NoFault q) (hf : ∀ a, q = .next a → NoFault (f a)) :
    NoFault (andThen q f) := by
  cases q with
  | next a => exact hf a rfl
  | fault e => exact absurd rfl (hq e)
  | refused e => exact noFault_refused e

/-! ### The operations -/

theorem noFault_execEncodeData (s : State) : NoFault (execEncodeData s) := by
  rcases Nat.lt_or_ge s.cfg.inSize s.inLen with hin | hin
  · rw [execEncodeData_inputOverrun hin]
    exact noFault_refused _
  rcases Nat.lt_or_ge s.cfg.outSize s.outCap with hout | hout
  · rw [execEncodeData_outputOverrun hin hout]
    exact noFault_refused _
  by_cases hend : (writtenRun s .inp 0 s.inLen).length = s.inLen ∨
      s.outCap ≤ (escAll (writtenRun s .inp 0 s.inLen)).length
  · rw [execEncodeData_ends hin hout hend]
    exact noFault_next _
  · rw [execEncodeData_unwritten hin hout hend]
    exact noFault_refused _

theorem noFault_execDecodeData (s : State) : NoFault (execDecodeData s) := by
  rcases Nat.lt_or_ge s.cfg.inSize s.inLen with hin | hin
  · rw [execDecodeData_inputOverrun hin]
    exact noFault_refused _
  rcases Nat.lt_or_ge s.cfg.outSize s.outCap with hout | hout
  · rw [execDecodeData_outputOverrun hin hout]
    exact noFault_refused _
  by_cases hend : (writtenRun s .inp 0 s.inLen).length = s.inLen ∨
      s.outCap ≤ (dec (writtenRun s .inp 0 s.inLen)).length
  · rw [execDecodeData_ends hin hout hend]
    exact noFault_next _
  · rw [execDecodeData_unwritten hin hout hend]
    exact noFault_refused _

theorem noFault_execEncodePacket {s : State} (hs : PacketInv s) : NoFault (execEncodePacket s) := by
  rcases Nat.lt_or_ge s.cfg.outSize s.outCap with hout | hout
  · rw [execEncodePacket_outputOverrun hout]
    exact noFault_refused _
  rcases Nat.lt_or_ge s.outCap (s.pktLen + 3) with hshort | hroom
  · rw [execEncodePacket_short hout hshort]
    exact noFault_next _
  by_cases hend : (writtenRun s .pkt 0 s.pktLen).length = s.pktLen ∨
      s.outCap - 3 ≤ (escAll (writtenRun s .pkt 0 s.pktLen)).length
  · rw [execEncodePacket_ends hs hout hroom hend]
    exact noFault_next _
  · rw [execEncodePacket_unwritten hs hout hroom hend]
    exact noFault_refused _

theorem noFault_bufferEnd (s : State) (y : List Byte) (v : Nat) : NoFault (bufferEnd s y v) := by
  unfold bufferEnd
  split
  · exact noFault_next _
  · exact noFault_refused _

theorem noFault_elim {α β : Type} (o : Option α) {q : Res β} {f : α → Res β} (hq : NoFault q)
    (hf : ∀ a, NoFault (f a)) : NoFault (o.elim q f) := by
  cases o with
  | none => exact hq
  | some a => exact hf a

/-- Wherever the scan ends, it has met no byte outside IN_MEM. -/
theorem noFault_commandOutcome (s : State) (y : List Byte) (c : Option Nat) : NoFault (commandOutcome s y c) :=
  noFault_elim c (noFault_bufferEnd _ y 0) fun d =>
    noFault_elim (firstFrom (· == FEND) y (d + 1)) (noFault_bufferEnd _ y 0) fun e =>
      noFault_elim (firstFrom (· != FEND) y (e + 1)) (noFault_bufferEnd _ y _) fun _ => noFault_next _

theorem noFault_execDecodePacket {s : State} (hs : PacketInv s) : NoFault (execDecodePacket s) := by
  rcases Nat.lt_or_ge s.cfg.inSize s.inLen with hin | hin
  · rw [execDecodePacket, runDecodePacket, if_pos hin]
    exact noFault_refused _
  · rw [execDecodePacket_eq_commandOutcome hin hs.2 rfl]
    exact noFault_commandOutcome _ _ _

theorem noFault_exec (i : Instr) {s : State} (hs : PacketInv s) : NoFault (exec i s) := by
  cases i with
  | encodeData => exact noFault_execEncodeData s
  | decodeData => exact noFault_execDecodeData s
  | pack => exact noFault_next _
  | unpack => exact noFault_next _
  | encodePacket => exact noFault_execEncodePacket hs
  | decodePacket => exact noFault_execDecodePacket hs
  | pktInit =>
    simp only [exec, execPktInit]
    split
    · exact noFault_refused _
    · exact noFault_next _
  | pktReset => exact noFault_next _

/-! ### The host's actions -/

theorem noFault_startOperation {s : State} (hs : PacketInv s) (v : Nat) : NoFault (startOperation s v) := by
  unfold startOperation
  split
  · exact noFault_exec _ ((packetInv_regSet (by decide) (by decide)).2 hs)
  · exact noFault_refused _
  · exact noFault_refused _

theorem noFault_hostWriteReg {s : State} (hs : PacketInv s) (idx v : Nat) : NoFault (hostWriteReg s idx v) := by
  unfold hostWriteReg
  split
  · exact noFault_refused _
  split
  · exact noFault_refused _
  split
  · exact noFault_startOperation hs v
  split
  · exact noFault_refused _
  · exact noFault_next _

theorem noFault_hostReadReg (s : State) (idx : Nat) : NoFault (hostReadReg s idx) := by
  unfold hostReadReg
  split
  · exact noFault_refused _
  · exact noFault_next _

theorem noFault_hostReadByte (s : State) (sp : Space) (a : Nat) : NoFault (hostReadByte s sp a) := by
  unfold hostReadByte
  split
  · exact noFault_next _
  · exact noFault_refused _

theorem noFault_hostWriteBytes (s : State) (sp : Space) (a : Nat) (vs : List Byte) :
    NoFault (hostWriteBytes s sp a vs) := by
  unfold hostWriteBytes
  split
  · exact noFault_next _
  · exact noFault_refused _

theorem noFault_hostMoveDown (k c d : Nat) (s : State) : NoFault (hostMoveDown k c d s) := by
  induction c generalizing d s with
  | zero => exact noFault_next _
  | succ c ih => exact (noFault_hostReadByte _ _ _).andThen fun _ _ => ih _ _

theorem noFault_hostShift (s : State) (k : Nat) : NoFault (hostShift s k) := by
  unfold hostShift
  split
  · exact (noFault_hostMoveDown _ _ _ _).andThen fun _ _ => noFault_next _
  · exact noFault_refused _

theorem noFault_hostAct {s : State} (hs : PacketInv s) (act : HostAction) : NoFault (hostAct s act) := by
  cases act with
  | writeReg idx v => exact noFault_hostWriteReg hs idx v
  | readReg idx => exact noFault_hostReadReg s idx
  | writeMem sp off bytes => exact noFault_hostWriteBytes s sp off bytes
  | readMem sp off => exact (noFault_hostReadByte s sp off).andThen fun _ _ => noFault_next _
  | shift k => exact noFault_hostShift s _
  | append bytes => exact (noFault_hostWriteBytes s .inp s.inLen bytes).andThen fun _ _ => noFault_next _

/-- Settles O60: an operation that passes its checks stays inside its memories, and the host's accesses are refused beyond
them. -/
theorem noStepFaults : Obligations.NoStepFaults := by
  unfold Obligations.NoStepFaults
  intro s e hs
  cases hp : s.pending with
  | nil =>
    rw [step, hostTurn, hp]
    exact noFault_next s e
  | cons act rest =>
    rw [step_of_pending hp]
    exact noFault_hostAct (s := { s with pending := rest }) hs act e

end Sys2Proof.Machine
end

section
/-! PROOF. The OPSEL byte (30_encoding.md R80 to R82): decoding and encoding, and what the host's OPSEL write starts. -/

namespace Sys2Proof.Machine

/-! ### The byte and its two fields -/

/-- The table of R82 holds for every operation. -/
theorem encoding_statement (i : Instr) : Laws.Encoding.Statement i := by
  cases i with
  | encodeData => exact Laws.Encoding.encodeData
  | decodeData => exact Laws.Encoding.decodeData
  | pack => exact Laws.Encoding.pack
  | unpack => exact Laws.Encoding.unpack
  | encodePacket => exact Laws.Encoding.encodePacket
  | decodePacket => exact Laws.Encoding.decodePacket
  | pktInit => exact Laws.Encoding.pktInit
  | pktReset => exact Laws.Encoding.pktReset

/-- A byte decodes to an operation exactly when RSV is 0 and OP is one of the table's. -/
theorem decode_eq_ok {b : Byte} {i : Instr} : decode b = .ok i ↔ opselRsv b = 0#4 ∧ opOf (opselOp b) = some i := by
  unfold decode
  split
  case isTrue h => simp [h]
  case isFalse h =>
    have hrsv : opselRsv b = 0#4 := not_not.1 h
    cases opOf (opselOp b) <;> simp [hrsv]

theorem decode_of_rsv {b : Byte} (h : opselRsv b ≠ 0#4) : decode b = .error .reservedOpsel := if_pos h

theorem decode_of_op {b : Byte} (hrsv : opselRsv b = 0#4) (hop : opOf (opselOp b) = none) :
    decode b = .error .reservedOp := by
  rw [decode, if_neg (not_not.2 hrsv), hop]

theorem exists_opOf {op : Nibble} (h : op.toNat < 8) : ∃ i, opOf op = some i := by
  unfold opOf
  generalize op.toNat = n at h
  interval_cases n
  all_goals exact ⟨_, rfl⟩

/-- Each OP stands for one operation. -/
theorem eq_op_of_opOf {op : Nibble} {i : Instr} (h : opOf op = some i) : op = i.op := by
  apply BitVec.eq_of_toNat_eq
  unfold opOf at h
  split at h
  case h_9 => cases h
  all_goals
    cases h
    assumption

/-- An OP above the table's stands for none. -/
theorem opOf_eq_none {op : Nibble} (h : 8 ≤ op.toNat) : opOf op = none := by
  cases hop : opOf op with
  | none => rfl
  | some i =>
    obtain ⟨-, -, -, hlt, -⟩ := encoding_statement i
    rw [← eq_op_of_opOf hop] at hlt
    omega

/-- With RSV = 0 the byte is its field OP. -/
theorem eq_append_opselOp {b : Byte} (h : opselRsv b = 0#4) : (0#4 : Nibble) ++ opselOp b = b := by
  have hhigh : b.toNat / 16 % 16 = 0 := by
    have := congrArg BitVec.toNat h
    rwa [opselRsv, BitVec.extractLsb'_toNat, Nat.shiftRight_eq_div_pow] at this
  have hlow : (opselOp b).toNat = b.toNat % 16 := BitVec.extractLsb'_toNat 0 4 b
  apply BitVec.eq_of_toNat_eq
  rw [BitVec.toNat_append, hlow, BitVec.toNat_ofNat, Nat.zero_mod, Nat.zero_shiftLeft, Nat.zero_or]
  omega

/-- Settles O1: twelve bytes, each decoded by evaluation. -/
theorem opselBytesDecode : Obligations.OpselBytesDecode := by
  unfold Obligations.OpselBytesDecode
  decide

/-- Settles O2: an operation's fields are the table's, and no other byte has them. -/
theorem decodeEncodeAgree : Obligations.DecodeEncodeAgree := by
  unfold Obligations.DecodeEncodeAgree
  refine ⟨fun i => ?_, fun b i h => ?_⟩
  · obtain ⟨hwf, hrsv, hop, -, hopOf⟩ := encoding_statement i
    exact ⟨hwf, decode_eq_ok.2 ⟨hrsv, hop ▸ hopOf⟩⟩
  · obtain ⟨hrsv, hop⟩ := decode_eq_ok.1 h
    rw [encode, ← eq_op_of_opOf hop, eq_append_opselOp hrsv]

/-! ### The host's OPSEL write -/

/-- A host write at index 0 is an OPSEL write. -/
theorem step_writeOpsel {s : State} {v : Nat} {rest : List HostAction} (hp : s.pending = .writeReg 0 v :: rest) :
    step s = startOperation { s with pending := rest } v := step_of_pending hp

theorem startOperation_of_decode {s : State} {v : Nat} {i : Instr} (hi : decode (BitVec.ofNat 8 v) = .ok i) :
    startOperation s v = exec i (regSet s .opsel v) := by
  rw [startOperation, hi]

theorem decodeTableWord_eq_some {w : Nat} {i : Instr} (h : decodeTableWord 8 w = some i) :
    decode (BitVec.ofNat 8 (w % 2 ^ 8)) = .ok i := by
  unfold decodeTableWord at h
  split at h
  case h_1 j hj => exact hj.trans (congrArg Except.ok (Option.some.inj h))
  case h_2 => cases h

/-- Settles O3: the step is the host's OPSEL write, and the table's word is the operation's code. -/
theorem opselWriteRunsTheDecodedOperation : Obligations.OpselWriteRunsTheDecodedOperation := by
  unfold Obligations.OpselWriteRunsTheDecodedOperation
  refine ⟨fun s v rest i hp hi => ?_, fun s w i hw => ?_⟩
  · rw [step_writeOpsel hp, startOperation_of_decode hi]
    rfl
  · have hi := decodeTableWord_eq_some hw
    have hrun : step (s.withFetchWord 8 w) = startOperation s (w % 2 ^ 8) :=
      step_writeOpsel (s := s.withFetchWord 8 w) rfl
    rw [hrun, startOperation_of_decode hi, decodeEncodeAgree.2 _ i hi, regSet_opsel]

/-- Settles O4: RSV is looked at first, and then OP. -/
theorem reservedOpselWriteRefused : Obligations.ReservedOpselWriteRefused := by
  unfold Obligations.ReservedOpselWriteRefused
  refine fun s v rest hp => ⟨fun hrsv => ?_, fun hrsv hop => ?_, fun hrsv hop => ?_⟩
  · rw [step_writeOpsel hp, startOperation, decode_of_rsv hrsv]
    rfl
  · rw [step_writeOpsel hp, startOperation, decode_of_op hrsv (opOf_eq_none hop)]
    rfl
  · obtain ⟨i, hi⟩ := exists_opOf hop
    exact ⟨i, decode_eq_ok.2 ⟨hrsv, hi⟩⟩

end Sys2Proof.Machine
end

section
/-! PROOF. Power-on and the idle core (10_state.md R37, R38; 60_exceptions.md R235), the packer's inverse (41_command_codec.md
R135) and packet control (44_packet_control.md). -/

namespace Sys2Proof.Machine

/-- Settles O5: each register and each memory of `State.resetWith`. -/
theorem powerOnState : Obligations.PowerOnState := by
  unfold Obligations.PowerOnState
  refine ⟨fun c => ⟨rfl, fun r => ?_, fun sp a => ?_, rfl, rfl, rfl⟩, rfl⟩
  · cases r <;> rfl
  · cases sp <;> rfl

/-- Settles O6: with nothing pending the host's turn leaves the state. -/
theorem idleCoreKeepsItsState : Obligations.IdleCoreKeepsItsState := by
  unfold Obligations.IdleCoreKeepsItsState
  intro s hp
  rw [step, hostTurn, hp]

/-- The low nibble as a number. -/
theorem extractLsb'_low_toNat (b : Byte) : (b.extractLsb' 0 4).toNat = b.toNat % 16 := BitVec.extractLsb'_toNat 0 4 b

theorem extractLsb'_high_toNat (b : Byte) : (b.extractLsb' 4 4).toNat = b.toNat / 16 % 16 := by
  rw [BitVec.extractLsb'_toNat, Nat.shiftRight_eq_div_pow]

theorem zext8_toNat (n : Nibble) : (zext8 n).toNat = n.toNat := by
  rw [zext8, BitVec.toNat_setWidth]
  omega

/-- Settles O24: the two nibbles of a packed byte are its operands' low ones, and a byte is its two nibbles. -/
theorem packUnpackInverse : Obligations.PackUnpackInverse := by
  unfold Obligations.PackUnpackInverse
  refine ⟨fun c p => ?_, fun b => BitVec.eq_of_toNat_eq ?_⟩
  · rw [unpackByte, packByte_low, packByte_high, extractLsb'_low_toNat, extractLsb'_low_toNat]
  · rw [packByte_toNat, zext8_toNat, zext8_toNat, unpackByte, extractLsb'_low_toNat, extractLsb'_high_toNat]
    omega

/-- Settles O38: PKT_INIT is PKT_RESET's effects after PKT_CAP takes ARG_CAP, which fits the register. -/
theorem pktInitResult : Obligations.PktInitResult := by
  unfold Obligations.PktInitResult
  refine ⟨by decide, fun s => ⟨fun hs hcap => ?_, execPktInit_above⟩⟩
  have hrun : exec .pktInit s = .next (packetReset (regSet s .pktCap s.argCap)) := execPktInit_eq_next.2 ⟨hcap, rfl⟩
  rw [hrun, packetReset_eq, regSet_pktCap, toCount_eq hs.cfg (.inr (.inr hcap))]

/-- Settles O39: `packetReset_eq`. -/
theorem pktResetResult : Obligations.PktResetResult := by
  unfold Obligations.PktResetResult
  exact ⟨by decide, fun s => congrArg Host.Outcome.next (packetReset_eq s)⟩

end Sys2Proof.Machine
end

section
/-! PROOF. The host's register accesses (10_state.md R21, R39): the map, and what a write and a read of a register do. -/

namespace Sys2Proof.Machine

/-! ### The map -/

theorem regOfIndex_regIndex (r : Reg) : regOfIndex (regIndex r) = some r := by
  cases r <;> rfl

theorem regOfIndex_eq_none {n : Nat} (h : 15 < n) : regOfIndex n = none := by
  cases hr : regOfIndex n with
  | none => rfl
  | some r =>
    have hlt : regIndex r ≤ 15 := by cases r <;> decide
    rw [← regIndex_of_regOfIndex hr] at hlt
    omega

theorem regReadOnly_iff (r : Reg) :
    regReadOnly r = true ↔ r ∈ [Reg.result, .resByte, .resCmd, .resPort, .pktCap, .pktComplete] := by
  cases r <;> decide

@[simp] theorem byteAt_with_pending (s : State) (rest : List HostAction) (sp : Space) (a : Nat) :
    byteAt { s with pending := rest } sp a = byteAt s sp a := by
  cases sp <;> rfl

/-- A count that fits a memory fits a count register. -/
theorem lt_two_pow_of_le {c : Config} (h : c.wellFormed = true) {v : Nat}
    (hv : v ≤ c.inSize ∨ v ≤ c.outSize ∨ v ≤ c.pktSize) : v < 2 ^ c.cntW :=
  toCount_eq h hv ▸ toCount_lt c v

/-- Every register keeps within its width. -/
theorem StateInv.regRead_lt {s : State} (hs : StateInv s) (r : Reg) : regRead s r < 2 ^ regWidth s.cfg r := by
  cases r with
  | inLen => exact hs.inLen
  | outCap => exact hs.outCap
  | argCap => exact hs.argCap
  | result => exact lt_two_pow_of_le hs.cfg ((le_max_iff.1 hs.result).imp_right .inl)
  | pktLen => exact lt_two_pow_of_le hs.cfg (.inr (.inr (hs.packet.1.trans hs.packet.2)))
  | pktCap => exact lt_two_pow_of_le hs.cfg (.inr (.inr hs.packet.2))
  | pktComplete => exact Bool.toNat_lt s.pktComplete
  | _ => exact BitVec.isLt _

/-- Settles O49: the map's lines are `regOfIndex`, `regRead` and `regWidth`; the invariant bounds the count registers. -/
theorem registerMap : Obligations.RegisterMap := by
  unfold Obligations.RegisterMap
  refine ⟨by decide, fun n => regOfIndex_eq_none, regOfIndex_regIndex, fun s => ?_, fun c => ?_, fun s hs => hs.regRead_lt⟩
  · exact ⟨rfl, rfl, rfl, rfl, rfl, rfl, rfl, rfl, rfl, rfl, rfl, rfl, rfl, rfl, rfl, rfl⟩
  · exact ⟨rfl, rfl, rfl, rfl, rfl, rfl, rfl, rfl, rfl, rfl, rfl, rfl, rfl, rfl, rfl, rfl⟩

/-! ### Writes and reads -/

/-- A host write of a writable register sets it. -/
theorem hostWriteReg_writable {s : State} {idx v : Nat} {r : Reg} (hidx : regOfIndex idx = some r)
    (hro : regReadOnly r = false) (hop : r ≠ .opsel) (hlen : r = .pktLen → v ≤ s.pktCap) :
    hostWriteReg s idx v = .next (regSet s r v) := by
  have hfits : ¬(r = .pktLen ∧ v > s.pktCap) := fun ⟨hr, hv⟩ => Nat.not_lt.2 (hlen hr) hv
  simp only [hostWriteReg, hidx, hro, Bool.false_eq_true, if_false, if_neg hop, if_neg hfits]

/-- Settles O46: `hostWriteReg_writable`, and what a register write leaves alone. -/
theorem hostRegisterWrite : Obligations.HostRegisterWrite := by
  unfold Obligations.HostRegisterWrite
  intro s idx r v rest hs hp hidx hop hwritable hlen
  rw [← regReadOnly_iff, Bool.not_eq_true] at hwritable
  have hrun := hostWriteReg_writable (s := { s with pending := rest }) hidx hwritable hop hlen
  refine ⟨_, (step_of_pending hp).trans hrun, regRead_regSet_same .., fun hr => ?_, fun r' hr' => ?_, fun sp => ?_,
    regSet_keeps_cfg .., regSet_keeps_pending .., regSet_keeps_readData .., regSet_keeps_powerOn ..⟩
  · subst hr
    exact toCount_eq hs.cfg (.inr (.inr ((hlen rfl).trans hs.packet.2)))
  · rw [regRead_regSet_other _ _ hr', regRead_with_pending]
  · rw [regSet_keeps_memOf]
    cases sp <;> rfl

theorem hostWriteReg_unknown {s : State} {idx v : Nat} (h : 15 < idx) :
    hostWriteReg s idx v = .refused .unknownRegister := by
  rw [hostWriteReg, regOfIndex_eq_none h]
  rfl

theorem hostReadReg_unknown {s : State} {idx : Nat} (h : 15 < idx) :
    hostReadReg s idx = .refused .unknownRegister := by
  rw [hostReadReg, regOfIndex_eq_none h]
  rfl

theorem hostWriteReg_readOnly {s : State} {r : Reg} {v : Nat} (h : regReadOnly r = true) :
    hostWriteReg s (regIndex r) v = .refused .readOnlyRegister := by
  rw [hostWriteReg, regOfIndex_regIndex]
  exact if_pos h

/-- Settles O47: the checks of `hostWriteReg` and `hostReadReg`. -/
theorem hostRegisterRefusals : Obligations.HostRegisterRefusals := by
  unfold Obligations.HostRegisterRefusals
  refine ⟨fun s idx v rest hp h => ?_, fun s idx rest hp h => ?_, fun s r v rest hp h => ?_, fun s v rest hp h => ?_⟩
  · exact (step_of_pending hp).trans (hostWriteReg_unknown h)
  · exact (step_of_pending hp).trans (hostReadReg_unknown h)
  · exact (step_of_pending hp).trans (hostWriteReg_readOnly ((regReadOnly_iff r).2 h))
  · exact (step_of_pending hp).trans (hostWriteReg_pktLen_above h)

/-- Settles O48: the value read is the register's. -/
theorem hostRegisterRead : Obligations.HostRegisterRead := by
  unfold Obligations.HostRegisterRead
  intro s idx r rest hp hidx
  have hrun : hostReadReg { s with pending := rest } idx =
      .next { s with pending := rest, readData := regRead { s with pending := rest } r } := by
    rw [hostReadReg, hidx]
  rw [step_of_pending hp, ← regRead_with_pending s rest r]
  exact hrun

end Sys2Proof.Machine
end

section
/-! PROOF. The host's memory accesses and the two statements on the buffer (30_encoding.md R83; 20_memory.md R50, R54). -/

namespace Sys2Proof.Machine

/-- Settles O50: the bytes are put, and nothing else is. -/
theorem hostMemoryWrite : Obligations.HostMemoryWrite := by
  unfold Obligations.HostMemoryWrite
  refine fun s sp off bytes rest hp => ⟨fun hfit => ?_, fun hne hlong => ?_⟩
  · have hrun : hostWriteBytes { s with pending := rest } sp off bytes = .next _ :=
      hostWriteBytes_eq_next.2 ⟨hfit, rfl⟩
    refine ⟨_, (step_of_pending hp).trans hrun, writtenRun_putBytes .., fun sp' a ha => ?_, fun r => ?_,
      putBytes_keeps_cfg .., ?_⟩
    · rw [byteAt_putBytes_other _ _ (imp_iff_not_or.1 ha), byteAt_with_pending]
    · rw [regRead_putBytes, regRead_with_pending]
    · cases sp with
      | inp => rw [putBytes_inp]
      | out => rw [putBytes_out]
      | pkt => rw [putBytes_pkt]
  · exact (step_of_pending hp).trans (hostWriteBytes_absent hne hlong)

/-- A host read of a byte that exists puts it in `readData`. -/
theorem step_readMem {s : State} {sp : Space} {a : Nat} {rest : List HostAction}
    (hp : s.pending = .readMem sp a :: rest) (ha : a < spaceSize s.cfg sp) :
    step s = .next { s with pending := rest, readData := (hostByte s sp a).toNat } := by
  have hbyte : hostByte { s with pending := rest } sp a = hostByte s sp a := by
    rw [hostByte, hostByte, byteAt_with_pending]
  have hread := hostReadByte_eq_next (s := { s with pending := rest }).2 ⟨ha, hbyte.symm⟩
  rw [step_of_pending hp, hostAct, hostReadMem, hread, andThen_next]

/-- Settles O51: a read changes nothing that a later read looks at. -/
theorem hostMemoryRead : Obligations.HostMemoryRead := by
  unfold Obligations.HostMemoryRead
  refine fun s sp a rest hp => ⟨fun ha => ⟨step_readMem hp ha, fun b => hostByte_written, fun t rest' ht hp' => ?_⟩,
    fun ha => ?_⟩
  · obtain rfl := Host.Outcome.next.inj ((step_readMem hp ha).symm.trans ht)
    rw [step_readMem hp' ha]
    cases sp <;> rfl
  · rw [step_of_pending hp, hostAct, hostReadMem, hostReadByte, if_neg (Nat.not_lt.2 ha)]
    rfl

/-! ### The buffer -/

/-- A shift that moves bytes of IN_MEM alone: they arrive at the front, and IN_LEN shrinks. -/
theorem hostShift_ends {s : State} {k : Nat} (hlen : s.inLen < 2 ^ s.cfg.cntW) (hk : k ≤ s.inLen)
    (hfit : s.inLen ≤ s.cfg.inSize ∨ k = s.inLen) :
    ∃ m, hostShift s k = .next { s with inMem := m, inLen := s.inLen - k } ∧
      (∀ d b, d + k < s.inLen → byteAt s .inp (d + k) = some b → Memory.read m d = some b) ∧
      ∀ a, s.inLen - k ≤ a → Memory.read m a = byteAt s .inp a := by
  have hcount : toCount s.cfg (s.inLen - k) = s.inLen - k := Nat.mod_eq_of_lt (by omega)
  obtain ⟨t, hmove, ht, hmoved, hkept⟩ : ∃ t, hostMoveDown k (s.inLen - k) 0 s = .next t ∧
      t = { s with inMem := t.inMem } ∧
      (∀ j b, j < s.inLen - k → byteAt s .inp (0 + j + k) = some b → byteAt t .inp (0 + j) = some b) ∧
      ∀ a, a < 0 ∨ 0 + (s.inLen - k) ≤ a → byteAt t .inp a = byteAt s .inp a := by
    rcases hfit with hfit | rfl
    · exact hostMoveDown_spec k (s.inLen - k) 0 s (by omega)
    · rw [Nat.sub_self]
      exact ⟨s, rfl, rfl, nofun, fun _ _ => rfl⟩
  refine ⟨t.inMem, ?_, fun d b hd hb => ?_, fun a ha => ?_⟩
  · rw [hostShift, if_pos hk, hmove, andThen_next, ht, regSet_inLen]
    dsimp only
    rw [hcount]
  · have harrived := hmoved d b (by omega) (by rwa [Nat.zero_add])
    rwa [Nat.zero_add] at harrived
  · exact hkept a (.inr (by omega))

/-- Settles O52: `hostShift_ends` where the bytes exist, else one of the two refusals. -/
theorem hostShiftResult : Obligations.HostShift := by
  unfold Obligations.HostShift
  intro s k rest hs hp
  have hstep : step s = hostShift { s with pending := rest } (shiftCount s k) := by
    rw [step_of_pending hp, hostAct]
    cases k <;> rfl
  refine ⟨fun hk hfit => ?_, fun hk hlong => ?_, fun hk => ?_⟩
  · obtain ⟨m, hrun, hmoved, hkept⟩ := hostShift_ends (s := { s with pending := rest }) hs.inLen hk hfit
    refine ⟨_, hstep.trans hrun, rfl, hmoved, hkept, fun r hr => ?_, rfl, rfl, rfl, rfl⟩
    cases r with
    | inLen => exact absurd rfl hr
    | _ => rfl
  · rw [hstep, hostShift, if_pos (Nat.le_of_lt hk), hostMoveDown_absent _ _ _ _ (Nat.sub_pos_of_lt hk)]
    · rfl
    · show s.cfg.inSize < 0 + shiftCount s k + (s.inLen - shiftCount s k)
      omega
  · rw [hstep, hostShift, if_neg (Nat.not_le.2 hk)]
    rfl

/-- Settles O53: the bytes are put after the buffer, and IN_LEN takes the sum, which fits the register. -/
theorem hostAppendResult : Obligations.HostAppend := by
  unfold Obligations.HostAppend
  refine fun s bytes rest hs hp => ⟨fun hfit => ?_, fun hne hlong => ?_⟩
  · have hrun : hostAppend { s with pending := rest } bytes =
        .next (regSet (putBytes { s with pending := rest } .inp s.inLen bytes) .inLen (s.inLen + bytes.length)) := by
      rw [hostAppend, hostWriteBytes_eq_next.2 ⟨hfit, rfl⟩, andThen_next]
    have hcount : toCount s.cfg (s.inLen + bytes.length) = s.inLen + bytes.length := by
      rcases hfit with rfl | hfit
      · exact Nat.mod_eq_of_lt hs.inLen
      · exact toCount_eq hs.cfg (.inl hfit)
    refine ⟨_, (step_of_pending hp).trans hrun, ?_, ?_, fun sp a ha => ?_, fun r hr => ?_, ?_, ?_⟩
    · rw [regSet_inLen, putBytes_keeps_cfg]
      exact hcount
    · exact (writtenRun_congr _ fun _ _ => regSet_keeps_byteAt ..).trans (writtenRun_putBytes ..)
    · rw [regSet_keeps_byteAt, byteAt_putBytes_other _ _ (imp_iff_not_or.1 ha), byteAt_with_pending]
    · rw [regRead_regSet_other _ _ hr, regRead_putBytes, regRead_with_pending]
    · rw [regSet_keeps_cfg, putBytes_keeps_cfg]
    · rw [regSet_keeps_pending, putBytes_inp]
  · rw [step_of_pending hp, hostAct, hostAppend, hostWriteBytes_absent hne hlong]
    rfl

end Sys2Proof.Machine
end
